-- ==== Sys2Proof/Word.lean ====
section
/-! DEFINITION. The widths of the block (00_scope.md R9, R12): the byte, the 16-bit quantities, the 48-bit command
word, and the two directions. Base offsets and physical addresses are natural numbers (R9) and have no width. -/

namespace Sys2Proof

/-- A byte is 8 bits (R12). -/
abbrev Byte := BitVec 8

/-- A logical pointer, a transfer length or a slice size: unsigned 16 bits (R9). -/
abbrev Half := BitVec 16

/-- A channel index as a command carries it: unsigned 8 bits (R9, R71). -/
abbrev Chan := BitVec 8

/-- A command word of format `C48` (R70). -/
abbrev Command := BitVec 48

/-- A direction (R12): `RX`, receive, encoded 0; `TX`, transmit, encoded 1. -/
inductive Dir where
  | rx
  | tx
  deriving DecidableEq, Repr, Inhabited

end Sys2Proof
end

