-- ==== Sys2Proof/Syntax.lean ====
section
/-! DEFINITION. The instructions: one constructor per row of spec/opcode_table.json. The first six are the commands of
format `C48` (30_encoding.md R72, R73), the last four the Transport primitives of format `T34` (R78). The payload of a
`TRANSMIT` and the write data of a write primitive are no fields of the words: they accompany them (R75, R78) and stand in
`State.pay` and `State.port`. -/

namespace Sys2Proof

/-- One operation (R72) or Transport primitive (R78) with its operands (R75). Addresses are natural numbers (R9); their
field in a `T34` word is `ADDR_W` bits. -/
inductive Instr where
  /-- `SET_SLICE_SIZE dir, ch, size` (R90) -/
  | setSliceSize (dir : Dir) (ch : Chan) (size : Half)
  /-- `GET_SLICE dir, ch` (R92) -/
  | getSlice (dir : Dir) (ch : Chan)
  /-- `TRANSLATE dir, ch, pointer` (R101) -/
  | translate (dir : Dir) (ch : Chan) (pointer : Half)
  /-- `PLAN dir, ch, pointer, length` (R115) -/
  | plan (dir : Dir) (ch : Chan) (pointer : Half) (length : Half)
  /-- `RECEIVE ch, length` (R125) -/
  | receive (ch : Chan) (length : Half)
  /-- `TRANSMIT ch, length, [bytes]` (R131) -/
  | transmit (ch : Chan) (length : Half)
  /-- `RD_REG addr` (R145) -/
  | rdReg (addr : Nat)
  /-- `WR_REG addr, byte` (R146) -/
  | wrReg (addr : Nat)
  /-- `RD_BLK addr, n` (R147) -/
  | rdBlk (addr : Nat) (len : Half)
  /-- `WR_BLK addr, bytes` (R148) -/
  | wrBlk (addr : Nat) (len : Half)
  deriving DecidableEq, Repr, Inhabited

end Sys2Proof
end

