-- ==== Sys2Proof/WellFormed.lean ====
section
/-! DEFINITION. Well-formedness of instructions as syntax: what the field widths of the constructors do not already say.
Every operand of the six commands may have every value of its field (R75). A Transport request must have an address of
`ADDR_W` bits, and a block length in 1 .. 32768 (R78). -/

namespace Sys2Proof

/-- The address fits the `ADDR_W`-bit field (R78). -/
def addrFits (addrW addr : Nat) : Bool := addr < 2 ^ addrW

/-- The length field of a block request is in `1 .. 32768` (R78). -/
def blockLenFits (len : Half) : Bool := 1 ≤ len.toNat && len.toNat ≤ 32768

/-- A well-formed instruction, at address width `addrW`. -/
def Instr.wellFormed (addrW : Nat) : Instr → Bool
  | .setSliceSize _ _ _ => true
  | .getSlice _ _       => true
  | .translate _ _ _    => true
  | .plan _ _ _ _       => true
  | .receive _ _        => true
  | .transmit _ _       => true
  | .rdReg addr         => addrFits addrW addr
  | .wrReg addr         => addrFits addrW addr
  | .rdBlk addr len     => addrFits addrW addr && blockLenFits len
  | .wrBlk addr len     => addrFits addrW addr && blockLenFits len

end Sys2Proof
end

