-- ==== Sys2Proof/Decode.lean ====
section
/-! DEFINITION. Decoding and encoding, from the tables of 30_encoding.md: format `C48` (R71, R73, R74) and format `T34`
(R78). Both decoders are total and reject by name. Where a command word is carried as bytes, the most-significant byte
goes first (R45). -/

namespace Sys2Proof

/-- Why a word, or a run of bytes, is no instruction. -/
inductive DecodeError where
  /-- fewer bytes than the format has, or fewer payload bytes than the `B` of a `TRANSMIT` (R81) -/
  | truncated
  /-- `op` in 0x0, 0x7 .. 0xF (R74) -/
  | reservedOpcode
  /-- `rsv` is not 0 (R74) -/
  | reservedBitsSet
  /-- an operand field the row shows as zeros is not zero (R74) -/
  | unusedOperandSet
  /-- `RECEIVE` with `dir = 1` or `TRANSMIT` with `dir = 0` (R74) -/
  | wrongDirection
  /-- a register request with `len` not 1: "does not exist" (R78) -/
  | registerLengthNotOne
  /-- the number has bits above the format's width -/
  | tooWide
  deriving DecidableEq, Repr, Inhabited

/-! ## Format C48 -/

/-- The one-bit field `dir` (R71). -/
def Dir.bit : Dir → BitVec 1
  | .rx => 0
  | .tx => 1

/-- `op`, bits 47:44 (R71). -/
def Command.op (w : Command) : BitVec 4 := w.extractLsb' 44 4

/-- `dir`, bit 43 (R71). -/
def Command.dir (w : Command) : Dir := if w.extractLsb' 43 1 = 0#1 then .rx else .tx

/-- `rsv`, bits 42:40 (R71). -/
def Command.rsv (w : Command) : BitVec 3 := w.extractLsb' 40 3

/-- `ch`, bits 39:32 (R71). -/
def Command.ch (w : Command) : Chan := w.extractLsb' 32 8

/-- `A`, bits 31:16 (R71). -/
def Command.fieldA (w : Command) : Half := w.extractLsb' 16 16

/-- `B`, bits 15:0 (R71). -/
def Command.fieldB (w : Command) : Half := w.extractLsb' 0 16

/-- The command word with these fields and `rsv = 0` (R71). -/
def Command.ofFields (op : BitVec 4) (dir : Dir) (ch : Chan) (a b : Half) : Command :=
  (op ++ dir.bit ++ 0#3 ++ ch ++ a ++ b).cast (by decide)

/-- Decode a command word (R73, R74): total, every word is one of the six commands or illegal. -/
def decodeCommand (w : Command) : Except DecodeError Instr :=
  if Command.rsv w ≠ 0#3 then .error .reservedBitsSet
  else match (Command.op w).toNat with
    | 1 => if Command.fieldB w = 0#16 then .ok (.setSliceSize (Command.dir w) (Command.ch w) (Command.fieldA w))
           else .error .unusedOperandSet
    | 2 => if Command.fieldA w = 0#16 ∧ Command.fieldB w = 0#16 then .ok (.getSlice (Command.dir w) (Command.ch w))
           else .error .unusedOperandSet
    | 3 => if Command.fieldB w = 0#16 then .ok (.translate (Command.dir w) (Command.ch w) (Command.fieldA w))
           else .error .unusedOperandSet
    | 4 => .ok (.plan (Command.dir w) (Command.ch w) (Command.fieldA w) (Command.fieldB w))
    | 5 => if Command.dir w ≠ .rx then .error .wrongDirection
           else if Command.fieldA w = 0#16 then .ok (.receive (Command.ch w) (Command.fieldB w))
           else .error .unusedOperandSet
    | 6 => if Command.dir w ≠ .tx then .error .wrongDirection
           else if Command.fieldA w = 0#16 then .ok (.transmit (Command.ch w) (Command.fieldB w))
           else .error .unusedOperandSet
    | _ => .error .reservedOpcode

/-- How many payload bytes follow the command (R70, R75, R81): `B` after a `TRANSMIT`, none after any other. -/
def Instr.payloadLength : Instr → Nat
  | .transmit _ len => len.toNat
  | _ => 0

/-- How many payload bytes follow this word; none follow an illegal one. -/
def Command.payloadLength (w : Command) : Nat :=
  match decodeCommand w with
  | .ok i => i.payloadLength
  | .error _ => 0

/-- The six bytes of a command word, most-significant byte first (R45). -/
def Command.toBytes (w : Command) : List Byte :=
  [w.extractLsb' 40 8, w.extractLsb' 32 8, w.extractLsb' 24 8, w.extractLsb' 16 8, w.extractLsb' 8 8, w.extractLsb' 0 8]

/-- The command word at the head of a run of bytes, most-significant byte first (R45), and the bytes after it. -/
def Command.ofBytes : List Byte → Option (Command × List Byte)
  | b5 :: b4 :: b3 :: b2 :: b1 :: b0 :: rest => some ((b5 ++ b4 ++ b3 ++ b2 ++ b1 ++ b0).cast (by decide), rest)
  | _ => none

/-- Decode a command carried as bytes (R45, R81): 48 bits, plus `B` payload bytes after a `TRANSMIT`. Answers the
instruction, its payload and the bytes after them. -/
def decodeBytes (bytes : List Byte) : Except DecodeError (Instr × List Byte × List Byte) :=
  match Command.ofBytes bytes with
  | none => .error .truncated
  | some (w, rest) =>
    match decodeCommand w with
    | .error e => .error e
    | .ok i =>
      if rest.length < i.payloadLength then .error .truncated
      else .ok (i, rest.take i.payloadLength, rest.drop i.payloadLength)

/-! ## Format T34 -/

/-- The `T34` request with these fields, at address width `addrW` (R78): `blk`, `wr`, `addr` (`addrW` bits), `len`. -/
def requestWord (addrW : Nat) (blk wr : Bool) (addr : Nat) (len : Half) : Nat :=
  (2 * blk.toNat + wr.toNat) * 2 ^ (addrW + 16) + addr * 2 ^ 16 + len.toNat

/-- `len`, bits 15:0 of a request (R78). -/
def requestLen (w : Nat) : Half := BitVec.ofNat 16 w

/-- `addr`, the `addrW` bits above `len` (R78). -/
def requestAddr (addrW w : Nat) : Nat := w / 2 ^ 16 % 2 ^ addrW

/-- `blk` and `wr`, the two top bits of a request (R78), `blk` the more significant. -/
def requestKind (addrW w : Nat) : Nat := w / 2 ^ (addrW + 16)

/-- Decode a Transport request (R78): total. The block rows leave every length decodable, as their mask does; a length
outside `1 .. 32768` gives an instruction that is not well formed (log entry 14). -/
def decodeRequest (addrW w : Nat) : Except DecodeError Instr :=
  match requestKind addrW w with
  | 0 => if requestLen w = 1#16 then .ok (.rdReg (requestAddr addrW w)) else .error .registerLengthNotOne
  | 1 => if requestLen w = 1#16 then .ok (.wrReg (requestAddr addrW w)) else .error .registerLengthNotOne
  | 2 => .ok (.rdBlk (requestAddr addrW w) (requestLen w))
  | 3 => .ok (.wrBlk (requestAddr addrW w) (requestLen w))
  | _ => .error .tooWide

/-- How many bytes of write data accompany the request (R78). -/
def Instr.writeDataLength : Instr → Nat
  | .wrReg _ => 1
  | .wrBlk _ len => len.toNat
  | _ => 0

/-! ## The encoder -/

/-- A word of one of the two formats. -/
inductive Encoding where
  | c48 (w : Command)
  | t34 (w : Nat)
  deriving DecidableEq, Repr, Inhabited

/-- Encode an instruction (R73, R78), at address width `addrW`. -/
def encode (addrW : Nat) : Instr → Encoding
  | .setSliceSize d ch size => .c48 (Command.ofFields 1 d ch size 0)
  | .getSlice d ch          => .c48 (Command.ofFields 2 d ch 0 0)
  | .translate d ch p       => .c48 (Command.ofFields 3 d ch p 0)
  | .plan d ch p len        => .c48 (Command.ofFields 4 d ch p len)
  | .receive ch len         => .c48 (Command.ofFields 5 .rx ch 0 len)
  | .transmit ch len        => .c48 (Command.ofFields 6 .tx ch 0 len)
  | .rdReg addr             => .t34 (requestWord addrW false false addr 1)
  | .wrReg addr             => .t34 (requestWord addrW false true addr 1)
  | .rdBlk addr len         => .t34 (requestWord addrW true false addr len)
  | .wrBlk addr len         => .t34 (requestWord addrW true true addr len)

/-- Decode a word of either format. -/
def decode (addrW : Nat) : Encoding → Except DecodeError Instr
  | .c48 w => decodeCommand w
  | .t34 w => decodeRequest addrW w

/-! ## The opcode table -/

/-- One row of the opcode table: mask and match (R73, R78). -/
structure OpcodeRow where
  mnemonic : String
  bits     : Nat
  maskBits : Nat
  pattern  : Nat
  deriving DecidableEq, Repr

/-- The six rows of format `C48` (R73). -/
def commandRows : List OpcodeRow :=
  [ ⟨"SET_SLICE_SIZE", 48, 0xF7000000FFFF, 0x100000000000⟩,
    ⟨"GET_SLICE",      48, 0xF700FFFFFFFF, 0x200000000000⟩,
    ⟨"TRANSLATE",      48, 0xF7000000FFFF, 0x300000000000⟩,
    ⟨"PLAN",           48, 0xF70000000000, 0x400000000000⟩,
    ⟨"RECEIVE",        48, 0xFF00FFFF0000, 0x500000000000⟩,
    ⟨"TRANSMIT",       48, 0xFF00FFFF0000, 0x680000000000⟩ ]

/-- The four rows of format `T34` at `ADDR_W = 16` (R78). -/
def requestRows : List OpcodeRow :=
  [ ⟨"RD_REG", 34, 0x30000FFFF, 0x000000001⟩,
    ⟨"WR_REG", 34, 0x30000FFFF, 0x100000001⟩,
    ⟨"RD_BLK", 34, 0x300000000, 0x200000000⟩,
    ⟨"WR_BLK", 34, 0x300000000, 0x300000000⟩ ]

/-- The mnemonic of an instruction's row. -/
def Instr.mnemonic : Instr → String
  | .setSliceSize _ _ _ => "SET_SLICE_SIZE"
  | .getSlice _ _       => "GET_SLICE"
  | .translate _ _ _    => "TRANSLATE"
  | .plan _ _ _ _       => "PLAN"
  | .receive _ _        => "RECEIVE"
  | .transmit _ _       => "TRANSMIT"
  | .rdReg _            => "RD_REG"
  | .wrReg _            => "WR_REG"
  | .rdBlk _ _          => "RD_BLK"
  | .wrBlk _ _          => "WR_BLK"

/-- The word is of this row: `w & mask = match` (R73). -/
def OpcodeRow.selects (r : OpcodeRow) (w : Nat) : Bool := w &&& r.maskBits = r.pattern

/-- The instruction the decoder reads from a word numbered as spec/opcode_table.json numbers it: a row of 48 bits is a
command, carried most-significant byte first; a row of 34 bits (five whole bytes) is a Transport request at
`ADDR_W = 16`. Log entry 24. -/
def decodeTableWord (nbits w : Nat) : Option Instr :=
  if nbits = 48 then
    if w < 2 ^ 48 then
      match Command.ofBytes (Command.toBytes (BitVec.ofNat 48 w)) with
      | some (c, _) => (decodeCommand c).toOption
      | none => none
    else none
  else if 34 ≤ nbits ∧ nbits ≤ 40 then (decodeRequest 16 w).toOption
  else none

end Sys2Proof
end

