-- ==== Sys2Proof/Machine/Records.lean ====
section
/-! DEFINITION. The records the spec names: slices, segments, responses, the sequencer's phase and latches, the Transport
port's verdict and reply. Plain data. -/

namespace Sys2Proof.Machine

/-- One PartitionTable entry, the record `slice` of R13: the configured size (R21) and the derived base offset (R22). -/
structure Slice where
  size : Half
  base : Nat
  deriving DecidableEq, Repr, Inhabited

/-- The PartitionTable (R20 (a)): one entry per channel, channel 0 first, for each direction. -/
structure PartitionTable where
  rx : List Slice
  tx : List Slice
  deriving DecidableEq, Repr, Inhabited

/-- A segment (GLOSSARY): "one contiguous (physical address, length) piece of a possibly-split transfer". The address is
a natural number, the length 16 bits (R76). -/
structure Segment where
  addr : Nat
  len  : Half
  deriving DecidableEq, Repr, Inhabited

/-- The five error kinds (R160). -/
inductive ErrorKind where
  /-- R161: `SET_SLICE_SIZE` with a size not in `ALLOWED`. -/
  | invalidSizeError
  /-- R162: a channel index `>= N`. -/
  | unknownChannelError
  /-- R163: the outstanding primitive replied `fail`. -/
  | transportError
  /-- R164: a transfer length above the slice size. -/
  | lengthError
  /-- R165: the command word matches no row of R73. -/
  | illegalCommandError
  deriving DecidableEq, Repr, Inhabited

/-- The `status` field of a response (R76, R77). Its 8-bit code is `Status.code` of Machine/Flags.lean. -/
inductive Status where
  | ok
  | error (kind : ErrorKind)
  deriving DecidableEq, Repr, Inhabited

/-- The response record (R76). A field that the table says is not present is `none`; `seg` holds the segments present,
`seg[0]` first, and `data` the bytes present, `data[0]` first: a `data` field of no bytes and no `data` field are one record (DEDUCED,
log entry 13). -/
structure Response where
  status : Status
  size   : Option Half
  base   : Option Nat
  addr   : Option Nat
  nseg   : Option (BitVec 2)
  seg    : List Segment
  data   : List Byte
  deriving DecidableEq, Repr, Inhabited

/-- The sequencer phase `ph` (R24). `idle`: no operation in progress; the other six name the Transport primitive
outstanding. -/
inductive Phase where
  | idle
  | rdHi
  | rdLo
  | seg1
  | seg2
  | wrHi
  | wrLo
  deriving DecidableEq, Repr, Inhabited

/-- The in-flight latches `lat.*` (R25), live only while `ph` is not `idle`. -/
structure Latches where
  /-- the PartitionTable entry copied when the command was accepted -/
  slice : Slice
  /-- the most-significant pointer byte -/
  hi    : Byte
  /-- the logical pointer read from the peripheral -/
  p     : Half
  /-- the plan -/
  segs  : List Segment
  /-- `RECEIVE`: the bytes read so far; `TRANSMIT`: a copy of `PAY` -/
  buf   : List Byte
  deriving DecidableEq, Repr, Inhabited

/-- The Transport's verdict on one primitive (R150, D24), an oracle's choice with no law on it (R33). A failed write has
stored the bytes whose entry of `landed` is true, and no other (an entry the list does not have counts as false). -/
inductive Verdict where
  | ok
  | fail (landed : List Bool)
  deriving DecidableEq, Repr, Inhabited

/-- The Transport's reply (R79). -/
inductive Reply where
  | ok (data : List Byte)
  | fail
  deriving DecidableEq, Repr, Inhabited

/-- The Transport port (R40, R78, R79): the write data that accompanies the request on it, the verdict on that request,
and the last reply. -/
structure Port where
  wdata   : List Byte
  verdict : Verdict
  reply   : Reply
  deriving DecidableEq, Repr, Inhabited

/-- A command as the host presents it (R23, R70, R75): the word, and the payload bytes that follow a `TRANSMIT`. -/
structure Presented where
  word : Command
  pay  : List Byte
  deriving DecidableEq, Repr, Inhabited

/-- One move of one agent (R5, D25). Log entry 7. -/
inductive Turn where
  /-- CBAT moves: in `IDLE` it accepts the oldest command held off (R173); otherwise it waits (R136). -/
  | cbat
  /-- The Transport performs CBAT's outstanding primitive, with this verdict, and CBAT takes the reply (R135). -/
  | transport (verdict : Verdict)
  /-- The host presents a command (R5). -/
  | present (command : Presented)
  /-- Another bus master has the Transport perform a primitive of its own (R5, R152): the request word of format `T34`,
  its write data, the verdict. -/
  | master (request : Nat) (wdata : List Byte) (verdict : Verdict)
  /-- The peripheral changes bytes of `PMem` (R28, D25), the first of the list first. -/
  | peripheral (writes : List (Nat × Byte))
  /-- The reset input (R185). If a write primitive is outstanding, the bytes whose entry is true landed (U26). -/
  | reset (landed : List Bool)
  deriving DecidableEq, Repr, Inhabited

end Sys2Proof.Machine
end

