-- ==== Sys2Proof/Config.lean ====
section
/-! DEFINITION. The parameters of an instance (00_scope.md R7, R8), the reference configuration (R11), and the free
values: constants with no body, for what the spec leaves unspecified (R25, R34, U25). -/

namespace Sys2Proof

/-- The wire-framing variant (R8, R80), fixed at construction time and invisible to CBAT. -/
inductive Framing where
  | A
  | B
  deriving DecidableEq, Repr, Inhabited

/-- The parameters of one instance (R7, R8), constant for its life (R33, R186). Held in `State.cfg`: log entry 1. -/
structure Config where
  /-- `N`, the channel count -/
  n            : Nat
  /-- `ALLOWED`, the allowed slice sizes in bytes -/
  allowed      : List Nat
  /-- `RX_BASE` -/
  rxBase       : Nat
  /-- `TX_BASE` -/
  txBase       : Nat
  /-- `DEFAULT_SIZE` -/
  defaultSize  : Nat
  /-- `ADDR_W` -/
  addrW        : Nat
  /-- `PTR_REG[RX][k]`, channel 0 first: the address of the most-significant byte of the pair -/
  ptrRegRx     : List Nat
  /-- `PTR_REG[TX][k]`, channel 0 first -/
  ptrRegTx     : List Nat
  /-- `REGION_SIZE[RX]` -/
  rxRegionSize : Nat
  /-- `REGION_SIZE[TX]` -/
  txRegionSize : Nat
  /-- `FRAMING` -/
  framing      : Framing
  /-- `MAX_BLOCK` -/
  maxBlock     : Nat
  deriving DecidableEq, Repr, Inhabited

/-- `CFG_REF` (R11). PRESUMED (the spec marks TX_BASE, ADDR_W, REGION_SIZE and PTR_REG "from general knowledge, not in
source") and, for FRAMING and MAX_BLOCK, which R11 does not give, DESIGN CHOICE: log entry 2. -/
def Config.reference : Config where
  n            := 4
  allowed      := [1024, 2048, 4096, 8192]
  rxBase       := 0x6000
  txBase       := 0x4000
  defaultSize  := 1024
  addrW        := 16
  ptrRegRx     := [0x0428, 0x0528, 0x0628, 0x0728]
  ptrRegTx     := [0x0424, 0x0524, 0x0624, 0x0724]
  rxRegionSize := 8192
  txRegionSize := 8192
  framing      := .A
  maxBlock     := 1

/-- FREE VALUE: `lat.*` when an operation in flight has ended (R25: "meaningless otherwise"; U25: any value). Applied to
the counter `State.free`. Log entry 6. -/
opaque Config.freeLatches : Nat → Machine.Latches

/-- FREE VALUE: `CMD` after the reset input (R34, U25). Log entry 6. -/
opaque Config.freeCommand : Nat → Command

/-- FREE VALUE: `PAY` after the reset input (R34, U25). Log entry 6. -/
opaque Config.freePayload : Nat → List Byte

/-- FREE VALUE: `RSP` after the reset input (R34, U25). Log entry 6. -/
opaque Config.freeResponse : Nat → Machine.Response

end Sys2Proof
end

