-- ==== Sys2Proof/Machine/Layout.lean ====
section
/-! DEFINITION. The parameters as the rules use them: region bases, pointer register addresses, well-formed configurations
(00_scope.md R7, R8, R10); and the PartitionTable as data: entries, the recompute pass, the table of reset (10_state.md
R21, R22, R34; 40_partition_table.md R91). -/

namespace Sys2Proof

/-- `REGION_BASE[d]` (R7). -/
def Config.regionBase (c : Config) : Dir → Nat
  | .rx => c.rxBase
  | .tx => c.txBase

/-- `REGION_SIZE[d]` (R8). -/
def Config.regionSize (c : Config) : Dir → Nat
  | .rx => c.rxRegionSize
  | .tx => c.txRegionSize

/-- The end of the region of direction `d`: the first address after it. -/
def Config.regionEnd (c : Config) (d : Dir) : Nat := c.regionBase d + c.regionSize d

/-- `PTR_REG[d][0..N-1]` (R8). -/
def Config.ptrRegs (c : Config) : Dir → List Nat
  | .rx => c.ptrRegRx
  | .tx => c.ptrRegTx

/-- `PTR_REG[d][k]` (R8). A well-formed configuration has an entry for every `k < N`; beyond it, 0 (log entry 25). -/
def Config.ptrReg (c : Config) (d : Dir) (k : Nat) : Nat := (c.ptrRegs d).getD k 0

/-- The number of addresses of `PMem`: they are `0 .. 2^ADDR_W - 1` (R28). -/
def Config.pmemSize (c : Config) : Nat := 2 ^ c.addrW

/-- A legal member of `ALLOWED`: a power of two `2^j` with `j <= 15` (R9, R10). -/
def isSliceSize (s : Nat) : Bool := (List.range 16).any fun j => s == 2 ^ j

/-- Address `a` lies in the region of direction `d`. -/
def Config.inRegion (c : Config) (d : Dir) (a : Nat) : Bool := c.regionBase d ≤ a && a < c.regionEnd d

/-- The two regions do not intersect (R10); an empty region intersects nothing. -/
def Config.regionsDisjoint (c : Config) : Bool :=
  c.rxRegionSize == 0 || c.txRegionSize == 0 || c.regionEnd .rx ≤ c.txBase || c.regionEnd .tx ≤ c.rxBase

/-- The pair at `a` lies in `PMem` and neither of its bytes lies in a region (R10; that it lies in `PMem` is log entry 3). -/
def Config.pairOutsideRegions (c : Config) (a : Nat) : Bool :=
  a + 1 < c.pmemSize && [a, a + 1].all fun x => !c.inRegion .rx x && !c.inRegion .tx x

/-- Two pointer register pairs are disjoint (R10). -/
def pairsDisjoint (a b : Nat) : Bool := a + 2 ≤ b || b + 2 ≤ a

/-- A well-formed configuration (R10). -/
def Config.wellFormed (c : Config) : Bool :=
  (1 ≤ c.n && c.n ≤ 256)
  && (!c.allowed.isEmpty && c.allowed.all isSliceSize && c.allowed.contains c.defaultSize)
  && (c.regionEnd .rx ≤ c.pmemSize && c.regionEnd .tx ≤ c.pmemSize && c.regionsDisjoint)
  && (c.ptrRegRx.length == c.n && c.ptrRegTx.length == c.n)
  && (c.ptrRegRx ++ c.ptrRegTx).all c.pairOutsideRegions
  && decide ((c.ptrRegRx ++ c.ptrRegTx).Pairwise fun a b => pairsDisjoint a b = true)
  && 1 ≤ c.maxBlock

namespace Machine

/-- The entries of one direction, channel 0 first. -/
def PartitionTable.entries (pt : PartitionTable) : Dir → List Slice
  | .rx => pt.rx
  | .tx => pt.tx

/-- The table with the entries of one direction replaced. -/
def PartitionTable.withEntries (pt : PartitionTable) (d : Dir) (es : List Slice) : PartitionTable :=
  match d with
  | .rx => { pt with rx := es }
  | .tx => { pt with tx := es }

/-- The entry of channel `k`, direction `d`: `PT.size[d][k]` and `PT.base[d][k]` (R21, R22). The table has `N` entries a
direction; beyond them, size 0 and base 0 (log entry 25). -/
def PartitionTable.entry (pt : PartitionTable) (d : Dir) (k : Nat) : Slice := (pt.entries d).getD k ⟨0, 0⟩

/-- `recompute` (R91): one pass over the entries in channel order, `acc` the running sum, each base stored BEFORE the
entry's own size is added. Sums over the natural numbers. -/
def layout (acc : Nat) : List Slice → List Slice
  | [] => []
  | e :: es => { e with base := acc } :: layout (acc + e.size.toNat) es

/-- Set the size of entry `k` and leave every other entry (R90). -/
def resize (k : Nat) (size : Half) (es : List Slice) : List Slice := es.modify k fun e => { e with size := size }

/-- `PT.size[d][k] <- size; recompute(d)` (R90, R91): only direction `d` changes. -/
def PartitionTable.setSize (pt : PartitionTable) (c : Config) (d : Dir) (k : Nat) (size : Half) : PartitionTable :=
  pt.withEntries d (layout (c.regionBase d) (resize k size (pt.entries d)))

/-- The entries reset leaves for direction `d` (R34, R185): every size `DEFAULT_SIZE`, then `recompute(d)`. -/
def resetEntries (c : Config) (d : Dir) : List Slice :=
  layout (c.regionBase d) (List.replicate c.n ⟨BitVec.ofNat 16 c.defaultSize, 0⟩)

/-- The PartitionTable after reset (R34, R185). -/
def PartitionTable.reset (c : Config) : PartitionTable := ⟨resetEntries c .rx, resetEntries c .tx⟩

/-- `SliceFits` for a slice of direction `d` (R27 (b)): it ends inside its region. -/
def sliceFits (c : Config) (d : Dir) (sl : Slice) : Bool := sl.base + sl.size.toNat ≤ c.regionEnd d

/-- The sum of the sizes of channels `0..k-1` (R26). -/
def sizesBefore (es : List Slice) (k : Nat) : Nat := ((es.take k).map fun e => e.size.toNat).sum

end Machine
end Sys2Proof
end

