-- ==== Sys2Proof/Machine/Memory.lean ====
section
/-! DEFINITION. `PMem` as data (10_state.md R28): a list of (address, byte) cells in one canonical form, addresses strictly
rising and no cell that holds what an unlisted address reads as; reading and writing a byte, a block, and the landed part of
a failed write (20_memory.md R44; 44_transport.md R145 to R148, R150). -/

namespace Sys2Proof.Machine

/-- The peripheral address space `PMem` (R28). -/
abbrev Memory := List Host.Cell

/-- What an unlisted address reads as. DESIGN CHOICE: the spec gives `PMem` no contents at reset (R34, U27). Log entry 5. -/
def Memory.unlisted : Byte := 0

/-- The byte at address `a`. -/
def Memory.read : Memory → Nat → Byte
  | [], _ => Memory.unlisted
  | (x, b) :: m, a => if x = a then b else Memory.read m a

/-- Put byte `b` at address `a`, in address order. -/
def Memory.put (a : Nat) (b : Byte) : Memory → Memory
  | [] => [(a, b)]
  | (x, c) :: m => if a < x then (a, b) :: (x, c) :: m else if a = x then (a, b) :: m else (x, c) :: Memory.put a b m

/-- Take the cell of address `a` out. -/
def Memory.drop (a : Nat) : Memory → Memory
  | [] => []
  | (x, c) :: m => if x = a then m else (x, c) :: Memory.drop a m

/-- `PMem[a] <- b`, in canonical form. -/
def Memory.write (m : Memory) (a : Nat) (b : Byte) : Memory :=
  if b = Memory.unlisted then Memory.drop a m else Memory.put a b m

/-- `PMem[a], PMem[a+1], ..., PMem[a+n-1]` (R44, R147). -/
def Memory.readBlock (m : Memory) (a : Nat) : Nat → List Byte
  | 0 => []
  | n + 1 => Memory.read m a :: Memory.readBlock m (a + 1) n

/-- `PMem[a+i] <- bytes[i]` for every `i`, ascending (R44, R148). -/
def Memory.writeBlock (m : Memory) (a : Nat) : List Byte → Memory
  | [] => m
  | b :: bs => Memory.writeBlock (Memory.write m a b) (a + 1) bs

/-- What a failed write leaves (R150): byte `i` is stored where `landed[i]` is true, and is the old byte elsewhere. -/
def Memory.writeLanded (m : Memory) (a : Nat) : List Byte → List Bool → Memory
  | b :: bs, l :: ls => Memory.writeLanded (if l then Memory.write m a b else m) (a + 1) bs ls
  | _, _ => m

/-- The peripheral's changes (R28, D25), in order. A write to an address at or above `limit` names no byte of `PMem` and
changes nothing (log entry 21). -/
def Memory.pokeAll (limit : Nat) (m : Memory) : List (Nat × Byte) → Memory
  | [] => m
  | (a, b) :: ws => Memory.pokeAll limit (if a < limit then Memory.write m a b else m) ws

/-- The canonical form: addresses strictly rising, no cell that holds the unlisted byte. -/
def Memory.wf (m : Memory) : Bool :=
  decide (m.Pairwise fun p q => p.1 < q.1) && m.all fun c => c.2 != Memory.unlisted

/-- Every cell listed is below `limit`. -/
def Memory.below (limit : Nat) (m : Memory) : Bool := m.all fun c => c.1 < limit

end Sys2Proof.Machine
end

