-- ==== Sys2Proof/Machine/State.lean ====
section
/-! DEFINITION. The state of one CBAT instance and of what it reaches (10_state.md R20 to R34), the reasons a step can stop,
and the state after reset. Plain data. -/

namespace Sys2Proof.Machine

/-- Faults: an access to something that does not exist. -/
inductive Fault where
  /-- A primitive reaches an address of no byte of `PMem`, whose addresses are `0 .. 2^ADDR_W - 1` (R28). Raised by `RD_REG`,
  `WR_REG`, `RD_BLK`, `WR_BLK`. Safe: the machine stops where the spec has no byte to read or write. Log entry 15. -/
  | addressOutsidePMem (addr : Nat)
  deriving DecidableEq, Repr

/-- Refusals: situations the spec gives no meaning (R14). -/
inductive Refusal where
  /-- The instruction has no meaning in this model yet. Raised by `exec`'s arms only; no arm raises it now. Safe. -/
  | notModelled (mnemonic : String)
  /-- `RECEIVE` or `TRANSMIT` with a legal non-zero length on a channel whose `SliceFits` is false: `refuse` (R126 step 4,
  R14). Raised by these two commands. Safe. Log entry 19. -/
  | sliceDoesNotFit
  /-- The configuration is not well formed: "The rules of this spec are stated only for well-formed configurations" (R10,
  U24). Raised by `step`. Safe. Log entry 18. -/
  | illFormedConfiguration
  /-- A command was presented with a payload of another length than its word says: such a command "cannot be formed" (D28,
  R75). Raised by `step` on `Turn.present`. Safe. Log entry 12. -/
  | payloadNotOfLengthB
  /-- Another bus master put a word on the Transport port that is no request of format `T34` (R78). Raised by `step` on
  `Turn.master`. Safe. Log entry 17. -/
  | illegalRequest
  /-- A write primitive whose write data is not the number of bytes its request says (R78). Raised by `WR_REG` and `WR_BLK`.
  Safe. Log entry 16. -/
  | writeDataNotOfLength
  deriving DecidableEq, Repr

/-- Everything the spec gives the machine. Each field's rule and reset value stand in INVENTORY.md, '## State'. -/
structure State where
  /-- the parameters (R7, R8); no step changes them -/
  cfg     : Config
  /-- the PartitionTable (R20 (a), R21, R22) -/
  pt      : PartitionTable
  /-- the sequencer phase (R24) -/
  ph      : Phase
  /-- the command latch `CMD` (R23) -/
  cmd     : Command
  /-- the payload latch `PAY` (R23) -/
  pay     : List Byte
  /-- the response latch `RSP` (R23, R76) -/
  rsp     : Response
  /-- the in-flight latches `lat.*` (R25) -/
  lat     : Latches
  /-- the peripheral address space `PMem` (R28) -/
  mem     : Memory
  /-- the Transport port (R78, R79) -/
  port    : Port
  /-- commands presented and held off (R173), oldest first -/
  pending : List Presented
  /-- the turns of the agents still to come (R5, D25), oldest first; none listed: CBAT's turn (log entry 7) -/
  inputs  : List Turn
  /-- THE MODEL'S OWN field: the counter the free values of Config are applied to (log entry 6) -/
  free    : Nat
  deriving DecidableEq, Repr

/-- The machine right after reset (R34, R185), under `CFG_REF` (R11): every size `DEFAULT_SIZE`, the bases laid out, `IDLE`.
`CMD`, `PAY`, `RSP`, `lat.*` and the port, which the spec leaves unspecified: DESIGN CHOICE, log entry 4. `PMem`: nothing
listed, log entry 5. -/
def State.reset : State where
  cfg     := Config.reference
  pt      := PartitionTable.reset Config.reference
  ph      := .idle
  cmd     := 0
  pay     := []
  rsp     := ⟨.ok, none, none, none, none, [], []⟩
  lat     := ⟨⟨0, 0⟩, 0, 0, [], []⟩
  mem     := []
  port    := ⟨[], .ok, .ok []⟩
  pending := []
  inputs  := []
  free    := 0

end Sys2Proof.Machine
end

