-- ==== Sys2Proof/Machine/Flags.lean ====
section
/-! DEFINITION. CBAT has no flags and no condition codes (10_state.md R31): "The only outcome indicator is the `status` field
of the response". This file has the status codes (30_encoding.md R77) and the response each kind of outcome gives (R76). -/

namespace Sys2Proof.Machine

/-- The code of an error kind (R77, R160). -/
def ErrorKind.code : ErrorKind → Byte
  | .invalidSizeError    => 0x01
  | .unknownChannelError => 0x02
  | .transportError      => 0x03
  | .lengthError         => 0x04
  | .illegalCommandError => 0x05

/-- The 8-bit status code (R77). -/
def Status.code : Status → Byte
  | .ok      => 0x00
  | .error k => k.code

/-- The status of a code; codes `0x06` to `0xFF` are reserved (R77). -/
def Status.ofCode (c : Byte) : Option Status :=
  match c.toNat with
  | 0 => some .ok
  | 1 => some (.error .invalidSizeError)
  | 2 => some (.error .unknownChannelError)
  | 3 => some (.error .transportError)
  | 4 => some (.error .lengthError)
  | 5 => some (.error .illegalCommandError)
  | _ => none

/-- `{ status = OK }` with no other field (R76). -/
def Response.done : Response := ⟨.ok, none, none, none, none, [], []⟩

/-- `{ status = kind }` with no other field (R76, R166 (c)). -/
def Response.failed (k : ErrorKind) : Response := ⟨.error k, none, none, none, none, [], []⟩

/-- The response of `GET_SLICE` (R92). -/
def Response.ofSlice (sl : Slice) : Response := { Response.done with size := some sl.size, base := some sl.base }

/-- The response of `TRANSLATE` (R101). -/
def Response.ofAddr (a : Nat) : Response := { Response.done with addr := some a }

/-- The response of `PLAN` (R115): `nseg`, and `seg[i]` for `i < nseg`. -/
def Response.ofSegments (segs : List Segment) : Response :=
  { Response.done with nseg := some (BitVec.ofNat 2 segs.length), seg := segs }

/-- The response of `RECEIVE` (R125), and with no bytes that of a zero-length transfer (R126 step 2, R134), which for `TRANSMIT` is the
status only (R76). -/
def Response.ofData (data : List Byte) : Response := { Response.done with data := data }

end Sys2Proof.Machine
end

