-- ==== Sys2Proof/Machine/Operands.lean ====
section
/-! DEFINITION. Operands: the fields of the command in progress (30_encoding.md R71, R75), the 16-bit pointer and its two
bytes (20_memory.md R43), the pointer's advance (43_pointer_sync.md R129), host-buffer ranges (00_scope.md R13). -/

namespace Sys2Proof.Machine

/-- The direction of the command in progress: "in every command bit 43 names the direction of the slice consulted" (R73). -/
def State.cmdDir (s : State) : Dir := Command.dir s.cmd

/-- The channel of the command in progress (R71). -/
def State.cmdCh (s : State) : Nat := (Command.ch s.cmd).toNat

/-- The transfer length `L` of the command in progress: `B` (R75). -/
def State.cmdLen (s : State) : Half := Command.fieldB s.cmd

/-- `p = hi * 256 + lo` (R43, R127). -/
def pointerOf (hi lo : Byte) : Half := hi ++ lo

/-- `v[15:8]` (R43, R130). -/
def hiByte (v : Half) : Byte := v.extractLsb' 8 8

/-- `v[7:0]` (R43, R130). -/
def loByte (v : Half) : Byte := v.extractLsb' 0 8

/-- `(p + L) mod 65536` (R129): one addition of the whole length; not masked by the slice size. -/
def advancePointer (p len : Half) : Half := p + len

/-- `buf[pos : pos + n]` (R13): bytes `pos` up to but excluding `pos + n`. -/
def bufRange (buf : List Byte) (pos n : Nat) : List Byte := (buf.drop pos).take n

/-- The value written back by the operation in progress (R129, R135). -/
def State.newPointer (s : State) : Half := advancePointer s.lat.p s.cmdLen

/-- The pointer register pair in `PMem`: `PTR[d][k]` (R29). -/
def State.pointer (s : State) (d : Dir) (k : Nat) : Half :=
  pointerOf (Memory.read s.mem (s.cfg.ptrReg d k)) (Memory.read s.mem (s.cfg.ptrReg d k + 1))

end Sys2Proof.Machine
end

