-- ==== Sys2Proof/Machine/Ops.lean ====
section
/-! DEFINITION. The named operations the meanings share: answering a command, taking an error (60_exceptions.md R166) and
ending an operation, looking a slice up (40_partition_table.md R92), and the bus transactions of the Transport
(44_transport.md R145 to R150). -/

namespace Sys2Proof.Machine

/-- What a step answers. -/
abbrev Result := Host.Outcome State Fault Refusal

/-! ## Ending an operation -/

/-- The response is written (R23); nothing else changes. -/
def respond (r : Response) (s : State) : State := { s with rsp := r }

/-- `ph <- IDLE`. The latches of an operation in flight are "meaningless otherwise" (R25), so when one ends they take a free
value (log entry 6); an operation that never left `IDLE` leaves them alone. -/
def quiesce (s : State) : State :=
  match s.ph with
  | .idle => s
  | _ => { s with ph := .idle, lat := Config.freeLatches s.free, free := s.free + 1 }

/-- TAKING AN ERROR (R166): the operation stops, `ph <- IDLE`, `RSP <- { status = kind }` with no other field. Nothing is
saved and nothing is vectored; the PartitionTable and `PMem` stay. There is no return from it (R168): in `IDLE` the next
command is taken as if the error had not happened. -/
def raise (k : ErrorKind) (s : State) : State := respond (Response.failed k) (quiesce s)

/-- The successful end of an operation in flight: `ph <- IDLE; RSP <- r` (R125, R131). -/
def finish (r : Response) (s : State) : State := respond r (quiesce s)

/-- Go on with the value, or take the error: the `raise` of the pseudocode (R13). -/
def orRaise {α : Type} (x : Except ErrorKind α) (s : State) (go : α → Result) : Result :=
  match x with
  | .ok a => go a
  | .error k => .next (raise k s)

/-! ## The PartitionTable -/

/-- The channel index is outside the configured channel count (R162). -/
def State.unknownChannel (s : State) (ch : Chan) : Bool := s.cfg.n ≤ ch.toNat

/-- `get_slice(d, k)` (R92): the entry, or `UnknownChannelError`. -/
def getSlice (d : Dir) (ch : Chan) (s : State) : Except ErrorKind Slice :=
  if s.unknownChannel ch then .error .unknownChannelError else .ok (s.pt.entry d ch.toNat)

/-- The table is replaced; nothing else changes. -/
def setTable (pt : PartitionTable) (s : State) : State := { s with pt := pt }

/-! ## The Transport -/

/-- The reply stands on the port (R79); nothing else changes. -/
def reply (r : Reply) (s : State) : State := { s with port := { s.port with reply := r } }

/-- `PMem` is replaced; nothing else changes. -/
def setMem (m : Memory) (s : State) : State := { s with mem := m }

/-- A request is put on the port: its write data, and the verdict the Transport will give (R78, R150). -/
def putOnPort (wdata : List Byte) (v : Verdict) (s : State) : State :=
  { s with port := { s.port with wdata := wdata, verdict := v } }

/-- One bracketed read transaction of `n` bytes (R145, R147): the bytes in ascending order, or `fail`; `PMem` is unchanged
either way (R51, R150). Write data that stands on the port beside a read, where R78 has none, is ignored: DESIGN CHOICE, log
entry 31. -/
def busRead (addr n : Nat) (s : State) : Result :=
  if s.cfg.pmemSize < addr + n then .fault (.addressOutsidePMem (addr + n - 1))
  else match s.port.verdict with
    | .ok => .next (reply (.ok (Memory.readBlock s.mem addr n)) s)
    | .fail _ => .next (reply .fail s)

/-- One bracketed write transaction of the `n` bytes of write data (R146, R148): every byte is stored, or `fail` with the
bytes stored that landed (R150). -/
def busWrite (addr n : Nat) (s : State) : Result :=
  if s.port.wdata.length ≠ n then .refused .writeDataNotOfLength
  else if s.cfg.pmemSize < addr + n then .fault (.addressOutsidePMem (addr + n - 1))
  else match s.port.verdict with
    | .ok => .next (reply (.ok []) (setMem (Memory.writeBlock s.mem addr s.port.wdata) s))
    | .fail landed => .next (reply .fail (setMem (Memory.writeLanded s.mem addr s.port.wdata landed) s))

end Sys2Proof.Machine
end

