-- ==== Sys2Proof/Machine/PartitionTable.lean ====
section
/-! DEFINITION. The PartitionTable operations (40_partition_table.md): `SET_SLICE_SIZE`, `GET_SLICE`. -/

namespace Sys2Proof.Machine

/-- `SET_SLICE_SIZE dir, ch, size` (R90): the channel check, then the size check, then the entry's size is set and the
direction laid out again. No check that the new layout fits its region. -/
def execSetSliceSize (dir : Dir) (ch : Chan) (size : Half) (s : State) : Result :=
  if s.unknownChannel ch then .next (raise .unknownChannelError s)
  else if !s.cfg.allowed.contains size.toNat then .next (raise .invalidSizeError s)
  else .next (respond Response.done (setTable (s.pt.setSize s.cfg dir ch.toNat size) s))

/-- `GET_SLICE dir, ch` (R92). -/
def execGetSlice (dir : Dir) (ch : Chan) (s : State) : Result :=
  orRaise (getSlice dir ch s) s fun sl => .next (respond (Response.ofSlice sl) s)

end Sys2Proof.Machine
end

