-- ==== Sys2Proof/Machine/AddressTranslator.lean ====
section
/-! DEFINITION. The AddressTranslator (41_address_translator.md): the function `translate` and the command `TRANSLATE`. -/

namespace Sys2Proof.Machine

/-- `offset = p & (size - 1)` on 16 bits (R100, R110). -/
def offsetOf (sl : Slice) (p : Half) : Half := p &&& (sl.size - 1)

/-- `translate(slice, p) = base + offset` (R100): a natural number, never truncated. -/
def translateAddr (sl : Slice) (p : Half) : Nat := sl.base + (offsetOf sl p).toNat

/-- `TRANSLATE dir, ch, pointer` (R101). -/
def execTranslate (dir : Dir) (ch : Chan) (pointer : Half) (s : State) : Result :=
  orRaise (getSlice dir ch s) s fun sl => .next (respond (Response.ofAddr (translateAddr sl pointer)) s)

end Sys2Proof.Machine
end

