-- ==== Sys2Proof/Machine/TransferPlanner.lean ====
section
/-! DEFINITION. The TransferPlanner (42_transfer_planner.md): the wrap detector, the boundary splitter, the function `plan` and
the command `PLAN`. -/

namespace Sys2Proof.Machine

/-- The wrap detector (R111): `offset + L > size`, over the natural numbers. -/
def wraps (size offset len : Half) : Bool := size.toNat < offset.toNat + len.toNat

/-- The boundary splitter (R112): one segment, or the tail of the slice and then its head. -/
def splitSegments (sl : Slice) (offset len : Half) : List Segment :=
  if wraps sl.size offset len then
    [⟨sl.base + offset.toNat, sl.size - offset⟩, ⟨sl.base, len - (sl.size - offset)⟩]
  else [⟨sl.base + offset.toNat, len⟩]

/-- The function `plan(slice, p, L)` (R113): zero length first (R117), then the length check (R114), then the split. -/
def planSegments (sl : Slice) (p len : Half) : Except ErrorKind (List Segment) :=
  if len = 0#16 then .ok []
  else if sl.size.toNat < len.toNat then .error .lengthError
  else .ok (splitSegments sl (offsetOf sl p) len)

/-- `PLAN dir, ch, pointer, length` (R115). -/
def execPlan (dir : Dir) (ch : Chan) (pointer length : Half) (s : State) : Result :=
  orRaise (getSlice dir ch s) s fun sl =>
    orRaise (planSegments sl pointer length) s fun segs => .next (respond (Response.ofSegments segs) s)

end Sys2Proof.Machine
end

