-- ==== Sys2Proof/Machine/PointerSync.lean ====
section
/-! DEFINITION. PointerSync (43_pointer_sync.md): the commands `RECEIVE` and `TRANSMIT`. A command that passes the checks of R126
moves the sequencer to `RD_HI`; the primitives and the phases after it are Machine/Sequencer.lean (R135). -/

namespace Sys2Proof.Machine

/-- `ph <- RD_HI`, `lat.slice` and `lat.buf` latched (R135, R25). The other latches are written before they are read. -/
def startTransfer (sl : Slice) (buf : List Byte) (s : State) : State :=
  { s with ph := .rdHi, lat := { s.lat with slice := sl, buf := buf } }

/-- The checks of R126, in its order, and the start of the sequence. A zero length answers OK with no byte of data, in both directions
(R126 step 2, R134, R76; log entry 13). `buf` is the host buffer at the start (R25). -/
def beginTransfer (d : Dir) (ch : Chan) (len : Half) (buf : List Byte) (s : State) : Result :=
  orRaise (getSlice d ch s) s fun sl =>
    if len = 0#16 then .next (respond (Response.ofData []) s)
    else if sl.size.toNat < len.toNat then .next (raise .lengthError s)
    else if !sliceFits s.cfg d sl then .refused .sliceDoesNotFit
    else .next (startTransfer sl buf s)

/-- `RECEIVE ch, length` (R125). -/
def execReceive (ch : Chan) (length : Half) (s : State) : Result :=
  beginTransfer .rx ch length [] s

/-- `TRANSMIT ch, length, [bytes]` (R131): `buf <- PAY`. -/
def execTransmit (ch : Chan) (length : Half) (s : State) : Result :=
  beginTransfer .tx ch length s.pay s

end Sys2Proof.Machine
end

