-- ==== Sys2Proof/Machine/Transport.lean ====
section
/-! DEFINITION. The Transport primitives (44_transport.md): `RD_REG`, `WR_REG`, `RD_BLK`, `WR_BLK`. Each is one atomic step on `PMem`
(R149). Addresses are absolute (R151) and ascend inside a block; nothing wraps inside a primitive (R147). -/

namespace Sys2Proof.Machine

/-- `RD_REG addr` (R145). -/
def execRdReg (addr : Nat) (s : State) : Result := busRead addr 1 s

/-- `WR_REG addr, byte` (R146). -/
def execWrReg (addr : Nat) (s : State) : Result := busWrite addr 1 s

/-- `RD_BLK addr, n` (R147). A length outside `1 .. 32768` is performed as the pseudocode reads (log entry 14). -/
def execRdBlk (addr : Nat) (len : Half) (s : State) : Result := busRead addr len.toNat s

/-- `WR_BLK addr, bytes` (R148). A length outside `1 .. 32768` is performed as the pseudocode reads (log entry 14). -/
def execWrBlk (addr : Nat) (len : Half) (s : State) : Result := busWrite addr len.toNat s

end Sys2Proof.Machine
end

