-- ==== Sys2Proof/Machine/Dispatch.lean ====
section
/-! DEFINITION. One arm per instruction: the meaning it calls. -/

namespace Sys2Proof.Machine

def exec (i : Instr) (s : State) : Host.Outcome State Fault Refusal :=
  match i with
  | .setSliceSize dir ch size => Sys2Proof.Machine.execSetSliceSize dir ch size s
  | .getSlice dir ch => Sys2Proof.Machine.execGetSlice dir ch s
  | .translate dir ch pointer => Sys2Proof.Machine.execTranslate dir ch pointer s
  | .plan dir ch pointer length => Sys2Proof.Machine.execPlan dir ch pointer length s
  | .receive ch length => Sys2Proof.Machine.execReceive ch length s
  | .transmit ch length => Sys2Proof.Machine.execTransmit ch length s
  | .rdReg addr => Sys2Proof.Machine.execRdReg addr s
  | .wrReg addr => Sys2Proof.Machine.execWrReg addr s
  | .rdBlk addr len => Sys2Proof.Machine.execRdBlk addr len s
  | .wrBlk addr len => Sys2Proof.Machine.execWrBlk addr len s

end Sys2Proof.Machine
end

