-- ==== Sys2Proof/Machine/Sequencer.lean ====
section
/-! DEFINITION. The sequencer of `RECEIVE` and `TRANSMIT` (43_pointer_sync.md R127 to R135): which primitive each phase has
outstanding, and what CBAT does with the reply. -/

namespace Sys2Proof.Machine

/-- The block primitive of one segment (R128): a read into the buffer, or a write of the bytes of the buffer at `pos`. -/
def segmentRequest (d : Dir) (buf : List Byte) (pos : Nat) (sg : Segment) : Instr × List Byte :=
  match d with
  | .rx => (.rdBlk sg.addr sg.len, [])
  | .tx => (.wrBlk sg.addr sg.len, bufRange buf pos sg.len.toNat)

/-- The primitive CBAT has outstanding and its write data (R135, column "action"). `IDLE` has none; the segment phases have one
for every segment the plan has. -/
def requestOf (s : State) : Option (Instr × List Byte) :=
  match s.ph with
  | .idle => none
  | .rdHi => some (.rdReg (s.cfg.ptrReg s.cmdDir s.cmdCh), [])
  | .rdLo => some (.rdReg (s.cfg.ptrReg s.cmdDir s.cmdCh + 1), [])
  | .seg1 => match s.lat.segs with
    | [] => none
    | sg :: _ => some (segmentRequest s.cmdDir s.lat.buf 0 sg)
  | .seg2 => match s.lat.segs with
    | sg :: sg' :: _ => some (segmentRequest s.cmdDir s.lat.buf sg.len.toNat sg')
    | _ => none
  | .wrHi => some (.wrReg (s.cfg.ptrReg s.cmdDir s.cmdCh), [hiByte s.newPointer])
  | .wrLo => some (.wrReg (s.cfg.ptrReg s.cmdDir s.cmdCh + 1), [loByte s.newPointer])

/-- The phase moves and the latches change; nothing else does. -/
def moveTo (ph : Phase) (lat : Latches) (s : State) : State := { s with ph := ph, lat := lat }

/-- The buffer after a segment (R128, R25): a `RECEIVE` appends the bytes read ("at the matching offset, in segment order"). -/
def bufAfter (d : Dir) (buf data : List Byte) : List Byte :=
  match d with
  | .rx => buf ++ data
  | .tx => buf

/-- The response at the successful end (R135): `OK`, with `data` for `RECEIVE`. -/
def doneResponse (d : Dir) (buf : List Byte) : Response :=
  match d with
  | .rx => Response.ofData buf
  | .tx => Response.done

/-- CBAT takes an `ok` reply with these bytes (R135, rows "reply ok"). -/
def advanceOk (data : List Byte) (s : State) : State :=
  match s.ph with
  | .idle => s
  | .rdHi => moveTo .rdLo { s.lat with hi := data.headD 0 } s
  | .rdLo =>
    match planSegments s.lat.slice (pointerOf s.lat.hi (data.headD 0)) s.cmdLen with
    | .ok segs => moveTo .seg1 { s.lat with p := pointerOf s.lat.hi (data.headD 0), segs := segs } s
    | .error k => raise k s
  | .seg1 =>
    moveTo (if s.lat.segs.length = 2 then .seg2 else .wrHi) { s.lat with buf := bufAfter s.cmdDir s.lat.buf data } s
  | .seg2 => moveTo .wrHi { s.lat with buf := bufAfter s.cmdDir s.lat.buf data } s
  | .wrHi => moveTo .wrLo s.lat s
  | .wrLo => finish (doneResponse s.cmdDir s.lat.buf) s

/-- CBAT takes the reply on the port (R135): a `fail` in any of the six phases ends the operation with `TransportError` and nothing
further is issued (R132, R133). -/
def advance (s : State) : State :=
  match s.port.reply with
  | .ok data => advanceOk data s
  | .fail => raise .transportError s

/-- The Transport performs CBAT's outstanding primitive with verdict `v` and CBAT takes the reply (R54, R135). With none
outstanding nothing happens (log entries 22, 30). -/
def transportTurn (v : Verdict) (s : State) : Result :=
  match requestOf s with
  | none => .next s
  | some (i, wdata) =>
    match exec i (putOnPort wdata v s) with
    | .next s' => .next (advance s')
    | .fault f => .fault f
    | .refused r => .refused r

end Sys2Proof.Machine
end

