-- ==== Sys2Proof/Machine/Environment.lean ====
section
/-! DEFINITION. The turns of the agents (00_scope.md R5): CBAT accepting a command (60_exceptions.md R173), the host presenting one, another bus
master's primitive, the peripheral's changes, the reset input (70_reset_and_hazards.md R185). -/

namespace Sys2Proof.Machine

/-- The command is latched (R23); nothing else changes. -/
def latchCommand (c : Presented) (s : State) : State := { s with cmd := c.word, pay := c.pay }

/-- CBAT accepts a command: it is decoded and run; an illegal word takes `IllegalCommandError` (R74, R165). -/
def accept (c : Presented) (s : State) : Result :=
  match decodeCommand c.word with
  | .ok i => exec i (latchCommand c s)
  | .error _ => .next (raise .illegalCommandError (latchCommand c s))

/-- CBAT's turn: a command is accepted only in `IDLE` (R173); in any other phase CBAT waits for the reply (R135, R136). -/
def cbatTurn (s : State) : Result :=
  match s.ph, s.pending with
  | .idle, c :: rest => accept c { s with pending := rest }
  | _, _ => .next s

/-- The payload has the length the word says (R75, D28). -/
def Presented.wellFormed (c : Presented) : Bool := c.pay.length == Command.payloadLength c.word

/-- The host presents a command: it is held off, not lost, not refused (R173), behind those presented before it. One whose payload
has another length "cannot be formed" (D28). -/
def presentTurn (c : Presented) (s : State) : Result :=
  if c.wellFormed then .next { s with pending := s.pending ++ [c] } else .refused .payloadNotOfLengthB

/-- Another bus master's primitive (R5, R152): one bracketed transaction; CBAT is not involved. A read that comes with write data,
where R78 has none, is performed, with the data put on the port and ignored: DESIGN CHOICE, log entry 31. -/
def masterTurn (request : Nat) (wdata : List Byte) (v : Verdict) (s : State) : Result :=
  match decodeRequest s.cfg.addrW request with
  | .ok i => exec i (putOnPort wdata v s)
  | .error _ => .refused .illegalRequest

/-- The peripheral changes `PMem` (R28, D25). -/
def peripheralTurn (writes : List (Nat × Byte)) (s : State) : Result :=
  .next (setMem (Memory.pokeAll s.cfg.pmemSize s.mem writes) s)

/-- What the reset input does to CBAT (R34, R185): the table of reset, `IDLE`, no primitive, no response; `PMem` is not touched.
`CMD`, `PAY`, `RSP`, `lat.*` take free values (U25, log entry 6). Commands held off stay (log entry 11). -/
def resetCbat (s : State) : State :=
  { s with
    pt := PartitionTable.reset s.cfg
    ph := .idle
    cmd := Config.freeCommand s.free
    pay := Config.freePayload s.free
    rsp := Config.freeResponse s.free
    lat := Config.freeLatches s.free
    free := s.free + 1 }

/-- The reset input (R185, U26): the primitive outstanding, if any, completes or not, so that of a write the bytes marked in `landed`
are stored, as after a failure in that phase (log entry 20); then CBAT is reset. WHEN those bytes land the spec leaves open: they land in this
step and never later: DESIGN CHOICE, log entry 32. -/
def resetTurn (landed : List Bool) (s : State) : Result :=
  match requestOf s with
  | none => .next (resetCbat s)
  | some (i, wdata) =>
    match exec i (putOnPort wdata (.fail landed) s) with
    | .next s' => .next (resetCbat s')
    | .fault f => .fault f
    | .refused r => .refused r

/-- One turn of one agent. -/
def takeTurn (t : Turn) (s : State) : Result :=
  match t with
  | .cbat => cbatTurn s
  | .transport v => transportTurn v s
  | .present c => presentTurn c s
  | .master request wdata v => masterTurn request wdata v s
  | .peripheral writes => peripheralTurn writes s
  | .reset landed => resetTurn landed s

/-- The next turn of the schedule, taken out of it; with none listed it is CBAT's turn. -/
def nextTurn (s : State) : Result :=
  match s.inputs with
  | [] => cbatTurn s
  | t :: ts => takeTurn t { s with inputs := ts }

/-- The command of a table word, ready to be accepted: `ph` is `IDLE`, it is the oldest command held off, its payload is the zeros that
stand above the word, and it is CBAT's turn. Log entry 10. -/
def placeCommand (w : Command) (s : State) : State :=
  { s with
    ph := .idle
    pending := ⟨w, List.replicate (Command.payloadLength w) 0⟩ :: s.pending
    inputs := .cbat :: s.inputs }

/-- The write data of a table word on the Transport port: the zeros that stand above it. -/
def zeroWriteData (addrW w : Nat) : List Byte :=
  match decodeRequest addrW w with
  | .ok i => List.replicate i.writeDataLength 0
  | .error _ => []

/-- The Transport request of a table word, next on the bus: another master's, which the Transport performs. Log entry 10. -/
def placeRequest (w : Nat) (s : State) : State :=
  { s with inputs := .master w (zeroWriteData s.cfg.addrW w) .ok :: s.inputs }

end Sys2Proof.Machine
end

