-- ==== Sys2Proof/Machine/Step.lean ====
section
/-! DEFINITION. One step of the machine, and where a word of the opcode table is placed so that the next step runs it. -/

namespace Sys2Proof.Machine

/-- One step: one turn of one agent. The rules are stated for well-formed configurations only (R10, U24; log entry 18). -/
def step (s : State) : Host.Outcome State Fault Refusal :=
  if s.cfg.wellFormed then nextTurn s else .refused .illFormedConfiguration

/-- `s` with the instruction of a table word placed where the next step takes it: a 48-bit word is a command of the host, a 34-bit
word (five whole bytes) a request on the Transport port. Log entries 10 and 24. -/
def State.withFetchWord (s : State) (nbits w : Nat) : State :=
  if nbits = 48 then placeCommand (BitVec.ofNat 48 w) s else placeRequest w s

end Sys2Proof.Machine
end

