-- ==== Sys2Proof/Machine/Framing.lean ====
section
/-! DEFINITION. The wire frames of one primitive, as far as the spec gives them (30_encoding.md R80; 44_transport.md R149, R153): how many
frames, their header bytes, and which bytes each carries. Below the Transport port: no step reads this. Header layouts are not
specified (U23). -/

namespace Sys2Proof.Machine

/-- One wire frame: the bytes of its header, the address of its first data byte, the number of its data bytes. -/
structure Frame where
  headerBytes : Nat
  addr        : Nat
  dataBytes   : Nat
  deriving DecidableEq, Repr, Inhabited

/-- Variant `A` (R80): every data byte in a frame of its own, with a 3-byte header, for addresses `a, a+1, ..., a+n-1`. -/
def framesA (addr : Nat) : Nat → List Frame
  | 0 => []
  | n + 1 => ⟨3, addr, 1⟩ :: framesA (addr + 1) n

/-- The frames of a primitive of `n` bytes at `addr` (R80). Variant `B` is one frame with a 4-byte header, for at most `MAX_BLOCK`
bytes; what a variant-`B` Transport does with a longer block "the source does not say" (R149): `none`. Log entry 26. -/
def wireFrames (f : Framing) (maxBlock addr n : Nat) : Option (List Frame) :=
  match f with
  | .A => some (framesA addr n)
  | .B => if n ≤ maxBlock then some [⟨4, addr, n⟩] else none

/-- The addresses a frame carries, ascending. -/
def Frame.addresses (f : Frame) : List Nat := List.range' f.addr f.dataBytes

end Sys2Proof.Machine
end

