-- ==== Sys2Proof/Safety.lean ====
section
/-! DEFINITION. What a sound state is, and the words the statements are written in: the invariant of the machine, which bytes an operation may
touch, the primitives a run issues. -/

namespace Sys2Proof.Machine

/-! ## The invariant -/

/-- The PartitionTable invariant (R26) for one direction: `N` entries, every size in `ALLOWED`, and the bases as `recompute` lays them. -/
def entriesSound (c : Config) (d : Dir) (es : List Slice) : Bool :=
  es.length == c.n && es.all (fun e => c.allowed.contains e.size.toNat) && es == layout (c.regionBase d) es

/-- The PartitionTable invariant (R26), both directions. -/
def tableSound (s : State) : Bool := entriesSound s.cfg .rx s.pt.rx && entriesSound s.cfg .tx s.pt.tx

/-- `PMem` is in canonical form and lists addresses of `PMem` only. -/
def memSound (s : State) : Bool := Memory.wf s.mem && Memory.below s.cfg.pmemSize s.mem

/-- The transfer command of a direction. -/
def transferInstr (d : Dir) (ch : Chan) (len : Half) : Instr :=
  match d with
  | .rx => .receive ch len
  | .tx => .transmit ch len

/-- What holds of the command in progress in every busy phase: `CMD` is a `RECEIVE` or `TRANSMIT` that passed R126, and `lat.slice` is the
entry of its channel (R25, R59). -/
def transferSound (s : State) : Bool :=
  (decodeCommand s.cmd).toOption == some (transferInstr s.cmdDir (Command.ch s.cmd) s.cmdLen)
  && !s.unknownChannel (Command.ch s.cmd)
  && s.lat.slice == s.pt.entry s.cmdDir s.cmdCh
  && s.cmdLen != 0#16 && s.cmdLen.toNat ≤ s.lat.slice.size.toNat
  && sliceFits s.cfg s.cmdDir s.lat.slice

/-- `lat.segs` is the plan of `lat.slice`, `lat.p` and the length (R25). -/
def planSound (s : State) : Bool := (planSegments s.lat.slice s.lat.p s.cmdLen).toOption == some s.lat.segs

/-- `lat.buf` (R25): for `TRANSMIT` a copy of `PAY`, of `CMD.B` bytes; for `RECEIVE` as many bytes as have been read. -/
def bufSound (s : State) (got : Nat) : Bool :=
  match s.cmdDir with
  | .rx => s.lat.buf.length == got
  | .tx => s.lat.buf == s.pay && s.pay.length == s.cmdLen.toNat

/-- The latches are as the phase says (R25, R135). -/
def flightSound (s : State) : Bool :=
  match s.ph with
  | .idle => true
  | .rdHi => transferSound s && bufSound s 0
  | .rdLo => transferSound s && bufSound s 0
  | .seg1 => transferSound s && planSound s && bufSound s 0
  | .seg2 => transferSound s && planSound s && s.lat.segs.length == 2
      && bufSound s (s.lat.segs.headD ⟨0, 0⟩).len.toNat
  | .wrHi => transferSound s && planSound s && bufSound s s.cmdLen.toNat
  | .wrLo => transferSound s && planSound s && bufSound s s.cmdLen.toNat

/-- The invariant of the machine. -/
abbrev State.Inv (s : State) : Prop :=
  s.cfg.wellFormed = true ∧ tableSound s = true ∧ memSound s = true ∧ flightSound s = true
    ∧ s.pending.all Presented.wellFormed = true

/-- The formulas of the PartitionTable invariant (R26), as the rule writes them: for each direction, `N` entries, every size in `ALLOWED`,
and `PT.base[d][k] = REGION_BASE[d] + sum of PT.size[d][0..k-1]`. -/
def tableFormula (s : State) : Prop :=
  ∀ d : Dir, (s.pt.entries d).length = s.cfg.n ∧
    ∀ k < s.cfg.n, (s.pt.entry d k).size.toNat ∈ s.cfg.allowed
      ∧ (s.pt.entry d k).base = s.cfg.regionBase d + sizesBefore (s.pt.entries d) k

/-! ## Words of the statements -/

/-- `k` steps of the machine, stopping at the first fault or refusal. -/
def runSteps (k : Nat) (s : State) : Result := Host.Core.run Sys2Proof.core k s

/-- The byte the write primitive of this request would store at address `a`; none where it stores nothing there. -/
def storedByte (request : Option (Instr × List Byte)) (a : Nat) : Option Byte :=
  match request with
  | some (.wrReg x, wdata) => if x ≤ a then wdata[a - x]? else none
  | some (.wrBlk x _, wdata) => if x ≤ a then wdata[a - x]? else none
  | _ => none

/-- Address `a` is one of the two bytes of the pointer register pair (R29). -/
abbrev inPair (c : Config) (d : Dir) (k : Nat) (a : Nat) : Prop := a = c.ptrReg d k ∨ a = c.ptrReg d k + 1

/-- Address `a` is a byte of the slice (R30). -/
abbrev inSlice (sl : Slice) (a : Nat) : Prop := sl.base ≤ a ∧ a < sl.base + sl.size.toNat

/-- Address `a` is one of the `n` bytes from `base` on. -/
abbrev inBlock (base n a : Nat) : Prop := base ≤ a ∧ a < base + n

/-- The addresses of a segment, ascending (R44). -/
def Segment.addresses (sg : Segment) : List Nat := List.range' sg.addr sg.len.toNat

/-- The addresses of a plan, in the order the bytes move (R44, R128). -/
def planAddresses (segs : List Segment) : List Nat := segs.flatMap Segment.addresses

/-- The address of byte `i` of a transfer at pointer `p`: `translate(slice, (p + i) mod 65536)` (R116 (f), R137). -/
def byteAddr (sl : Slice) (p : Half) (i : Nat) : Nat := translateAddr sl (p + BitVec.ofNat 16 i)

/-- The number of segments of a transfer that is not empty. -/
def segmentCount (sl : Slice) (p len : Half) : Nat := (splitSegments sl (offsetOf sl p) len).length

/-- The answer with the state replaced. -/
def mapNext (f : State → State) (r : Result) : Result :=
  match r with
  | .next s => .next (f s)
  | .fault x => .fault x
  | .refused x => .refused x

/-- What a primitive answers is a next state with a property. -/
def nextAnd (r : Result) (p : State → Bool) : Bool :=
  match r with
  | .next s => p s
  | .fault _ => false
  | .refused _ => false

/-- `n` turns in which the Transport performs CBAT's outstanding primitive and replies ok. -/
def okTurns (n : Nat) : List Turn := List.replicate n (.transport .ok)

/-- The primitives CBAT has performed for it in a run of `k` steps, in order, with their write data. -/
def primitivesOf : Nat → State → List (Instr × List Byte)
  | 0, _ => []
  | k + 1, s =>
    (match s.inputs with
      | .transport _ :: _ => (requestOf s).toList
      | _ => [])
    ++ (match step s with
      | .next t => primitivesOf k t
      | _ => [])

/-- The primitives of a list performed one after another, each with verdict ok, and the bytes of their replies joined: `run_segments`
(R128) seen from the bus. -/
def performAll : List (Instr × List Byte) → State → Host.Outcome (State × List Byte) Fault Refusal
  | [], s => .next (s, [])
  | (i, wdata) :: rest, s =>
    match exec i (putOnPort wdata .ok s) with
    | .next t =>
      match performAll rest t with
      | .next (u, data) => .next (u, (match t.port.reply with | .ok d => d | .fail => []) ++ data)
      | .fault x => .fault x
      | .refused x => .refused x
    | .fault x => .fault x
    | .refused x => .refused x

/-- The block primitives of a plan (R128): the writes from a buffer, or the reads. `pos` is the place in the buffer of the first. -/
def blockRequests (d : Dir) (buf : List Byte) (pos : Nat) : List Segment → List (Instr × List Byte)
  | [] => []
  | sg :: segs => segmentRequest d buf pos sg :: blockRequests d buf (pos + sg.len.toNat) segs

/-- The instruction is one of the four Transport primitives (R78), no command. -/
abbrev isTransportPrimitive : Instr → Prop
  | .rdReg _ | .wrReg _ | .rdBlk _ _ | .wrBlk _ _ => True
  | _ => False

/-- The in-flight latches that have been written by phase `ph` are equal (R25, R135). -/
abbrev latchesAgree (ph : Phase) (l l' : Latches) : Prop :=
  match ph with
  | .idle => True
  | .rdHi => l.slice = l'.slice ∧ l.buf = l'.buf
  | .rdLo => l.slice = l'.slice ∧ l.buf = l'.buf ∧ l.hi = l'.hi
  | _ => l.slice = l'.slice ∧ l.buf = l'.buf ∧ l.p = l'.p ∧ l.segs = l'.segs

/-- Two states that differ only in latches that are not yet written or no longer mean anything: `RSP`, which CBAT never reads (R23); in
`IDLE` also `CMD`, `PAY` and all of `lat.*`; in a busy phase the `lat.*` it has not written. -/
abbrev agreeButUnwritten (s s' : State) : Prop :=
  s' = { s with cmd := s'.cmd, pay := s'.pay, rsp := s'.rsp, lat := s'.lat }
    ∧ (s.ph ≠ .idle → s'.cmd = s.cmd ∧ s'.pay = s.pay) ∧ latchesAgree s.ph s.lat s'.lat

/-- Two answers that differ in no more. -/
abbrev answersAgree : Result → Result → Prop
  | .next t, .next t' => agreeButUnwritten t t'
  | .fault x, .fault x' => x = x'
  | .refused x, .refused x' => x = x'
  | _, _ => False

/-- Neither the Transport replies to CBAT in this turn, nor is CBAT reset. -/
def Turn.givesNoReply : Turn → Bool
  | .cbat => true
  | .transport _ => false
  | .present _ => true
  | .master _ _ _ => true
  | .peripheral _ => true
  | .reset _ => false

/-- The value a run of bytes stands for, most-significant byte first (R43, R45). -/
def valueMsbFirst (bytes : List Byte) : Nat := bytes.foldl (fun acc b => acc * 256 + b.toNat) 0

/-- The state with another framing variant and another bounded maximum (R8, R153). -/
def withFraming (f : Framing) (maxBlock : Nat) (s : State) : State :=
  { s with cfg := { s.cfg with framing := f, maxBlock := maxBlock } }

end Sys2Proof.Machine
end

