-- ==== Sys2Proof/Certificates/Slice0/Obligations.lean ====
section
/-! DEFINITION. The statements for the provers. Each docstring names the rule of spec/ it formalises, or says what it rests on. -/

open Sys2Proof Sys2Proof.Machine

/-! ## Encodings -/

/-- R73, R78: for every well-formed instruction and every address width, decoding its encoding gives it back. -/
def Obligations.DecodeOfEncodeIsTheInstruction : Prop :=
  ∀ (addrW : Nat) (i : Instr), i.wellFormed addrW = true → decode addrW (encode addrW i) = .ok i

/-- R73, R74, R78: every word has one meaning: a word that decodes is the encoding of what it decodes to. -/
def Obligations.EncodeOfDecodeIsTheWord : Prop :=
  ∀ (addrW : Nat) (e : Encoding) (i : Instr), decode addrW e = .ok i → encode addrW i = e

/-- R73, R74: a command word decodes to the command of a row exactly when `w & mask = match` for that row, whatever the row; no word
is of two rows; a word of no row is illegal. -/
def Obligations.CommandDecoderFollowsTheOpcodeRows : Prop :=
  (∀ (w : Command), ∀ r ∈ commandRows,
    (r.selects w.toNat = true ↔ ∃ i, decodeCommand w = .ok i ∧ i.mnemonic = r.mnemonic))
  ∧ (∀ (w : Command), (∀ r ∈ commandRows, r.selects w.toNat = false) ↔ ∃ e, decodeCommand w = .error e)
  ∧ (∀ (w : Command), ∀ r ∈ commandRows, ∀ r' ∈ commandRows,
      r.selects w.toNat = true → r'.selects w.toNat = true → r = r')

/-- R78, at `ADDR_W = 16`: a 34-bit request decodes to the primitive of a row exactly when `w & mask = match` for that row. That a block
request decodes also with a `len` outside `1 .. 32768` is the model's choice, log entry 14. -/
def Obligations.RequestDecoderFollowsTheOpcodeRows : Prop :=
  ∀ w < 2 ^ 34, ∀ r ∈ requestRows,
    (r.selects w = true ↔ ∃ i, decodeRequest 16 w = .ok i ∧ i.mnemonic = r.mnemonic)

/-- R45, R81: a command word is carried as six bytes whose value, read most-significant byte first, is the word; and, followed by its payload and
by other bytes, it is read back whole: 48 bits, `B` payload bytes after a `TRANSMIT` and none after any other, and the rest left alone. -/
def Obligations.CommandBytesAreReadBackWhole : Prop :=
  (∀ w : Command, (Command.toBytes w).length = 6 ∧ valueMsbFirst (Command.toBytes w) = w.toNat)
  ∧ ∀ (w : Command) (i : Instr) (pay rest : List Byte), decodeCommand w = .ok i → pay.length = i.payloadLength →
    decodeBytes (Command.toBytes w ++ pay ++ rest) = .ok (i, pay, rest)

/-- 95_test_vectors.md 2.5: words written out from the encodings of the spec. -/
def Obligations.SampleWordsDecodeAsTheSpecSays : Prop :=
  decodeCommand 0x100010000000 = .ok (.setSliceSize .rx 0 4096)
  ∧ decodeCommand 0x200200000000 = .ok (.getSlice .rx 2)
  ∧ decodeCommand 0x380312340000 = .ok (.translate .tx 3 0x1234)
  ∧ decodeCommand 0x4000FFFE0004 = .ok (.plan .rx 0 0xFFFE 4)
  ∧ decodeCommand 0x500200000006 = .ok (.receive 2 6)
  ∧ decodeCommand 0x680100000003 = .ok (.transmit 1 3)
  ∧ decodeRequest 16 0x004280001 = .ok (.rdReg 0x0428)
  ∧ decodeRequest 16 0x104290001 = .ok (.wrReg 0x0429)
  ∧ decodeRequest 16 0x267FE0002 = .ok (.rdBlk 0x67FE 2)
  ∧ decodeRequest 16 0x344000002 = .ok (.wrBlk 0x4400 2)

/-- R77: the status codes, and that no other code is ever a status. -/
def Obligations.StatusCodesAreTheTable : Prop :=
  Status.code .ok = 0x00
  ∧ Status.code (.error .invalidSizeError) = 0x01
  ∧ Status.code (.error .unknownChannelError) = 0x02
  ∧ Status.code (.error .transportError) = 0x03
  ∧ Status.code (.error .lengthError) = 0x04
  ∧ Status.code (.error .illegalCommandError) = 0x05
  ∧ (∀ c : Byte, ∀ st : Status, Status.ofCode c = some st ↔ st.code = c)
  ∧ (∀ c : Byte, 0x06 ≤ c.toNat → ∀ st : Status, st.code ≠ c)

/-- R43, R129: the pointer is big-endian, `p = hi * 256 + lo`, what is written back is `v[15:8]` and `v[7:0]`; and the pointer advances by the whole length modulo 65536, not masked
by the slice size. -/
def Obligations.PointerIsBigEndianAndAdvancesModulo65536 : Prop :=
  (∀ hi lo : Byte, (pointerOf hi lo).toNat = hi.toNat * 256 + lo.toNat)
  ∧ (∀ v : Half, (hiByte v).toNat = v.toNat / 256 ∧ (loByte v).toNat = v.toNat % 256)
  ∧ (∀ v : Half, pointerOf (hiByte v) (loByte v) = v)
  ∧ (∀ (s : State) (d : Dir) (k : Nat), (s.pointer d k).toNat
      = (Memory.read s.mem (s.cfg.ptrReg d k)).toNat * 256 + (Memory.read s.mem (s.cfg.ptrReg d k + 1)).toNat)
  ∧ (∀ s : State, s.newPointer.toNat = (s.lat.p.toNat + s.cmdLen.toNat) % 65536)

/-! ## Reset and the invariant -/

/-- The invariant holds at `State.reset`. -/
def Obligations.ResetStateMeetsTheInvariant : Prop := State.reset.Inv

/-- R34 under `CFG_REF` (R11): the table and the phase right after reset. (`CMD`, `PAY`, `RSP`, `lat.*`, which R34 leaves unspecified, are not
spoken of.) -/
def Obligations.ResetTableIsTheDefaultTable : Prop :=
  State.reset.ph = .idle
  ∧ (∀ d : Dir, ∀ k < 4, (State.reset.pt.entry d k).size = 1024
      ∧ (State.reset.pt.entry d k).base = State.reset.cfg.regionBase d + k * 1024)
  ∧ State.reset.pt.rx.map Slice.base = [0x6000, 0x6400, 0x6800, 0x6C00]
  ∧ State.reset.pt.tx.map Slice.base = [0x4000, 0x4400, 0x4800, 0x4C00]

/-- The invariant is kept by every step, whichever agent moves. -/
def Obligations.EveryStepKeepsTheInvariant : Prop :=
  ∀ s t : State, s.Inv → step s = .next t → t.Inv

/-- R33, R186: no step changes the configuration. -/
def Obligations.NoStepChangesTheConfiguration : Prop :=
  ∀ s t : State, step s = .next t → t.cfg = s.cfg

/-- R26: the PartitionTable invariant, as the rule's formulas write it, holds after reset and after every operation. -/
def Obligations.TableInvariantHoldsAfterResetAndEveryStep : Prop :=
  tableFormula State.reset ∧ ∀ s t : State, s.Inv → step s = .next t → tableFormula t

/-- R27, which the spec marks as its own inference ([derived: from rule R26 and R10]): slices of one direction lie end to end and do not overlap; one that fits makes every earlier one fit; fitting slices of the two directions meet
neither each other nor a pointer register; and that a slice fits is not guaranteed. -/
def Obligations.SlicesLieEndToEndAndFittingSlicesAreApart : Prop :=
  (∀ s : State, s.Inv →
    (∀ (d : Dir) (k : Nat), k + 1 < s.cfg.n →
      (s.pt.entry d (k + 1)).base = (s.pt.entry d k).base + (s.pt.entry d k).size.toNat)
    ∧ (∀ (d : Dir) (j k a : Nat), j < k → k < s.cfg.n →
        ¬ (inSlice (s.pt.entry d j) a ∧ inSlice (s.pt.entry d k) a))
    ∧ (∀ (d : Dir) (j k : Nat), j < k → k < s.cfg.n →
        sliceFits s.cfg d (s.pt.entry d k) = true → sliceFits s.cfg d (s.pt.entry d j) = true)
    ∧ (∀ j k a : Nat, j < s.cfg.n → k < s.cfg.n →
        sliceFits s.cfg .rx (s.pt.entry .rx j) = true → sliceFits s.cfg .tx (s.pt.entry .tx k) = true →
        ¬ (inSlice (s.pt.entry .rx j) a ∧ inSlice (s.pt.entry .tx k) a)
        ∧ ∀ (d : Dir) (c : Nat), c < s.cfg.n → inPair s.cfg d c a →
          ¬ inSlice (s.pt.entry .rx j) a ∧ ¬ inSlice (s.pt.entry .tx k) a))
  ∧ ∃ s : State, s.Inv ∧ ∃ d : Dir, ∃ k < s.cfg.n, sliceFits s.cfg d (s.pt.entry d k) = false

/-- R185, U26: the reset input, at any moment: the table of reset, `IDLE`; the configuration, the commands held off and every byte of `PMem` as
they were, but for bytes of an outstanding write, each old or new. What the latches then hold is the model's free value (log entry 6) and is not
spoken of; that the held commands stay is the model's choice (log entry 11); so is that bytes of the outstanding write land in the reset step itself (log entry 32). -/
def Obligations.ResetInputRestoresTheDefaultTable : Prop :=
  ∀ (s : State) (landed : List Bool) (ts : List Turn), s.Inv → s.inputs = .reset landed :: ts →
    ∃ t, step s = .next t ∧ t.ph = .idle ∧ t.cfg = s.cfg ∧ t.inputs = ts ∧ t.pending = s.pending
      ∧ (∀ d : Dir, (t.pt.entries d).length = s.cfg.n
          ∧ ∀ k < s.cfg.n, (t.pt.entry d k).size.toNat = s.cfg.defaultSize
            ∧ (t.pt.entry d k).base = s.cfg.regionBase d + k * s.cfg.defaultSize)
      ∧ (s.ph = .idle ∨ s.ph = .rdHi ∨ s.ph = .rdLo → t.mem = s.mem)
      ∧ (∀ a, Memory.read t.mem a = Memory.read s.mem a ∨ some (Memory.read t.mem a) = storedByte (requestOf s) a)

/-! ## The PartitionTable operations -/

/-- R90, R91: `SET_SLICE_SIZE` with a known channel and an allowed size: status OK; the entry's size is the new one, every other size stays, every base of the
direction is laid out from scratch by the `0..k-1` sum; the other direction and everything else stay. No check that the layout fits. -/
def Obligations.SetSliceSizeSetsTheSizeAndLaysTheDirectionOut : Prop :=
  ∀ (s : State) (d : Dir) (ch : Chan) (size : Half), ch.toNat < s.cfg.n → size.toNat ∈ s.cfg.allowed →
    ∃ pt, exec (.setSliceSize d ch size) s = .next { s with pt := pt, rsp := Response.done }
      ∧ (∀ d', d' ≠ d → pt.entries d' = s.pt.entries d')
      ∧ (pt.entries d).length = (s.pt.entries d).length
      ∧ ∀ k < (s.pt.entries d).length,
          (pt.entry d k).size = (if k = ch.toNat then size else (s.pt.entry d k).size)
          ∧ (pt.entry d k).base = s.cfg.regionBase d + sizesBefore (pt.entries d) k

/-- R94: the layout law, and, for a general channel `c` (the spec's own inference, [derived: from rule R91]; its source speaks of channel 0), how a reconfiguration shifts the bases: those of channels up to `c` stay, those above move by the difference of the sizes. -/
def Obligations.ReconfigurationShiftsTheLaterBases : Prop :=
  ∀ (s : State) (d : Dir) (ch : Chan) (size : Half), s.Inv → ch.toNat < s.cfg.n → size.toNat ∈ s.cfg.allowed →
    tableFormula s ∧
    ∃ t, exec (.setSliceSize d ch size) s = .next t ∧ tableFormula t
      ∧ (∀ k, k < s.cfg.n → k ≤ ch.toNat → (t.pt.entry d k).base = (s.pt.entry d k).base)
      ∧ (∀ k, k < s.cfg.n → ch.toNat < k →
          (t.pt.entry d k).base + (s.pt.entry d ch.toNat).size.toNat = (s.pt.entry d k).base + size.toNat)

/-- R161: a size not in `ALLOWED`, with a known channel, is InvalidSizeError: never coerced, and nothing but the response changes. -/
def Obligations.SizeNotAllowedIsInvalidSizeError : Prop :=
  ∀ (s : State) (d : Dir) (ch : Chan) (size : Half), s.ph = .idle → ch.toNat < s.cfg.n → size.toNat ∉ s.cfg.allowed →
    exec (.setSliceSize d ch size) s = .next { s with rsp := Response.failed .invalidSizeError }

/-- R162: a channel index `>= N` is UnknownChannelError in all six operations, whatever their other operands (it comes before the size check, the zero length
and the length check: R167), and nothing but the response changes. -/
def Obligations.ChannelOutOfRangeIsUnknownChannelError : Prop :=
  ∀ (s : State) (d : Dir) (ch : Chan) (a b : Half), s.ph = .idle → s.cfg.n ≤ ch.toNat →
    ∀ i ∈ [Instr.setSliceSize d ch a, .getSlice d ch, .translate d ch a, .plan d ch a b, .receive ch b, .transmit ch b],
      exec i s = .next { s with rsp := Response.failed .unknownChannelError }

/-- R92: `GET_SLICE` of a known channel answers the entry, and changes nothing but the response. -/
def Obligations.GetSliceAnswersTheEntry : Prop :=
  ∀ (s : State) (d : Dir) (ch : Chan), ch.toNat < s.cfg.n →
    exec (.getSlice d ch) s = .next { s with rsp :=
      { status := .ok, size := some (s.pt.entry d ch.toNat).size, base := some (s.pt.entry d ch.toNat).base,
        addr := none, nseg := none, seg := [], data := [] } }

/-- R21, R34, R166 (f): the PartitionTable changes only by a `SET_SLICE_SIZE` that answers OK, or by the reset input: of the instructions no other changes it; and a
step that changes it is the reset input's, or CBAT's accepting such a command in `IDLE` (the oldest one held off, log entry 11; also when no turn is listed, log entry 7). -/
def Obligations.OnlySetSliceSizeChangesTheTable : Prop :=
  (∀ (i : Instr) (s t : State), exec i s = .next t → t.pt ≠ s.pt →
    (∃ d ch size, i = .setSliceSize d ch size) ∧ t.rsp = Response.done)
  ∧ ∀ s t : State, step s = .next t → t.pt ≠ s.pt →
    (∃ landed ts, s.inputs = .reset landed :: ts)
    ∨ (s.ph = .idle ∧ (s.inputs = [] ∨ ∃ ts, s.inputs = .cbat :: ts) ∧ t.rsp = Response.done
        ∧ ∃ c rest d ch size, s.pending = c :: rest ∧ decodeCommand c.word = .ok (.setSliceSize d ch size))

/-! ## The translator and the planner -/

/-- R100, R101: `TRANSLATE` of a known channel answers `base + (p & (size - 1))`, untruncated, and changes nothing but the response. -/
def Obligations.TranslateAnswersBasePlusMaskedPointer : Prop :=
  ∀ (s : State) (d : Dir) (ch : Chan) (p : Half), ch.toNat < s.cfg.n →
    exec (.translate d ch p) s = .next { s with rsp :=
      { status := .ok, size := none, base := none,
        addr := some ((s.pt.entry d ch.toNat).base + (p &&& ((s.pt.entry d ch.toNat).size - 1)).toNat),
        nseg := none, seg := [], data := [] } }

/-- R102: for every legal slice size and every pointer the translated address lies in the slice. The source says it of 1, 2, 4 and 8 KiB; for every other size it is the
spec's own inference ([derived: from rule R100]). -/
def Obligations.TranslatedAddressLiesInTheSlice : Prop :=
  ∀ (sl : Slice) (p : Half), isSliceSize sl.size.toNat = true →
    sl.base ≤ translateAddr sl p ∧ translateAddr sl p < sl.base + sl.size.toNat

/-- R103, which the spec marks as its own inference ([derived: from rule R100 and R9]): the four arithmetic laws of the translator, (a) to (d). -/
def Obligations.TranslatorArithmeticLaws : Prop :=
  ∀ (sl : Slice), isSliceSize sl.size.toNat = true →
    (∀ p : Half, (offsetOf sl p).toNat = p.toNat % sl.size.toNat)
    ∧ (∀ p : Half, translateAddr sl (p + sl.size) = translateAddr sl p)
    ∧ (∀ (p : Half) (n : Nat), (offsetOf sl (BitVec.ofNat 16 ((p.toNat + n) % 65536))).toNat
        = ((offsetOf sl p).toNat + n) % sl.size.toNat)
    ∧ (∀ (p : Half) (i j : Nat), i < sl.size.toNat → j < sl.size.toNat → byteAddr sl p i = byteAddr sl p j → i = j)

/-- R111 to R113, R115, R117: `PLAN` of a known channel with a length up to the slice size answers the plan: none for length 0; one segment when
`offset + L <= size`; else the tail of the slice and then its head. Nothing but the response changes. -/
def Obligations.PlanAnswersNoneOneOrTwoSegments : Prop :=
  ∀ (s : State) (d : Dir) (ch : Chan) (p len : Half), s.Inv → ch.toNat < s.cfg.n →
    len.toNat ≤ (s.pt.entry d ch.toNat).size.toNat →
    ∃ segs : List Segment, exec (.plan d ch p len) s = .next { s with rsp :=
        { status := .ok, size := none, base := none, addr := none, nseg := some (BitVec.ofNat 2 segs.length),
          seg := segs, data := [] } }
      ∧ (len.toNat = 0 → segs = [])
      ∧ (0 < len.toNat →
          p.toNat % (s.pt.entry d ch.toNat).size.toNat + len.toNat ≤ (s.pt.entry d ch.toNat).size.toNat →
          segs = [⟨(s.pt.entry d ch.toNat).base + p.toNat % (s.pt.entry d ch.toNat).size.toNat, len⟩])
      ∧ (0 < len.toNat →
          (s.pt.entry d ch.toNat).size.toNat < p.toNat % (s.pt.entry d ch.toNat).size.toNat + len.toNat →
          ∃ l1 l2 : Half,
            segs = [⟨(s.pt.entry d ch.toNat).base + p.toNat % (s.pt.entry d ch.toNat).size.toNat, l1⟩,
                    ⟨(s.pt.entry d ch.toNat).base, l2⟩]
            ∧ l1.toNat = (s.pt.entry d ch.toNat).size.toNat - p.toNat % (s.pt.entry d ch.toNat).size.toNat
            ∧ l2.toNat = len.toNat - l1.toNat)

/-- R164: a transfer length above the slice size is LengthError in `PLAN`, `RECEIVE` and `TRANSMIT`, before any primitive: nothing but the
response changes. -/
def Obligations.LengthAboveTheSliceIsLengthError : Prop :=
  ∀ (s : State) (d : Dir) (ch : Chan) (p len : Half), s.ph = .idle → ch.toNat < s.cfg.n →
    ((s.pt.entry d ch.toNat).size.toNat < len.toNat →
      exec (.plan d ch p len) s = .next { s with rsp := Response.failed .lengthError })
    ∧ ((s.pt.entry .rx ch.toNat).size.toNat < len.toNat →
      exec (.receive ch len) s = .next { s with rsp := Response.failed .lengthError })
    ∧ ((s.pt.entry .tx ch.toNat).size.toNat < len.toNat →
      exec (.transmit ch len) s = .next { s with rsp := Response.failed .lengthError })

/-- R116: the laws of the plan: lengths sum to `L` and ranges lie in the slice (the source's words); and (a) to (f), which the spec marks as its own
inference ([derived: from rule R112]). -/
def Obligations.PlanLaws : Prop :=
  ∀ (sl : Slice) (p len : Half) (segs : List Segment), isSliceSize sl.size.toNat = true →
    1 ≤ len.toNat → len.toNat ≤ sl.size.toNat → planSegments sl p len = .ok segs →
    (segs.map fun sg => sg.len.toNat).sum = len.toNat
    ∧ (∀ sg ∈ segs, sl.base ≤ sg.addr ∧ sg.addr + sg.len.toNat ≤ sl.base + sl.size.toNat)
    ∧ (∀ sg ∈ segs, 1 ≤ sg.len.toNat)
    ∧ (∃ sg rest, segs = sg :: rest ∧ sg.addr = translateAddr sl p)
    ∧ (segs.length = 1 ∨ segs.length = 2)
    ∧ (∀ s1 s2, segs = [s1, s2] →
        s1.addr + s1.len.toNat = sl.base + sl.size.toNat ∧ s2.addr = sl.base
        ∧ s2.len.toNat + sl.size.toNat = len.toNat + (offsetOf sl p).toNat
        ∧ s2.len.toNat ≤ (offsetOf sl p).toNat
        ∧ s2.addr + s2.len.toNat ≤ s1.addr
        ∧ (s2.addr + s2.len.toNat = s1.addr ↔ len.toNat = sl.size.toNat))
    ∧ (∃ before last, segs = before ++ [last] ∧
        translateAddr sl (p + len)
          = if last.addr + last.len.toNat = sl.base + sl.size.toNat then sl.base else last.addr + last.len.toNat)
    ∧ planAddresses segs = (List.range len.toNat).map (byteAddr sl p)

/-- R137 (d), at the level of the plan: two successive transfers touch the same bytes, in the same order, as one transfer of the sum of the lengths. -/
def Obligations.TwoTransfersTouchTheBytesOfOne : Prop :=
  ∀ (sl : Slice) (p l1 l2 : Half) (segs1 segs2 segs : List Segment), isSliceSize sl.size.toNat = true →
    l1.toNat + l2.toNat ≤ sl.size.toNat →
    planSegments sl p l1 = .ok segs1 → planSegments sl (advancePointer p l1) l2 = .ok segs2 →
    planSegments sl p (l1 + l2) = .ok segs →
    planAddresses segs1 ++ planAddresses segs2 = planAddresses segs

/-- R61: what is written through a plan is read back through it, split or not, whatever else changes in between, as long as the bytes of the plan stay. -/
def Obligations.WriteThenReadThroughAPlanRoundTrips : Prop :=
  ∀ (s : State) (sl : Slice) (p len : Half) (segs : List Segment) (buf : List Byte), Memory.wf s.mem = true →
    isSliceSize sl.size.toNat = true → sl.base + sl.size.toNat ≤ s.cfg.pmemSize →
    1 ≤ len.toNat → len.toNat ≤ sl.size.toNat → planSegments sl p len = .ok segs → buf.length = len.toNat →
    ∃ t, performAll (blockRequests .tx buf 0 segs) s = .next (t, [])
      ∧ ∀ t' : State, t'.cfg = s.cfg →
          (∀ a ∈ planAddresses segs, Memory.read t'.mem a = Memory.read t.mem a) →
          ∃ u, performAll (blockRequests .rx [] 0 segs) t' = .next (u, buf)

/-! ## The Transport primitives -/

/-- R145, R51: a successful `RD_REG` replies the byte, and changes nothing but the reply. That it does so also with write data on the port, which is then
ignored, is the model's choice, log entry 31. -/
def Obligations.RdRegRepliesTheByte : Prop :=
  ∀ (s : State) (addr : Nat), addr < s.cfg.pmemSize → s.port.verdict = .ok →
    exec (.rdReg addr) s = .next { s with port := { s.port with reply := .ok [Memory.read s.mem addr] } }

/-- R146: a successful `WR_REG` stores its byte at its address and nowhere else. -/
def Obligations.WrRegStoresTheByte : Prop :=
  ∀ (s : State) (addr : Nat) (b : Byte), Memory.wf s.mem = true → addr < s.cfg.pmemSize → s.port.verdict = .ok →
    s.port.wdata = [b] →
    ∃ mem, exec (.wrReg addr) s = .next { s with mem := mem, port := { s.port with reply := .ok [] } }
      ∧ Memory.read mem addr = b ∧ ∀ a, a ≠ addr → Memory.read mem a = Memory.read s.mem a

/-- R147, R44, R79: a successful `RD_BLK` replies exactly its bytes, ascending, and changes nothing but the reply. That it does so also for a length
outside `1 .. 32768` is the model's choice, log entry 14; and also with write data on the port, log entry 31. -/
def Obligations.RdBlkRepliesTheBytes : Prop :=
  ∀ (s : State) (addr : Nat) (len : Half), addr + len.toNat ≤ s.cfg.pmemSize → s.port.verdict = .ok →
    exec (.rdBlk addr len) s = .next { s with port := { s.port with
      reply := .ok ((List.range len.toNat).map fun i => Memory.read s.mem (addr + i)) } }

/-- R148, R44: a successful `WR_BLK` stores byte `i` of its data at `addr + i`, and no other byte changes. That it does so also for a length outside
`1 .. 32768` is the model's choice, log entry 14. -/
def Obligations.WrBlkStoresTheBytes : Prop :=
  ∀ (s : State) (addr : Nat) (len : Half), Memory.wf s.mem = true → addr + len.toNat ≤ s.cfg.pmemSize →
    s.port.verdict = .ok → s.port.wdata.length = len.toNat →
    ∃ mem, exec (.wrBlk addr len) s = .next { s with mem := mem, port := { s.port with reply := .ok [] } }
      ∧ (∀ i < len.toNat, some (Memory.read mem (addr + i)) = s.port.wdata[i]?)
      ∧ ∀ a, ¬ inBlock addr len.toNat a → Memory.read mem a = Memory.read s.mem a

/-- R150: a failed read changes nothing and returns no data; of a failed `WR_REG` the byte is old or new; of a failed `WR_BLK` exactly the bytes of the subset
that landed are new; nothing outside the addressed range changes. Every subset is a possible verdict. That the two block clauses also hold for a length
outside `1 .. 32768` is the model's choice, log entry 14; and the two read clauses also with write data on the port, log entry 31. -/
def Obligations.FailedPrimitiveLeavesOldOrNewBytes : Prop :=
  ∀ (s : State) (landed : List Bool) (addr : Nat), s.port.verdict = .fail landed → Memory.wf s.mem = true →
    (addr < s.cfg.pmemSize →
      exec (.rdReg addr) s = .next { s with port := { s.port with reply := .fail } })
    ∧ (∀ len : Half, addr + len.toNat ≤ s.cfg.pmemSize →
      exec (.rdBlk addr len) s = .next { s with port := { s.port with reply := .fail } })
    ∧ (∀ b : Byte, addr < s.cfg.pmemSize → s.port.wdata = [b] →
      ∃ mem, exec (.wrReg addr) s = .next { s with mem := mem, port := { s.port with reply := .fail } }
        ∧ Memory.read mem addr = (if landed.getD 0 false then b else Memory.read s.mem addr)
        ∧ ∀ a, a ≠ addr → Memory.read mem a = Memory.read s.mem a)
    ∧ (∀ len : Half, addr + len.toNat ≤ s.cfg.pmemSize → s.port.wdata.length = len.toNat →
      ∃ mem, exec (.wrBlk addr len) s = .next { s with mem := mem, port := { s.port with reply := .fail } }
        ∧ (∀ i < len.toNat, some (Memory.read mem (addr + i))
            = if landed.getD i false then s.port.wdata[i]? else some (Memory.read s.mem (addr + i)))
        ∧ ∀ a, ¬ inBlock addr len.toNat a → Memory.read mem a = Memory.read s.mem a)

/-- The model's choice, log entry 15, from R28: a primitive that would reach an address of no byte of `PMem` stops with the fault, a block also with a
length outside `1 .. 32768` (log entry 14). -/
def Obligations.PrimitiveBeyondPMemFaults : Prop :=
  ∀ (s : State) (addr : Nat) (len : Half),
    (s.cfg.pmemSize ≤ addr → exec (.rdReg addr) s = .fault (.addressOutsidePMem addr))
    ∧ (s.cfg.pmemSize ≤ addr → s.port.wdata.length = 1 → exec (.wrReg addr) s = .fault (.addressOutsidePMem addr))
    ∧ (s.cfg.pmemSize < addr + len.toNat → ∃ a, exec (.rdBlk addr len) s = .fault (.addressOutsidePMem a))
    ∧ (s.cfg.pmemSize < addr + len.toNat → s.port.wdata.length = len.toNat →
        ∃ a, exec (.wrBlk addr len) s = .fault (.addressOutsidePMem a))

/-- R80, R149: the wire frames of a primitive carry its bytes, each once and in ascending order, in both variants: 3-byte headers and one byte a frame in variant
`A`, one frame with a 4-byte header in variant `B` up to `MAX_BLOCK`. -/
def Obligations.WireFramesCarryTheBytesInOrder : Prop :=
  (∀ (f : Framing) (maxBlock addr n : Nat) (fs : List Frame), wireFrames f maxBlock addr n = some fs →
    fs.flatMap Frame.addresses = List.range' addr n)
  ∧ (∀ (maxBlock addr n : Nat), ∃ fs, wireFrames .A maxBlock addr n = some fs ∧ fs.length = n
      ∧ ∀ f ∈ fs, f.headerBytes = 3 ∧ f.dataBytes = 1)
  ∧ (∀ (maxBlock addr n : Nat), n ≤ maxBlock → wireFrames .B maxBlock addr n = some [⟨4, addr, n⟩])

/-! ## The transfers -/

/-- R126, R134, R135: `RECEIVE` of a known channel. Zero length: OK with no byte of data and nothing else. A legal length on a fitting slice: `RD_HI`, the slice latched, the buffer
empty, and nothing else changes. -/
def Obligations.ReceiveStartsTheSequenceOrAnswersZeroLength : Prop :=
  ∀ (s : State) (ch : Chan) (len : Half), ch.toNat < s.cfg.n →
    (len = 0 → exec (.receive ch len) s = .next { s with rsp :=
      { status := .ok, size := none, base := none, addr := none, nseg := none, seg := [], data := [] } })
    ∧ (len ≠ 0 → len.toNat ≤ (s.pt.entry .rx ch.toNat).size.toNat →
        (s.pt.entry .rx ch.toNat).base + (s.pt.entry .rx ch.toNat).size.toNat ≤ s.cfg.rxBase + s.cfg.rxRegionSize →
        exec (.receive ch len) s
          = .next { s with ph := .rdHi, lat := { s.lat with slice := s.pt.entry .rx ch.toNat, buf := [] } })

/-- R126, R134, R135: `TRANSMIT` of a known channel. Zero length: OK with no byte of data (R76 and R126 read together: log entry 13) and nothing else. A legal length on a fitting slice:
`RD_HI`, the slice and a copy of `PAY` latched, and nothing else changes. -/
def Obligations.TransmitStartsTheSequenceOrAnswersZeroLength : Prop :=
  ∀ (s : State) (ch : Chan) (len : Half), ch.toNat < s.cfg.n →
    (len = 0 → exec (.transmit ch len) s = .next { s with rsp :=
      { status := .ok, size := none, base := none, addr := none, nseg := none, seg := [], data := [] } })
    ∧ (len ≠ 0 → len.toNat ≤ (s.pt.entry .tx ch.toNat).size.toNat →
        (s.pt.entry .tx ch.toNat).base + (s.pt.entry .tx ch.toNat).size.toNat ≤ s.cfg.txBase + s.cfg.txRegionSize →
        exec (.transmit ch len) s
          = .next { s with ph := .rdHi, lat := { s.lat with slice := s.pt.entry .tx ch.toNat, buf := s.pay } })

/-- R126 step 4: a transfer of a legal non-zero length on a channel whose slice does not fit its region is refused, and a transfer is refused in no other case. -/
def Obligations.TransferIsRefusedExactlyWhenTheSliceDoesNotFit : Prop :=
  ∀ (s : State) (d : Dir) (ch : Chan) (len : Half),
    exec (transferInstr d ch len) s = .refused .sliceDoesNotFit ↔
      ch.toNat < s.cfg.n ∧ len ≠ 0 ∧ len.toNat ≤ (s.pt.entry d ch.toNat).size.toNat
      ∧ s.cfg.regionEnd d < (s.pt.entry d ch.toNat).base + (s.pt.entry d ch.toNat).size.toNat

/-- R135, rows "reply ok", with R127 to R130: in each busy phase the primitive outstanding is the table's, its success moves the sequencer to the table's next phase, and the latches
the table names are written. -/
def Obligations.SequencerFollowsTheTransitionTable : Prop :=
  ∀ (s : State) (ts : List Turn), s.Inv → s.inputs = .transport .ok :: ts →
    (s.ph = .rdHi → requestOf s = some (.rdReg (s.cfg.ptrReg s.cmdDir s.cmdCh), []) ∧
      ∃ t, step s = .next t ∧ t.ph = .rdLo ∧ t.mem = s.mem
        ∧ t.lat = { s.lat with hi := Memory.read s.mem (s.cfg.ptrReg s.cmdDir s.cmdCh) })
    ∧ (s.ph = .rdLo → requestOf s = some (.rdReg (s.cfg.ptrReg s.cmdDir s.cmdCh + 1), []) ∧
      ∃ t, step s = .next t ∧ t.ph = .seg1 ∧ t.mem = s.mem
        ∧ t.lat.p = pointerOf s.lat.hi (Memory.read s.mem (s.cfg.ptrReg s.cmdDir s.cmdCh + 1))
        ∧ t.lat.segs = splitSegments s.lat.slice (offsetOf s.lat.slice t.lat.p) s.cmdLen
        ∧ t.lat.slice = s.lat.slice ∧ t.lat.buf = s.lat.buf)
    ∧ (s.ph = .seg1 → ∃ sg rest, s.lat.segs = sg :: rest
        ∧ requestOf s = some (segmentRequest s.cmdDir s.lat.buf 0 sg)
        ∧ ∃ t, step s = .next t ∧ t.ph = (if rest = [] then .wrHi else .seg2)
          ∧ t.lat = { s.lat with buf := t.lat.buf }
          ∧ (s.cmdDir = .rx → t.mem = s.mem ∧ t.lat.buf = Memory.readBlock s.mem sg.addr sg.len.toNat)
          ∧ (s.cmdDir = .tx → t.mem = Memory.writeBlock s.mem sg.addr (bufRange s.lat.buf 0 sg.len.toNat)
              ∧ t.lat.buf = s.lat.buf))
    ∧ (s.ph = .seg2 → ∃ sg sg', s.lat.segs = [sg, sg']
        ∧ requestOf s = some (segmentRequest s.cmdDir s.lat.buf sg.len.toNat sg')
        ∧ ∃ t, step s = .next t ∧ t.ph = .wrHi ∧ t.lat = { s.lat with buf := t.lat.buf }
          ∧ (s.cmdDir = .rx → t.mem = s.mem ∧ t.lat.buf = s.lat.buf ++ Memory.readBlock s.mem sg'.addr sg'.len.toNat)
          ∧ (s.cmdDir = .tx → t.mem = Memory.writeBlock s.mem sg'.addr (bufRange s.lat.buf sg.len.toNat sg'.len.toNat)
              ∧ t.lat.buf = s.lat.buf))
    ∧ (s.ph = .wrHi → requestOf s = some (.wrReg (s.cfg.ptrReg s.cmdDir s.cmdCh), [hiByte (s.lat.p + s.cmdLen)]) ∧
      ∃ t, step s = .next t ∧ t.ph = .wrLo ∧ t.lat = s.lat
        ∧ t.mem = Memory.write s.mem (s.cfg.ptrReg s.cmdDir s.cmdCh) (hiByte (s.lat.p + s.cmdLen)))
    ∧ (s.ph = .wrLo → requestOf s = some (.wrReg (s.cfg.ptrReg s.cmdDir s.cmdCh + 1), [loByte (s.lat.p + s.cmdLen)]) ∧
      ∃ t, step s = .next t ∧ t.ph = .idle
        ∧ t.mem = Memory.write s.mem (s.cfg.ptrReg s.cmdDir s.cmdCh + 1) (loByte (s.lat.p + s.cmdLen))
        ∧ t.rsp = (if s.cmdDir = .rx then Response.ofData s.lat.buf else Response.done))

/-- R125, R137 (a), (b), R48: a whole `RECEIVE`, from the oldest command held off (log entry 11) to the response, when every primitive succeeds and no other agent moves in between: `4 + nseg` primitives in the table's order, the
bytes of the slice from the pointer on in the response, the pointer advanced by the length, and nothing of `PMem` changed but the pointer pair. -/
def Obligations.WholeReceiveMovesTheBytesAndAdvancesThePointer : Prop :=
  ∀ (s : State) (w : Command) (ch : Chan) (len : Half) (pay : List Byte) (rest : List Presented) (ts : List Turn) (n : Nat),
    s.Inv → s.ph = .idle → s.pending = ⟨w, pay⟩ :: rest → decodeCommand w = .ok (.receive ch len) →
    ch.toNat < s.cfg.n → len ≠ 0 → len.toNat ≤ (s.pt.entry .rx ch.toNat).size.toNat →
    sliceFits s.cfg .rx (s.pt.entry .rx ch.toNat) = true →
    n = 4 + segmentCount (s.pt.entry .rx ch.toNat) (s.pointer .rx ch.toNat) len →
    s.inputs = .cbat :: (okTurns n ++ ts) →
    ∃ t, runSteps (1 + n) s = .next t ∧ t.ph = .idle ∧ t.pending = rest ∧ t.inputs = ts ∧ t.pt = s.pt ∧ t.cfg = s.cfg
      ∧ t.rsp = Response.ofData ((List.range len.toNat).map fun i =>
          Memory.read s.mem (byteAddr (s.pt.entry .rx ch.toNat) (s.pointer .rx ch.toNat) i))
      ∧ t.pointer .rx ch.toNat = s.pointer .rx ch.toNat + len
      ∧ (∀ a, ¬ inPair s.cfg .rx ch.toNat a → Memory.read t.mem a = Memory.read s.mem a)
      ∧ primitivesOf (1 + n) s =
          [(.rdReg (s.cfg.ptrReg .rx ch.toNat), []), (.rdReg (s.cfg.ptrReg .rx ch.toNat + 1), [])]
          ++ (splitSegments (s.pt.entry .rx ch.toNat)
                (offsetOf (s.pt.entry .rx ch.toNat) (s.pointer .rx ch.toNat)) len).map
              (fun sg => (Instr.rdBlk sg.addr sg.len, []))
          ++ [(.wrReg (s.cfg.ptrReg .rx ch.toNat), [hiByte (s.pointer .rx ch.toNat + len)]),
              (.wrReg (s.cfg.ptrReg .rx ch.toNat + 1), [loByte (s.pointer .rx ch.toNat + len)])]

/-- R131, R137 (a), (c), R48: a whole `TRANSMIT`, from the oldest command held off (log entry 11) to the response, when every primitive succeeds and no other agent moves in between: payload byte `i` lands at `translate(slice, p + i)`, the pointer is advanced by the length, no other byte
of `PMem` changes, and the `4 + nseg` primitives come in the table's order. -/
def Obligations.WholeTransmitMovesTheBytesAndAdvancesThePointer : Prop :=
  ∀ (s : State) (w : Command) (ch : Chan) (len : Half) (pay : List Byte) (rest : List Presented) (ts : List Turn) (n : Nat),
    s.Inv → s.ph = .idle → s.pending = ⟨w, pay⟩ :: rest → decodeCommand w = .ok (.transmit ch len) →
    ch.toNat < s.cfg.n → len ≠ 0 → len.toNat ≤ (s.pt.entry .tx ch.toNat).size.toNat →
    sliceFits s.cfg .tx (s.pt.entry .tx ch.toNat) = true →
    n = 4 + segmentCount (s.pt.entry .tx ch.toNat) (s.pointer .tx ch.toNat) len →
    s.inputs = .cbat :: (okTurns n ++ ts) →
    ∃ t, runSteps (1 + n) s = .next t ∧ t.ph = .idle ∧ t.pending = rest ∧ t.inputs = ts ∧ t.pt = s.pt ∧ t.cfg = s.cfg
      ∧ t.rsp = Response.done
      ∧ (∀ i < len.toNat,
          some (Memory.read t.mem (byteAddr (s.pt.entry .tx ch.toNat) (s.pointer .tx ch.toNat) i)) = pay[i]?)
      ∧ t.pointer .tx ch.toNat = s.pointer .tx ch.toNat + len
      ∧ (∀ a, ¬ inPair s.cfg .tx ch.toNat a →
          (∀ i < len.toNat, a ≠ byteAddr (s.pt.entry .tx ch.toNat) (s.pointer .tx ch.toNat) i) →
          Memory.read t.mem a = Memory.read s.mem a)
      ∧ primitivesOf (1 + n) s =
          [(.rdReg (s.cfg.ptrReg .tx ch.toNat), []), (.rdReg (s.cfg.ptrReg .tx ch.toNat + 1), [])]
          ++ blockRequests .tx pay 0 (splitSegments (s.pt.entry .tx ch.toNat)
                (offsetOf (s.pt.entry .tx ch.toNat) (s.pointer .tx ch.toNat)) len)
          ++ [(.wrReg (s.cfg.ptrReg .tx ch.toNat), [hiByte (s.pointer .tx ch.toNat + len)]),
              (.wrReg (s.cfg.ptrReg .tx ch.toNat + 1), [loByte (s.pointer .tx ch.toNat + len)])]

/-- R163, R166: when the primitive outstanding in any of the six phases replies fail, the operation ends in `IDLE` with TransportError and no other field, and the PartitionTable and the commands held off stay. -/
def Obligations.FailedPrimitiveEndsTheOperationWithTransportError : Prop :=
  ∀ (s : State) (landed : List Bool) (ts : List Turn), s.Inv → s.ph ≠ .idle → s.inputs = .transport (.fail landed) :: ts →
    ∃ t, step s = .next t ∧ t.ph = .idle ∧ t.rsp = Response.failed .transportError ∧ t.pt = s.pt ∧ t.cfg = s.cfg
      ∧ t.pending = s.pending ∧ t.inputs = ts ∧ requestOf t = none

/-- R132, R133: a failure before the write-back leaves every pointer register pair as it was, and of a failure in a read phase nothing of `PMem` has changed. -/
def Obligations.FailureBeforeWriteBackLeavesEveryPointer : Prop :=
  ∀ (s t : State) (landed : List Bool) (ts : List Turn), s.Inv → s.inputs = .transport (.fail landed) :: ts →
    step s = .next t → (s.ph = .rdHi ∨ s.ph = .rdLo ∨ s.ph = .seg1 ∨ s.ph = .seg2) →
    (∀ (d : Dir) (k : Nat), k < s.cfg.n → t.pointer d k = s.pointer d k)
    ∧ (s.ph = .rdHi ∨ s.ph = .rdLo → t.mem = s.mem)

/-- R133, U9: after a failure in `WR_HI` the pair holds the old pointer or the new high byte with the old low byte; after a failure in `WR_LO` its high byte is as it was and its low byte is old or new. No other byte of
`PMem` changes. -/
def Obligations.FailedWriteBackLeavesOldOrNewPointerBytes : Prop :=
  ∀ (s t : State) (landed : List Bool) (ts : List Turn), s.Inv → s.inputs = .transport (.fail landed) :: ts →
    step s = .next t →
    (s.ph = .wrHi →
      (t.pointer s.cmdDir s.cmdCh = s.pointer s.cmdDir s.cmdCh
        ∨ t.pointer s.cmdDir s.cmdCh
          = pointerOf (hiByte (s.lat.p + s.cmdLen)) (loByte (s.pointer s.cmdDir s.cmdCh))))
    ∧ (s.ph = .wrLo →
      (t.pointer s.cmdDir s.cmdCh = s.pointer s.cmdDir s.cmdCh
        ∨ t.pointer s.cmdDir s.cmdCh
          = pointerOf (hiByte (s.pointer s.cmdDir s.cmdCh)) (loByte (s.lat.p + s.cmdLen))))
    ∧ (s.ph = .wrHi ∨ s.ph = .wrLo → ∀ a, ¬ inPair s.cfg s.cmdDir s.cmdCh a →
        Memory.read t.mem a = Memory.read s.mem a)

/-- R137 (c), (e), R125: whatever the verdict, a primitive of CBAT changes no byte of `PMem` outside the pointer pair of its command and the slice it latched, and a `RECEIVE` changes none outside the pair; and the
bytes it addresses lie in the pair or in the slice. -/
def Obligations.TransferTouchesOnlyItsPairAndItsSlice : Prop :=
  ∀ (s : State) (v : Verdict) (ts : List Turn), s.Inv → s.ph ≠ .idle → s.inputs = .transport v :: ts →
    (∃ i w, requestOf s = some (i, w) ∧
      match i with
      | .rdReg a => inPair s.cfg s.cmdDir s.cmdCh a
      | .wrReg a => inPair s.cfg s.cmdDir s.cmdCh a
      | .rdBlk a n => s.cmdDir = .rx ∧ ∀ x, inBlock a n.toNat x → inSlice s.lat.slice x
      | .wrBlk a n => s.cmdDir = .tx ∧ ∀ x, inBlock a n.toNat x → inSlice s.lat.slice x
      | _ => False)
    ∧ ∀ t, step s = .next t → ∀ a, ¬ inPair s.cfg s.cmdDir s.cmdCh a → ¬ (s.cmdDir = .tx ∧ inSlice s.lat.slice a) →
        Memory.read t.mem a = Memory.read s.mem a

/-- R126, R116: once a transfer has passed the checks, no primitive of it ever stops the machine, whatever the verdicts. -/
def Obligations.NoPrimitiveOfATransferStops : Prop :=
  ∀ (s : State) (v : Verdict) (ts : List Turn), s.Inv → s.inputs = .transport v :: ts → ∃ t, step s = .next t

/-- R50 (b), U13: a change by the peripheral between the two reads gives a pointer made of an old high byte and a new low byte. -/
def Obligations.PointerReadCanBeTorn : Prop :=
  ∀ (s : State) (writes : List (Nat × Byte)) (ts : List Turn), s.Inv → s.ph = .rdHi →
    s.inputs = .transport .ok :: .peripheral writes :: .transport .ok :: ts →
    ∃ t, runSteps 3 s = .next t ∧ t.ph = .seg1
      ∧ t.lat.p = pointerOf (Memory.read s.mem (s.cfg.ptrReg s.cmdDir s.cmdCh))
          (Memory.read (Memory.pokeAll s.cfg.pmemSize s.mem writes) (s.cfg.ptrReg s.cmdDir s.cmdCh + 1))

/-- R136: with no reply from the Transport and no reset, CBAT stays in its phase for ever, whatever the other agents do and however many steps are taken: a run of `k`
steps, none of whose turns is the Transport's or the reset input's, leaves the phase, the latches, the command, its payload, the response, the table and the
primitive outstanding as they were. And with no turn listed (log entry 7) such a run of any length exists and changes nothing at all. -/
def Obligations.WithoutAReplyCbatStaysInItsPhase : Prop :=
  (∀ (s t : State) (k : Nat), s.ph ≠ .idle → (∀ tn ∈ s.inputs.take k, tn.givesNoReply = true) → runSteps k s = .next t →
    t.ph = s.ph ∧ t.lat = s.lat ∧ t.cmd = s.cmd ∧ t.pay = s.pay ∧ t.rsp = s.rsp ∧ t.pt = s.pt ∧ requestOf t = requestOf s)
  ∧ ∀ (s : State) (k : Nat), s.cfg.wellFormed = true → s.ph ≠ .idle → s.inputs = [] → runSteps k s = .next s

/-! ## The step -/

/-- R70, R173: in `IDLE`, on CBAT's turn, a command held off is latched and, when its word decodes, run. That it is the oldest one is the model's choice, log
entry 11; that `CMD` and `PAY` are latched for every command is log entry 23; that CBAT moves when no turn is listed is log entry 7. -/
def Obligations.StepRunsTheDecodedCommand : Prop :=
  ∀ (s : State) (c : Presented) (rest : List Presented) (ts : List Turn) (i : Instr), s.cfg.wellFormed = true →
    s.ph = .idle → s.pending = c :: rest → decodeCommand c.word = .ok i →
    (s.inputs = .cbat :: ts ∨ (s.inputs = [] ∧ ts = [])) →
    step s = exec i { s with inputs := ts, pending := rest, cmd := c.word, pay := c.pay }

/-- R152, R78: on another bus master's turn, its request, when it decodes, is performed with its write data and its verdict. That a read with write data is performed is
the model's choice, log entry 31; so is, for a block request of a length outside `1 .. 32768`, log entry 14. -/
def Obligations.StepRunsTheDecodedRequest : Prop :=
  ∀ (s : State) (w : Nat) (wdata : List Byte) (v : Verdict) (ts : List Turn) (i : Instr), s.cfg.wellFormed = true →
    s.inputs = .master w wdata v :: ts → decodeRequest s.cfg.addrW w = .ok i →
    step s = exec i { s with inputs := ts, port := { s.port with wdata := wdata, verdict := v } }

/-- R135, R54: on the Transport's turn, CBAT's outstanding primitive is performed with its write data and the turn's verdict, and CBAT takes the reply. -/
def Obligations.StepRunsTheOutstandingPrimitive : Prop :=
  ∀ (s : State) (v : Verdict) (ts : List Turn) (i : Instr) (wdata : List Byte), s.cfg.wellFormed = true →
    s.inputs = .transport v :: ts → requestOf s = some (i, wdata) →
    step s = mapNext advance (exec i { s with inputs := ts, port := { s.port with wdata := wdata, verdict := v } })

/-- R74, R165, R166: an illegal command word is IllegalCommandError: the command is taken, and nothing changes but the command latches and the response. That `CMD`
and `PAY` are latched for an illegal word too is the model's choice, log entry 23; that the oldest command is taken is log entry 11; that CBAT moves when no turn is listed is log entry 7. -/
def Obligations.IllegalCommandWordIsIllegalCommandError : Prop :=
  ∀ (s : State) (c : Presented) (rest : List Presented) (ts : List Turn) (e : DecodeError), s.cfg.wellFormed = true →
    s.ph = .idle → s.pending = c :: rest → decodeCommand c.word = .error e →
    (s.inputs = .cbat :: ts ∨ (s.inputs = [] ∧ ts = [])) →
    step s = .next { s with inputs := ts, pending := rest, cmd := c.word, pay := c.pay,
                            rsp := Response.failed .illegalCommandError }

/-- R173: a command presented is held off, neither lost nor refused, behind the earlier ones and without a bound (the model's choice, log entry 11); and while an operation is in progress CBAT's turn accepts none. -/
def Obligations.CommandIsHeldOffWhileBusy : Prop :=
  ∀ (s : State) (c : Presented) (ts : List Turn), s.cfg.wellFormed = true →
    (s.inputs = .present c :: ts → c.wellFormed = true →
      step s = .next { s with inputs := ts, pending := s.pending ++ [c] })
    ∧ (s.ph ≠ .idle → s.inputs = .cbat :: ts → step s = .next { s with inputs := ts })

/-- R59, R173: while an operation is in progress no turn but the reset input changes the PartitionTable, the command or its payload. -/
def Obligations.TableAndCommandStayDuringATransfer : Prop :=
  ∀ s t : State, s.ph ≠ .idle → (∀ landed ts, s.inputs ≠ .reset landed :: ts) → step s = .next t →
    t.pt = s.pt ∧ t.cmd = s.cmd ∧ t.pay = s.pay

/-- R5, R152: another bus master's turn changes `PMem` and the Transport port and nothing of CBAT; the peripheral's turn changes `PMem` only, and in it no byte it does not name. -/
def Obligations.OtherAgentsLeaveCbatAlone : Prop :=
  ∀ (s t : State) (ts : List Turn), step s = .next t →
    (∀ w wdata v, s.inputs = .master w wdata v :: ts → t = { s with inputs := ts, mem := t.mem, port := t.port })
    ∧ (∀ writes, s.inputs = .peripheral writes :: ts → t = { s with inputs := ts, mem := t.mem }
        ∧ (Memory.wf s.mem = true → ∀ a, (∀ b, (a, b) ∉ writes) → Memory.read t.mem a = Memory.read s.mem a))

/-- R166, R167, R31: a command run in `IDLE` either changes nothing but the response, or is a successful `SET_SLICE_SIZE`, or starts a transfer; and every error it answers is one of the four kinds raised before any primitive. -/
def Obligations.CommandInIdleChangesOnlyWhatItsKindMay : Prop :=
  ∀ (i : Instr) (s t : State), s.ph = .idle → ¬ isTransportPrimitive i → exec i s = .next t →
    (∃ k, k ≠ .transportError ∧ t = { s with rsp := Response.failed k })
    ∨ (t = { s with rsp := t.rsp } ∧ t.rsp.status = .ok)
    ∨ ((∃ d ch size, i = .setSliceSize d ch size) ∧ t = { s with pt := t.pt, rsp := Response.done })
    ∨ ((∃ d ch len, i = transferInstr d ch len) ∧ t = { s with ph := .rdHi, lat := t.lat })

/-- R14, R126: in a sound state, CBAT's turn stops only where a transfer's slice does not fit its region. That the transfer is the oldest command held off is the model's
choice, log entry 11; that CBAT moves when no turn is listed is log entry 7. -/
def Obligations.CbatTurnStopsOnlyOnASliceThatDoesNotFit : Prop :=
  ∀ s : State, s.Inv → (s.inputs = [] ∨ ∃ ts, s.inputs = .cbat :: ts) →
    (∃ t, step s = .next t)
    ∨ (step s = .refused .sliceDoesNotFit ∧ s.ph = .idle ∧ ∃ c rest d ch len, s.pending = c :: rest
        ∧ decodeCommand c.word = .ok (transferInstr d ch len)
        ∧ s.cfg.regionEnd d < (s.pt.entry d ch.toNat).base + (s.pt.entry d ch.toNat).size.toNat)

/-- R23, R25, R34, U25: "nothing reads them before they are written": take two states that differ only in `RSP`, in the in-flight latches the phase has not written
yet and, in `IDLE`, in `CMD` and `PAY`. They answer alike; their next states again differ in no more; and the response is either written alike in both or left in both. -/
def Obligations.LatchesAreNeverReadBeforeTheyAreWritten : Prop :=
  ∀ s s' : State, agreeButUnwritten s s' →
    answersAgree (step s) (step s')
    ∧ ∀ t t' : State, step s = .next t → step s' = .next t' → t'.rsp = t.rsp ∨ (t.rsp = s.rsp ∧ t'.rsp = s'.rsp)

/-- R81, R149, R153: the framing variant and the bounded maximum are invisible to CBAT: changing them changes no step. -/
def Obligations.FramingVariantIsInvisible : Prop :=
  ∀ (s : State) (f : Framing) (maxBlock : Nat), 1 ≤ maxBlock → s.cfg.wellFormed = true →
    step (withFraming f maxBlock s) = mapNext (withFraming f maxBlock) (step s)
end

