-- ==== Sys2Proof/Laws/Encoding.lean ====
section
/-! SUPPORT. The fields of the words the encoder builds: what a field read gives on `Command.ofFields` (R71) and on `requestWord` (R78). -/

namespace Sys2Proof

section
variable (op : BitVec 4) (d : Dir) (ch : Chan) (a b : Half)

@[simp] theorem op_ofFields : Command.op (Command.ofFields op d ch a b) = op := by
  unfold Command.op Command.ofFields
  ext i hi
  simp only [BitVec.getElem_extractLsb', BitVec.getLsbD_append, BitVec.getLsbD_cast]
  have : i = 0 ∨ i = 1 ∨ i = 2 ∨ i = 3 := by omega
  rcases this with rfl | rfl | rfl | rfl <;> simp [BitVec.getLsbD_eq_getElem]

@[simp] theorem dir_ofFields : Command.dir (Command.ofFields op d ch a b) = d := by
  have h : (Command.ofFields op d ch a b).extractLsb' 43 1 = d.bit := by
    unfold Command.ofFields
    ext i hi
    obtain rfl : i = 0 := by omega
    simp only [BitVec.getElem_extractLsb', BitVec.getLsbD_cast, BitVec.getLsbD_append]
    simp [BitVec.getLsbD_eq_getElem]
  rw [Command.dir, h]
  cases d <;> rfl

@[simp] theorem rsv_ofFields : Command.rsv (Command.ofFields op d ch a b) = 0#3 := by
  unfold Command.rsv Command.ofFields
  ext i hi
  simp only [BitVec.getElem_extractLsb', BitVec.getLsbD_append, BitVec.getLsbD_cast]
  have : i = 0 ∨ i = 1 ∨ i = 2 := by omega
  rcases this with rfl | rfl | rfl <;> simp

@[simp] theorem ch_ofFields : Command.ch (Command.ofFields op d ch a b) = ch := by
  unfold Command.ch Command.ofFields
  ext i hi
  simp only [BitVec.getElem_extractLsb', BitVec.getLsbD_cast, BitVec.getLsbD_append]
  have h1 : ¬ (32 + i < 16) := by omega
  have h2 : 32 + i - 16 = 16 + i := by omega
  have h3 : ¬ (16 + i < 16) := by omega
  have h4 : 16 + i - 16 = i := by omega
  simp [hi, h1, h2, h3, h4, BitVec.getLsbD_eq_getElem]

@[simp] theorem fieldA_ofFields : Command.fieldA (Command.ofFields op d ch a b) = a := by
  unfold Command.fieldA Command.ofFields
  ext i hi
  simp only [BitVec.getElem_extractLsb', BitVec.getLsbD_cast, BitVec.getLsbD_append]
  have h1 : ¬ (16 + i < 16) := by omega
  have h2 : 16 + i - 16 = i := by omega
  simp [hi, h1, h2, BitVec.getLsbD_eq_getElem]

@[simp] theorem fieldB_ofFields : Command.fieldB (Command.ofFields op d ch a b) = b := by
  unfold Command.fieldB Command.ofFields
  ext i hi
  simp only [BitVec.getElem_extractLsb', BitVec.getLsbD_cast, BitVec.getLsbD_append]
  simp [hi, BitVec.getLsbD_eq_getElem]

end

section
variable {addrW addr : Nat} (blk wr : Bool) (h : addr < 2 ^ addrW) (len : Half)
include h

theorem low_fields_lt : addr * 2 ^ 16 + len.toNat < 2 ^ (addrW + 16) := by
  have := len.isLt
  rw [pow_add]
  nlinarith

theorem requestKind_requestWord :
    requestKind addrW (requestWord addrW blk wr addr len) = 2 * blk.toNat + wr.toNat := by
  have := low_fields_lt h len
  rw [requestKind, requestWord, Nat.add_assoc, Nat.add_comm, Nat.add_mul_div_right _ _ (Nat.two_pow_pos _),
    Nat.div_eq_of_lt this, Nat.zero_add]

theorem requestAddr_requestWord : requestAddr addrW (requestWord addrW blk wr addr len) = addr := by
  have hl := len.isLt
  unfold requestAddr requestWord
  generalize 2 * blk.toNat + wr.toNat = k
  have e : k * 2 ^ (addrW + 16) + addr * 2 ^ 16 + len.toNat = len.toNat + (addr + 2 ^ addrW * k) * 2 ^ 16 := by
    rw [pow_add]; ring
  rw [e, Nat.add_mul_div_right _ _ (by norm_num), Nat.div_eq_of_lt hl]
  simp [Nat.add_mul_mod_self_left, Nat.mod_eq_of_lt h]

end

@[simp] theorem requestLen_requestWord (addrW addr : Nat) (blk wr : Bool) (len : Half) :
    requestLen (requestWord addrW blk wr addr len) = len := by
  have hl := len.isLt
  unfold requestLen requestWord
  apply BitVec.eq_of_toNat_eq
  generalize 2 * blk.toNat + wr.toNat = k
  have e : k * 2 ^ (addrW + 16) + addr * 2 ^ 16 + len.toNat = len.toNat + 2 ^ 16 * (k * 2 ^ addrW + addr) := by
    rw [pow_add]; ring
  rw [BitVec.toNat_ofNat, e, Nat.add_mul_mod_self_left, Nat.mod_eq_of_lt hl]

end Sys2Proof
end

