-- ==== Sys2Proof/Laws/Layout.lean ====
section
/-! SUPPORT. The laws of the PartitionTable as data: what `recompute` leaves (40_partition_table.md R91, R94; 10_state.md R26). -/

namespace Sys2Proof.Machine

@[simp] theorem length_layout (acc : Nat) (es : List Slice) : (layout acc es).length = es.length := by
  induction es generalizing acc with
  | nil => rfl
  | cons e es ih => simp [layout, ih]

@[simp] theorem map_size_layout (acc : Nat) (es : List Slice) :
    (layout acc es).map Slice.size = es.map Slice.size := by
  induction es generalizing acc with
  | nil => rfl
  | cons e es ih => simp [layout, ih]

/-- Laying out again changes nothing. -/
@[simp] theorem layout_layout (acc : Nat) (es : List Slice) : layout acc (layout acc es) = layout acc es := by
  induction es generalizing acc with
  | nil => rfl
  | cons e es ih => simp [layout, ih]

/-- Base `k` is the start plus the sizes of entries `0..k-1` (R26). -/
theorem getElem?_layout (acc : Nat) (es : List Slice) (k : Nat) :
    (layout acc es)[k]? = es[k]?.map fun e => { e with base := acc + sizesBefore es k } := by
  induction es generalizing acc k with
  | nil => simp [layout]
  | cons e es ih =>
    cases k with
    | zero => simp [layout, sizesBefore]
    | succ k => simp [layout, ih, sizesBefore, Nat.add_assoc]

@[simp] theorem length_resize (k : Nat) (size : Half) (es : List Slice) : (resize k size es).length = es.length := by
  simp [resize]

/-- Entry `j` after entry `k` was given a size. -/
theorem getElem?_resize (k : Nat) (size : Half) (es : List Slice) (j : Nat) :
    (resize k size es)[j]? = es[j]?.map fun e => if k = j then { e with size := size } else e := by
  simp only [resize, List.getElem?_modify]
  split <;> simp_all

@[simp] theorem entries_withEntries (pt : PartitionTable) (d : Dir) (es : List Slice) :
    (pt.withEntries d es).entries d = es := by cases d <;> rfl

/-- Replacing one direction leaves the other. -/
theorem entries_withEntries_of_ne (pt : PartitionTable) {d d' : Dir} (es : List Slice) (h : d ≠ d') :
    (pt.withEntries d es).entries d' = pt.entries d' := by
  cases d <;> cases d' <;> first | rfl | exact absurd rfl h

@[simp] theorem entries_reset (c : Config) (d : Dir) : (PartitionTable.reset c).entries d = resetEntries c d := by
  cases d <;> rfl

end Sys2Proof.Machine
end

