-- ==== Sys2Proof/Laws/Memory.lean ====
section
/-! SUPPORT. The laws of `PMem`: reading after writing, and that every memory operation keeps the canonical form. -/

namespace Sys2Proof.Machine

/-! ## One byte -/

theorem Memory.read_put (m : Memory) (a x : Nat) (b : Byte) :
    Memory.read (Memory.put a b m) x = if a = x then b else Memory.read m x := by
  induction m with
  | nil => simp [Memory.put, Memory.read]
  | cons c m ih =>
    obtain ⟨y, d⟩ := c
    simp only [Memory.put]
    split
    · simp [Memory.read]
    · split
      · subst_vars
        by_cases h : y = x <;> simp [Memory.read, h]
      · by_cases h : y = x
        · subst h
          have : ¬ a = y := by assumption
          simp [Memory.read, this]
        · simp [Memory.read, h, ih]

/-- No cell of a canonical memory comes before its head. -/
theorem Memory.read_eq_unlisted_of_lt {m : Memory} {a : Nat} (h : ∀ c ∈ m, a < c.1) :
    Memory.read m a = Memory.unlisted := by
  induction m with
  | nil => rfl
  | cons c m ih =>
    have hc := h c (by simp)
    have : ¬ c.1 = a := by omega
    simp only [Memory.read, if_neg this]
    exact ih fun d hd => h d (by simp [hd])

theorem Memory.wf_cons {c : Host.Cell} {m : Memory} :
    Memory.wf (c :: m) = true ↔ (∀ d ∈ m, c.1 < d.1) ∧ c.2 ≠ Memory.unlisted ∧ Memory.wf m = true := by
  simp only [Memory.wf, Bool.and_eq_true, decide_eq_true_eq, List.pairwise_cons, List.all_cons, bne_iff_ne, ne_eq]
  tauto

theorem Memory.read_drop {m : Memory} (hm : Memory.wf m = true) (a x : Nat) :
    Memory.read (Memory.drop a m) x = if a = x then Memory.unlisted else Memory.read m x := by
  induction m with
  | nil => simp [Memory.drop, Memory.read]
  | cons c m ih =>
    obtain ⟨y, d⟩ := c
    obtain ⟨hlt, _, hm'⟩ := Memory.wf_cons.mp hm
    simp only [Memory.drop]
    split
    · rename_i hy
      by_cases hx : a = x
      · subst hx
        rw [if_pos rfl]
        exact Memory.read_eq_unlisted_of_lt fun e he => by have := hlt e he; simp only at this; omega
      · have : ¬ y = x := by omega
        simp [Memory.read, this, hx]
    · rename_i hy
      by_cases hx : y = x
      · have : ¬ a = x := by omega
        simp [Memory.read, hx, this]
      · simp [Memory.read, hx, ih hm']

/-- Read after write: the byte written, and every other byte as it was. -/
theorem Memory.read_write {m : Memory} (hm : Memory.wf m = true) (a x : Nat) (b : Byte) :
    Memory.read (Memory.write m a b) x = if a = x then b else Memory.read m x := by
  unfold Memory.write
  split
  · rename_i hb
    rw [Memory.read_drop hm, hb]
  · exact Memory.read_put m a x b

theorem Memory.mem_put {m : Memory} {a : Nat} {b : Byte} {c : Host.Cell} (h : c ∈ Memory.put a b m) :
    c = (a, b) ∨ c ∈ m := by
  induction m with
  | nil => simpa [Memory.put] using h
  | cons d m ih =>
    obtain ⟨y, e⟩ := d
    simp only [Memory.put] at h
    split at h
    · simpa using h
    · split at h
      · rcases List.mem_cons.mp h with h | h
        · exact .inl h
        · exact .inr (by simp [h])
      · rcases List.mem_cons.mp h with h | h
        · exact .inr (by simp [h])
        · rcases ih h with h | h
          · exact .inl h
          · exact .inr (by simp [h])

theorem Memory.mem_of_mem_drop {m : Memory} {a : Nat} {c : Host.Cell} (h : c ∈ Memory.drop a m) : c ∈ m := by
  induction m with
  | nil => simp [Memory.drop] at h
  | cons d m ih =>
    obtain ⟨y, e⟩ := d
    simp only [Memory.drop] at h
    split at h
    · simp [h]
    · rcases List.mem_cons.mp h with h | h
      · simp [h]
      · simp [ih h]

theorem Memory.wf_put {m : Memory} (hm : Memory.wf m = true) (a : Nat) {b : Byte} (hb : b ≠ Memory.unlisted) :
    Memory.wf (Memory.put a b m) = true := by
  induction m with
  | nil => simp [Memory.put, Memory.wf, hb]
  | cons c m ih =>
    obtain ⟨y, d⟩ := c
    obtain ⟨hlt, hd, hm'⟩ := Memory.wf_cons.mp hm
    simp only [Memory.put]
    split
    · rename_i h
      refine Memory.wf_cons.mpr ⟨?_, hb, hm⟩
      intro e he
      rcases List.mem_cons.mp he with rfl | he
      · exact h
      · have := hlt e he; simp only at *; omega
    · split
      · rename_i h
        refine Memory.wf_cons.mpr ⟨?_, hb, hm'⟩
        intro e he
        have := hlt e he; simp only at *; omega
      · refine Memory.wf_cons.mpr ⟨?_, hd, ih hm'⟩
        intro e he
        rcases Memory.mem_put he with rfl | he
        · simp only at *; omega
        · exact hlt e he

theorem Memory.wf_drop {m : Memory} (hm : Memory.wf m = true) (a : Nat) : Memory.wf (Memory.drop a m) = true := by
  induction m with
  | nil => simpa [Memory.drop] using hm
  | cons c m ih =>
    obtain ⟨y, d⟩ := c
    obtain ⟨hlt, hd, hm'⟩ := Memory.wf_cons.mp hm
    simp only [Memory.drop]
    split
    · exact hm'
    · exact Memory.wf_cons.mpr ⟨fun e he => hlt e (Memory.mem_of_mem_drop he), hd, ih hm'⟩

/-- A write keeps the canonical form. -/
theorem Memory.wf_write {m : Memory} (hm : Memory.wf m = true) (a : Nat) (b : Byte) :
    Memory.wf (Memory.write m a b) = true := by
  unfold Memory.write
  split
  · exact Memory.wf_drop hm a
  · exact Memory.wf_put hm a (by assumption)

theorem Memory.below_iff {limit : Nat} {m : Memory} : Memory.below limit m = true ↔ ∀ c ∈ m, c.1 < limit := by
  simp [Memory.below]

/-- A write below the limit keeps every cell below it. -/
theorem Memory.below_write {limit : Nat} {m : Memory} (hm : Memory.below limit m = true) {a : Nat} (ha : a < limit)
    (b : Byte) : Memory.below limit (Memory.write m a b) = true := by
  rw [Memory.below_iff] at hm ⊢
  intro c hc
  unfold Memory.write at hc
  split at hc
  · exact hm c (Memory.mem_of_mem_drop hc)
  · rcases Memory.mem_put hc with rfl | hc
    · exact ha
    · exact hm c hc

/-- Canonical memories that read the same are the same data. -/
theorem Memory.ext {m m' : Memory} (hm : Memory.wf m = true) (hm' : Memory.wf m' = true)
    (h : ∀ a, Memory.read m a = Memory.read m' a) : m = m' := by
  induction m generalizing m' with
  | nil =>
    cases m' with
    | nil => rfl
    | cons c m' =>
      obtain ⟨_, hc, _⟩ := Memory.wf_cons.mp hm'
      exact absurd (by simpa [Memory.read] using (h c.1).symm) hc
  | cons c m ih =>
    obtain ⟨hlt, hc, hmm⟩ := Memory.wf_cons.mp hm
    cases m' with
    | nil => exact absurd (by simpa [Memory.read] using h c.1) hc
    | cons d m' =>
      obtain ⟨hlt', hd, hmm'⟩ := Memory.wf_cons.mp hm'
      obtain ⟨x, b⟩ := c
      obtain ⟨y, e⟩ := d
      have hxy : x = y := by
        by_contra hne
        rcases Nat.lt_or_gt_of_ne hne with hl | hl
        · have h1 := h x
          rw [Memory.read_eq_unlisted_of_lt (m := (y, e) :: m')] at h1
          · exact hc (by simpa [Memory.read] using h1)
          · intro z hz
            rcases List.mem_cons.mp hz with rfl | hz
            · exact hl
            · have := hlt' z hz; simp only at *; omega
        · have h1 := h y
          rw [Memory.read_eq_unlisted_of_lt (m := (x, b) :: m)] at h1
          · exact hd (by simpa [Memory.read] using h1.symm)
          · intro z hz
            rcases List.mem_cons.mp hz with rfl | hz
            · exact hl
            · have := hlt z hz; simp only at *; omega
      subst hxy
      have hbe : b = e := by simpa [Memory.read] using h x
      subst hbe
      rw [ih hmm hmm']
      intro a
      by_cases hax : x = a
      · subst hax
        rw [Memory.read_eq_unlisted_of_lt hlt, Memory.read_eq_unlisted_of_lt hlt']
      · simpa [Memory.read, hax] using h a

/-! ## Blocks -/

@[simp] theorem Memory.length_readBlock (m : Memory) (a n : Nat) : (Memory.readBlock m a n).length = n := by
  induction n generalizing a with
  | zero => rfl
  | succ n ih => simp [Memory.readBlock, ih]

/-- Byte `i` of a block read is the byte at `a + i`. -/
theorem Memory.getElem_readBlock (m : Memory) (a n i : Nat) (h : i < (Memory.readBlock m a n).length) :
    (Memory.readBlock m a n)[i] = Memory.read m (a + i) := by
  induction n generalizing a i with
  | zero => simp at h
  | succ n ih =>
    cases i with
    | zero => rfl
    | succ i =>
      simp only [Memory.readBlock, List.getElem_cons_succ]
      rw [ih]
      congr 1
      omega

theorem Memory.wf_writeBlock {m : Memory} (hm : Memory.wf m = true) (a : Nat) (bs : List Byte) :
    Memory.wf (Memory.writeBlock m a bs) = true := by
  induction bs generalizing m a with
  | nil => exact hm
  | cons b bs ih => exact ih (Memory.wf_write hm a b) (a + 1)

theorem Memory.below_writeBlock {limit : Nat} {m : Memory} (hm : Memory.below limit m = true) {a : Nat} {bs : List Byte}
    (ha : a + bs.length ≤ limit) : Memory.below limit (Memory.writeBlock m a bs) = true := by
  induction bs generalizing m a with
  | nil => exact hm
  | cons b bs ih =>
    simp only [List.length_cons] at ha
    exact ih (Memory.below_write hm (by omega) b) (by omega)

/-- A block write stores exactly its bytes: byte `i` at `a + i`, and every other byte as it was. -/
theorem Memory.read_writeBlock {m : Memory} (hm : Memory.wf m = true) (a x : Nat) (bs : List Byte) :
    Memory.read (Memory.writeBlock m a bs) x
      = if a ≤ x ∧ x < a + bs.length then bs.getD (x - a) 0 else Memory.read m x := by
  induction bs generalizing m a with
  | nil => simp [Memory.writeBlock]
  | cons b bs ih =>
    rw [Memory.writeBlock, ih (Memory.wf_write hm a b), Memory.read_write hm]
    simp only [List.length_cons]
    by_cases h1 : a + 1 ≤ x ∧ x < a + 1 + bs.length
    · have h2 : a ≤ x ∧ x < a + (bs.length + 1) := by omega
      rw [if_pos h1, if_pos h2, show x - a = (x - (a + 1)) + 1 by omega]
      simp
    · rw [if_neg h1]
      by_cases h3 : a = x
      · subst h3
        simp
      · have h2 : ¬ (a ≤ x ∧ x < a + (bs.length + 1)) := by omega
        rw [if_neg h3, if_neg h2]

theorem Memory.wf_writeLanded {m : Memory} (hm : Memory.wf m = true) (a : Nat) (bs : List Byte) (ls : List Bool) :
    Memory.wf (Memory.writeLanded m a bs ls) = true := by
  induction bs generalizing m a ls with
  | nil => exact hm
  | cons b bs ih =>
    cases ls with
    | nil => exact hm
    | cons l ls =>
      refine ih ?_ (a + 1) ls
      cases l
      · exact hm
      · exact Memory.wf_write hm a b

theorem Memory.below_writeLanded {limit : Nat} {m : Memory} (hm : Memory.below limit m = true) {a : Nat} {bs : List Byte}
    (ls : List Bool) (ha : a + bs.length ≤ limit) : Memory.below limit (Memory.writeLanded m a bs ls) = true := by
  induction bs generalizing m a ls with
  | nil => exact hm
  | cons b bs ih =>
    cases ls with
    | nil => exact hm
    | cons l ls =>
      simp only [List.length_cons] at ha
      refine ih ?_ ls (by omega)
      cases l
      · exact hm
      · exact Memory.below_write hm (by omega) b

/-- A failed write: the bytes that landed are new, every other byte is as it was (R150). -/
theorem Memory.read_writeLanded {m : Memory} (hm : Memory.wf m = true) (a x : Nat) (bs : List Byte) (ls : List Bool) :
    Memory.read (Memory.writeLanded m a bs ls) x
      = if a ≤ x ∧ x < a + bs.length ∧ ls.getD (x - a) false = true then bs.getD (x - a) 0 else Memory.read m x := by
  induction bs generalizing m a ls with
  | nil => simp [Memory.writeLanded]; omega
  | cons b bs ih =>
    cases ls with
    | nil => simp [Memory.writeLanded]
    | cons l ls =>
      have hm' : Memory.wf (if l then Memory.write m a b else m) = true := by
        cases l
        · exact hm
        · exact Memory.wf_write hm a b
      have hr : Memory.read (if l then Memory.write m a b else m) x
          = if a = x ∧ l = true then b else Memory.read m x := by
        cases l <;> simp [Memory.read_write hm]
      rw [Memory.writeLanded, ih hm', hr]
      simp only [List.length_cons]
      by_cases h1 : a + 1 ≤ x
      · have h3 : x - a = (x - (a + 1)) + 1 := by omega
        have h4 : ¬ a = x := by omega
        have h5 : a ≤ x := by omega
        have h6 : x < a + 1 + bs.length ↔ x < a + (bs.length + 1) := by omega
        simp [h1, h3, h4, h5, h6]
      · by_cases h3 : a = x
        · subst h3
          simp
        · have h4 : ¬ a ≤ x := by omega
          simp [h1, h3, h4]

theorem Memory.wf_pokeAll {limit : Nat} {m : Memory} (hm : Memory.wf m = true) (ws : List (Nat × Byte)) :
    Memory.wf (Memory.pokeAll limit m ws) = true := by
  induction ws generalizing m with
  | nil => exact hm
  | cons w ws ih =>
    obtain ⟨a, b⟩ := w
    refine ih ?_
    split
    · exact Memory.wf_write hm a b
    · exact hm

theorem Memory.below_pokeAll {limit : Nat} {m : Memory} (hm : Memory.below limit m = true) (ws : List (Nat × Byte)) :
    Memory.below limit (Memory.pokeAll limit m ws) = true := by
  induction ws generalizing m with
  | nil => exact hm
  | cons w ws ih =>
    obtain ⟨a, b⟩ := w
    refine ih ?_
    split
    · exact Memory.below_write hm (by assumption) b
    · exact hm

end Sys2Proof.Machine
end

