-- ==== Sys2Proof/Laws/State.lean ====
section
/-! SUPPORT. What each named update of the state does to each field, tagged for simp, so that no proof unfolds an update. -/

namespace Sys2Proof.Machine

variable (s : State)

/-! ## respond -/

@[simp] theorem respond_cfg (r : Response) : (respond r s).cfg = s.cfg := rfl
@[simp] theorem respond_pt (r : Response) : (respond r s).pt = s.pt := rfl
@[simp] theorem respond_ph (r : Response) : (respond r s).ph = s.ph := rfl
@[simp] theorem respond_cmd (r : Response) : (respond r s).cmd = s.cmd := rfl
@[simp] theorem respond_pay (r : Response) : (respond r s).pay = s.pay := rfl
@[simp] theorem respond_rsp (r : Response) : (respond r s).rsp = r := rfl
@[simp] theorem respond_lat (r : Response) : (respond r s).lat = s.lat := rfl
@[simp] theorem respond_mem (r : Response) : (respond r s).mem = s.mem := rfl
@[simp] theorem respond_port (r : Response) : (respond r s).port = s.port := rfl
@[simp] theorem respond_pending (r : Response) : (respond r s).pending = s.pending := rfl
@[simp] theorem respond_inputs (r : Response) : (respond r s).inputs = s.inputs := rfl
@[simp] theorem respond_free (r : Response) : (respond r s).free = s.free := rfl

/-! ## setTable -/

@[simp] theorem setTable_cfg (t : PartitionTable) : (setTable t s).cfg = s.cfg := rfl
@[simp] theorem setTable_pt (t : PartitionTable) : (setTable t s).pt = t := rfl
@[simp] theorem setTable_ph (t : PartitionTable) : (setTable t s).ph = s.ph := rfl
@[simp] theorem setTable_cmd (t : PartitionTable) : (setTable t s).cmd = s.cmd := rfl
@[simp] theorem setTable_pay (t : PartitionTable) : (setTable t s).pay = s.pay := rfl
@[simp] theorem setTable_rsp (t : PartitionTable) : (setTable t s).rsp = s.rsp := rfl
@[simp] theorem setTable_lat (t : PartitionTable) : (setTable t s).lat = s.lat := rfl
@[simp] theorem setTable_mem (t : PartitionTable) : (setTable t s).mem = s.mem := rfl
@[simp] theorem setTable_port (t : PartitionTable) : (setTable t s).port = s.port := rfl
@[simp] theorem setTable_pending (t : PartitionTable) : (setTable t s).pending = s.pending := rfl
@[simp] theorem setTable_inputs (t : PartitionTable) : (setTable t s).inputs = s.inputs := rfl
@[simp] theorem setTable_free (t : PartitionTable) : (setTable t s).free = s.free := rfl

/-! ## setMem -/

@[simp] theorem setMem_cfg (m : Memory) : (setMem m s).cfg = s.cfg := rfl
@[simp] theorem setMem_pt (m : Memory) : (setMem m s).pt = s.pt := rfl
@[simp] theorem setMem_ph (m : Memory) : (setMem m s).ph = s.ph := rfl
@[simp] theorem setMem_cmd (m : Memory) : (setMem m s).cmd = s.cmd := rfl
@[simp] theorem setMem_pay (m : Memory) : (setMem m s).pay = s.pay := rfl
@[simp] theorem setMem_rsp (m : Memory) : (setMem m s).rsp = s.rsp := rfl
@[simp] theorem setMem_lat (m : Memory) : (setMem m s).lat = s.lat := rfl
@[simp] theorem setMem_mem (m : Memory) : (setMem m s).mem = m := rfl
@[simp] theorem setMem_port (m : Memory) : (setMem m s).port = s.port := rfl
@[simp] theorem setMem_pending (m : Memory) : (setMem m s).pending = s.pending := rfl
@[simp] theorem setMem_inputs (m : Memory) : (setMem m s).inputs = s.inputs := rfl
@[simp] theorem setMem_free (m : Memory) : (setMem m s).free = s.free := rfl

/-! ## reply -/

@[simp] theorem reply_cfg (r : Reply) : (reply r s).cfg = s.cfg := rfl
@[simp] theorem reply_pt (r : Reply) : (reply r s).pt = s.pt := rfl
@[simp] theorem reply_ph (r : Reply) : (reply r s).ph = s.ph := rfl
@[simp] theorem reply_cmd (r : Reply) : (reply r s).cmd = s.cmd := rfl
@[simp] theorem reply_pay (r : Reply) : (reply r s).pay = s.pay := rfl
@[simp] theorem reply_rsp (r : Reply) : (reply r s).rsp = s.rsp := rfl
@[simp] theorem reply_lat (r : Reply) : (reply r s).lat = s.lat := rfl
@[simp] theorem reply_mem (r : Reply) : (reply r s).mem = s.mem := rfl
@[simp] theorem reply_port (r : Reply) : (reply r s).port = { s.port with reply := r } := rfl
@[simp] theorem reply_pending (r : Reply) : (reply r s).pending = s.pending := rfl
@[simp] theorem reply_inputs (r : Reply) : (reply r s).inputs = s.inputs := rfl
@[simp] theorem reply_free (r : Reply) : (reply r s).free = s.free := rfl

/-! ## putOnPort -/

@[simp] theorem putOnPort_cfg (w : List Byte) (v : Verdict) : (putOnPort w v s).cfg = s.cfg := rfl
@[simp] theorem putOnPort_pt (w : List Byte) (v : Verdict) : (putOnPort w v s).pt = s.pt := rfl
@[simp] theorem putOnPort_ph (w : List Byte) (v : Verdict) : (putOnPort w v s).ph = s.ph := rfl
@[simp] theorem putOnPort_cmd (w : List Byte) (v : Verdict) : (putOnPort w v s).cmd = s.cmd := rfl
@[simp] theorem putOnPort_pay (w : List Byte) (v : Verdict) : (putOnPort w v s).pay = s.pay := rfl
@[simp] theorem putOnPort_rsp (w : List Byte) (v : Verdict) : (putOnPort w v s).rsp = s.rsp := rfl
@[simp] theorem putOnPort_lat (w : List Byte) (v : Verdict) : (putOnPort w v s).lat = s.lat := rfl
@[simp] theorem putOnPort_mem (w : List Byte) (v : Verdict) : (putOnPort w v s).mem = s.mem := rfl
@[simp] theorem putOnPort_port (w : List Byte) (v : Verdict) : (putOnPort w v s).port = { s.port with wdata := w, verdict := v } := rfl
@[simp] theorem putOnPort_pending (w : List Byte) (v : Verdict) : (putOnPort w v s).pending = s.pending := rfl
@[simp] theorem putOnPort_inputs (w : List Byte) (v : Verdict) : (putOnPort w v s).inputs = s.inputs := rfl
@[simp] theorem putOnPort_free (w : List Byte) (v : Verdict) : (putOnPort w v s).free = s.free := rfl

/-! ## moveTo -/

@[simp] theorem moveTo_cfg (p : Phase) (l : Latches) : (moveTo p l s).cfg = s.cfg := rfl
@[simp] theorem moveTo_pt (p : Phase) (l : Latches) : (moveTo p l s).pt = s.pt := rfl
@[simp] theorem moveTo_ph (p : Phase) (l : Latches) : (moveTo p l s).ph = p := rfl
@[simp] theorem moveTo_cmd (p : Phase) (l : Latches) : (moveTo p l s).cmd = s.cmd := rfl
@[simp] theorem moveTo_pay (p : Phase) (l : Latches) : (moveTo p l s).pay = s.pay := rfl
@[simp] theorem moveTo_rsp (p : Phase) (l : Latches) : (moveTo p l s).rsp = s.rsp := rfl
@[simp] theorem moveTo_lat (p : Phase) (l : Latches) : (moveTo p l s).lat = l := rfl
@[simp] theorem moveTo_mem (p : Phase) (l : Latches) : (moveTo p l s).mem = s.mem := rfl
@[simp] theorem moveTo_port (p : Phase) (l : Latches) : (moveTo p l s).port = s.port := rfl
@[simp] theorem moveTo_pending (p : Phase) (l : Latches) : (moveTo p l s).pending = s.pending := rfl
@[simp] theorem moveTo_inputs (p : Phase) (l : Latches) : (moveTo p l s).inputs = s.inputs := rfl
@[simp] theorem moveTo_free (p : Phase) (l : Latches) : (moveTo p l s).free = s.free := rfl

/-! ## latchCommand -/

@[simp] theorem latchCommand_cfg (c : Presented) : (latchCommand c s).cfg = s.cfg := rfl
@[simp] theorem latchCommand_pt (c : Presented) : (latchCommand c s).pt = s.pt := rfl
@[simp] theorem latchCommand_ph (c : Presented) : (latchCommand c s).ph = s.ph := rfl
@[simp] theorem latchCommand_cmd (c : Presented) : (latchCommand c s).cmd = c.word := rfl
@[simp] theorem latchCommand_pay (c : Presented) : (latchCommand c s).pay = c.pay := rfl
@[simp] theorem latchCommand_rsp (c : Presented) : (latchCommand c s).rsp = s.rsp := rfl
@[simp] theorem latchCommand_lat (c : Presented) : (latchCommand c s).lat = s.lat := rfl
@[simp] theorem latchCommand_mem (c : Presented) : (latchCommand c s).mem = s.mem := rfl
@[simp] theorem latchCommand_port (c : Presented) : (latchCommand c s).port = s.port := rfl
@[simp] theorem latchCommand_pending (c : Presented) : (latchCommand c s).pending = s.pending := rfl
@[simp] theorem latchCommand_inputs (c : Presented) : (latchCommand c s).inputs = s.inputs := rfl
@[simp] theorem latchCommand_free (c : Presented) : (latchCommand c s).free = s.free := rfl

/-! ## startTransfer -/

@[simp] theorem startTransfer_cfg (sl : Slice) (b : List Byte) : (startTransfer sl b s).cfg = s.cfg := rfl
@[simp] theorem startTransfer_pt (sl : Slice) (b : List Byte) : (startTransfer sl b s).pt = s.pt := rfl
@[simp] theorem startTransfer_ph (sl : Slice) (b : List Byte) : (startTransfer sl b s).ph = .rdHi := rfl
@[simp] theorem startTransfer_cmd (sl : Slice) (b : List Byte) : (startTransfer sl b s).cmd = s.cmd := rfl
@[simp] theorem startTransfer_pay (sl : Slice) (b : List Byte) : (startTransfer sl b s).pay = s.pay := rfl
@[simp] theorem startTransfer_rsp (sl : Slice) (b : List Byte) : (startTransfer sl b s).rsp = s.rsp := rfl
@[simp] theorem startTransfer_lat (sl : Slice) (b : List Byte) : (startTransfer sl b s).lat = { s.lat with slice := sl, buf := b } := rfl
@[simp] theorem startTransfer_mem (sl : Slice) (b : List Byte) : (startTransfer sl b s).mem = s.mem := rfl
@[simp] theorem startTransfer_port (sl : Slice) (b : List Byte) : (startTransfer sl b s).port = s.port := rfl
@[simp] theorem startTransfer_pending (sl : Slice) (b : List Byte) : (startTransfer sl b s).pending = s.pending := rfl
@[simp] theorem startTransfer_inputs (sl : Slice) (b : List Byte) : (startTransfer sl b s).inputs = s.inputs := rfl
@[simp] theorem startTransfer_free (sl : Slice) (b : List Byte) : (startTransfer sl b s).free = s.free := rfl

/-! ## quiesce, raise, finish -/

@[simp] theorem quiesce_cfg : (quiesce s).cfg = s.cfg := by unfold quiesce; split <;> rfl
@[simp] theorem quiesce_pt : (quiesce s).pt = s.pt := by unfold quiesce; split <;> rfl
@[simp] theorem quiesce_cmd : (quiesce s).cmd = s.cmd := by unfold quiesce; split <;> rfl
@[simp] theorem quiesce_pay : (quiesce s).pay = s.pay := by unfold quiesce; split <;> rfl
@[simp] theorem quiesce_mem : (quiesce s).mem = s.mem := by unfold quiesce; split <;> rfl
@[simp] theorem quiesce_port : (quiesce s).port = s.port := by unfold quiesce; split <;> rfl
@[simp] theorem quiesce_pending : (quiesce s).pending = s.pending := by unfold quiesce; split <;> rfl
@[simp] theorem quiesce_inputs : (quiesce s).inputs = s.inputs := by unfold quiesce; split <;> rfl
@[simp] theorem quiesce_rsp : (quiesce s).rsp = s.rsp := by unfold quiesce; split <;> rfl
@[simp] theorem quiesce_ph : (quiesce s).ph = .idle := by
  unfold quiesce; split
  · assumption
  · rfl

/-- An operation that never left `IDLE` changes no latch. -/
theorem quiesce_idle (h : s.ph = .idle) : quiesce s = s := by unfold quiesce; rw [h]

@[simp] theorem raise_cfg (k : ErrorKind) : (raise k s).cfg = s.cfg := by simp [raise]
@[simp] theorem raise_pt (k : ErrorKind) : (raise k s).pt = s.pt := by simp [raise]
@[simp] theorem raise_cmd (k : ErrorKind) : (raise k s).cmd = s.cmd := by simp [raise]
@[simp] theorem raise_pay (k : ErrorKind) : (raise k s).pay = s.pay := by simp [raise]
@[simp] theorem raise_mem (k : ErrorKind) : (raise k s).mem = s.mem := by simp [raise]
@[simp] theorem raise_port (k : ErrorKind) : (raise k s).port = s.port := by simp [raise]
@[simp] theorem raise_pending (k : ErrorKind) : (raise k s).pending = s.pending := by simp [raise]
@[simp] theorem raise_inputs (k : ErrorKind) : (raise k s).inputs = s.inputs := by simp [raise]
@[simp] theorem raise_ph (k : ErrorKind) : (raise k s).ph = .idle := by simp [raise]
@[simp] theorem raise_rsp (k : ErrorKind) : (raise k s).rsp = Response.failed k := rfl
@[simp] theorem finish_cfg (r : Response) : (finish r s).cfg = s.cfg := by simp [finish]
@[simp] theorem finish_pt (r : Response) : (finish r s).pt = s.pt := by simp [finish]
@[simp] theorem finish_cmd (r : Response) : (finish r s).cmd = s.cmd := by simp [finish]
@[simp] theorem finish_pay (r : Response) : (finish r s).pay = s.pay := by simp [finish]
@[simp] theorem finish_mem (r : Response) : (finish r s).mem = s.mem := by simp [finish]
@[simp] theorem finish_port (r : Response) : (finish r s).port = s.port := by simp [finish]
@[simp] theorem finish_pending (r : Response) : (finish r s).pending = s.pending := by simp [finish]
@[simp] theorem finish_inputs (r : Response) : (finish r s).inputs = s.inputs := by simp [finish]
@[simp] theorem finish_ph (r : Response) : (finish r s).ph = .idle := by simp [finish]
@[simp] theorem finish_rsp (r : Response) : (finish r s).rsp = r := rfl

/-- Taking an error in `IDLE` changes the response and nothing else (R166). -/
theorem raise_idle (k : ErrorKind) (h : s.ph = .idle) : raise k s = respond (Response.failed k) s := by
  unfold raise; rw [quiesce_idle s h]

/-! ## resetCbat -/

@[simp] theorem resetCbat_cfg : (resetCbat s).cfg = s.cfg := rfl
@[simp] theorem resetCbat_pt : (resetCbat s).pt = PartitionTable.reset s.cfg := rfl
@[simp] theorem resetCbat_ph : (resetCbat s).ph = .idle := rfl
@[simp] theorem resetCbat_cmd : (resetCbat s).cmd = Config.freeCommand s.free := rfl
@[simp] theorem resetCbat_pay : (resetCbat s).pay = Config.freePayload s.free := rfl
@[simp] theorem resetCbat_rsp : (resetCbat s).rsp = Config.freeResponse s.free := rfl
@[simp] theorem resetCbat_lat : (resetCbat s).lat = Config.freeLatches s.free := rfl
@[simp] theorem resetCbat_mem : (resetCbat s).mem = s.mem := rfl
@[simp] theorem resetCbat_port : (resetCbat s).port = s.port := rfl
@[simp] theorem resetCbat_pending : (resetCbat s).pending = s.pending := rfl
@[simp] theorem resetCbat_inputs : (resetCbat s).inputs = s.inputs := rfl
@[simp] theorem resetCbat_free : (resetCbat s).free = s.free + 1 := rfl

/-! ## What the command fields read does not depend on the other fields -/

@[simp] theorem respond_cmdDir (r : Response) : (respond r s).cmdDir = s.cmdDir := rfl
@[simp] theorem respond_cmdCh (r : Response) : (respond r s).cmdCh = s.cmdCh := rfl
@[simp] theorem respond_cmdLen (r : Response) : (respond r s).cmdLen = s.cmdLen := rfl
@[simp] theorem setTable_cmdDir (t : PartitionTable) : (setTable t s).cmdDir = s.cmdDir := rfl
@[simp] theorem setTable_cmdCh (t : PartitionTable) : (setTable t s).cmdCh = s.cmdCh := rfl
@[simp] theorem setTable_cmdLen (t : PartitionTable) : (setTable t s).cmdLen = s.cmdLen := rfl
@[simp] theorem setMem_cmdDir (m : Memory) : (setMem m s).cmdDir = s.cmdDir := rfl
@[simp] theorem setMem_cmdCh (m : Memory) : (setMem m s).cmdCh = s.cmdCh := rfl
@[simp] theorem setMem_cmdLen (m : Memory) : (setMem m s).cmdLen = s.cmdLen := rfl
@[simp] theorem reply_cmdDir (r : Reply) : (reply r s).cmdDir = s.cmdDir := rfl
@[simp] theorem reply_cmdCh (r : Reply) : (reply r s).cmdCh = s.cmdCh := rfl
@[simp] theorem reply_cmdLen (r : Reply) : (reply r s).cmdLen = s.cmdLen := rfl
@[simp] theorem putOnPort_cmdDir (w : List Byte) (v : Verdict) : (putOnPort w v s).cmdDir = s.cmdDir := rfl
@[simp] theorem putOnPort_cmdCh (w : List Byte) (v : Verdict) : (putOnPort w v s).cmdCh = s.cmdCh := rfl
@[simp] theorem putOnPort_cmdLen (w : List Byte) (v : Verdict) : (putOnPort w v s).cmdLen = s.cmdLen := rfl
@[simp] theorem moveTo_cmdDir (p : Phase) (l : Latches) : (moveTo p l s).cmdDir = s.cmdDir := rfl
@[simp] theorem moveTo_cmdCh (p : Phase) (l : Latches) : (moveTo p l s).cmdCh = s.cmdCh := rfl
@[simp] theorem moveTo_cmdLen (p : Phase) (l : Latches) : (moveTo p l s).cmdLen = s.cmdLen := rfl
@[simp] theorem startTransfer_cmdDir (sl : Slice) (b : List Byte) : (startTransfer sl b s).cmdDir = s.cmdDir := rfl
@[simp] theorem startTransfer_cmdCh (sl : Slice) (b : List Byte) : (startTransfer sl b s).cmdCh = s.cmdCh := rfl
@[simp] theorem startTransfer_cmdLen (sl : Slice) (b : List Byte) : (startTransfer sl b s).cmdLen = s.cmdLen := rfl

end Sys2Proof.Machine
end

