-- ==== Sys2Proof/Laws/Ops.lean ====
section
/-! SUPPORT. What each shared operation can do, said once: the lookup, the error exit, the bus transactions, the four primitives, the checks of a
transfer. -/

namespace Sys2Proof.Machine

variable {s t : State}

/-! ## The lookup -/

theorem getSlice_of_known {d : Dir} {ch : Chan} (h : s.unknownChannel ch = false) :
    getSlice d ch s = .ok (s.pt.entry d ch.toNat) := by
  simp [getSlice, h]

theorem getSlice_of_unknown {d : Dir} {ch : Chan} (h : s.unknownChannel ch = true) :
    getSlice d ch s = .error .unknownChannelError := by
  simp [getSlice, h]

@[simp] theorem orRaise_ok {α : Type} (a : α) (go : α → Result) : orRaise (.ok a) s go = go a := rfl

@[simp] theorem orRaise_error {α : Type} (k : ErrorKind) (go : α → Result) :
    orRaise (.error k : Except ErrorKind α) s go = .next (raise k s) := rfl

/-! ## Bus transactions -/

/-- Everything a read transaction can answer. -/
theorem busRead_cases (addr n : Nat) (s : State) :
    (s.cfg.pmemSize < addr + n ∧ busRead addr n s = .fault (.addressOutsidePMem (addr + n - 1)))
    ∨ (addr + n ≤ s.cfg.pmemSize ∧ s.port.verdict = .ok
        ∧ busRead addr n s = .next (reply (.ok (Memory.readBlock s.mem addr n)) s))
    ∨ (addr + n ≤ s.cfg.pmemSize ∧ (∃ landed, s.port.verdict = .fail landed) ∧ busRead addr n s = .next (reply .fail s)) := by
  unfold busRead
  by_cases h : s.cfg.pmemSize < addr + n
  · exact .inl ⟨h, by simp [h]⟩
  · cases hv : s.port.verdict with
    | ok => exact .inr (.inl ⟨by omega, rfl, by simp [h]⟩)
    | fail landed => exact .inr (.inr ⟨by omega, ⟨landed, rfl⟩, by simp [h]⟩)

/-- Everything a write transaction can answer. -/
theorem busWrite_cases (addr n : Nat) (s : State) :
    (s.port.wdata.length ≠ n ∧ busWrite addr n s = .refused .writeDataNotOfLength)
    ∨ (s.port.wdata.length = n ∧ s.cfg.pmemSize < addr + n
        ∧ busWrite addr n s = .fault (.addressOutsidePMem (addr + n - 1)))
    ∨ (s.port.wdata.length = n ∧ addr + n ≤ s.cfg.pmemSize ∧ s.port.verdict = .ok
        ∧ busWrite addr n s = .next (reply (.ok []) (setMem (Memory.writeBlock s.mem addr s.port.wdata) s)))
    ∨ (s.port.wdata.length = n ∧ addr + n ≤ s.cfg.pmemSize ∧ ∃ landed, s.port.verdict = .fail landed
        ∧ busWrite addr n s
          = .next (reply .fail (setMem (Memory.writeLanded s.mem addr s.port.wdata landed) s))) := by
  unfold busWrite
  by_cases hn : s.port.wdata.length ≠ n
  · exact .inl ⟨hn, by simp [hn]⟩
  · have hn' : s.port.wdata.length = n := by omega
    by_cases h : s.cfg.pmemSize < addr + n
    · exact .inr (.inl ⟨hn', h, by simp [hn', h]⟩)
    · cases hv : s.port.verdict with
      | ok => exact .inr (.inr (.inl ⟨hn', by omega, rfl, by simp [hn', h]⟩))
      | fail landed => exact .inr (.inr (.inr ⟨hn', by omega, landed, rfl, by simp [hn', h]⟩))

/-- A request of the Transport port decodes to a primitive, never to a command. -/
theorem isPrimitive_of_decodeRequest {w n : Nat} {i : Instr} (h : decodeRequest n w = .ok i) : isTransportPrimitive i := by
  unfold decodeRequest at h
  repeat' split at h
  all_goals cases h
  all_goals trivial

/-- A primitive that answers a next state has changed `PMem` and the port only. -/
theorem exec_primitive_frame {i : Instr} (hi : isTransportPrimitive i) (h : exec i s = .next t) :
    t = { s with mem := t.mem, port := t.port } := by
  have hr : ∀ a n, busRead a n s = .next t → t = { s with mem := t.mem, port := t.port } := by
    intro a n h
    rcases busRead_cases a n s with ⟨_, e⟩ | ⟨_, _, e⟩ | ⟨_, _, e⟩ <;> rw [e] at h <;> cases h <;> rfl
  have hw : ∀ a n, busWrite a n s = .next t → t = { s with mem := t.mem, port := t.port } := by
    intro a n h
    rcases busWrite_cases a n s with ⟨_, e⟩ | ⟨_, _, e⟩ | ⟨_, _, _, e⟩ | ⟨_, _, _, _, e⟩ <;> rw [e] at h <;> cases h <;> rfl
  cases i with
  | rdReg a => exact hr _ _ h
  | wrReg a => exact hw _ _ h
  | rdBlk a n => exact hr _ _ h
  | wrBlk a n => exact hw _ _ h
  | _ => exact absurd hi (by simp)

/-- A primitive keeps `PMem` canonical and inside its address space. -/
theorem exec_primitive_memSound {i : Instr} (hi : isTransportPrimitive i) (hm : memSound s = true) (h : exec i s = .next t) :
    memSound t = true := by
  simp only [memSound, Bool.and_eq_true] at hm ⊢
  have hr : ∀ a n, busRead a n s = .next t → Memory.wf t.mem = true ∧ Memory.below t.cfg.pmemSize t.mem = true := by
    intro a n h
    rcases busRead_cases a n s with ⟨_, e⟩ | ⟨_, _, e⟩ | ⟨_, _, e⟩ <;> rw [e] at h <;> cases h <;> exact hm
  have hw : ∀ a n, busWrite a n s = .next t → Memory.wf t.mem = true ∧ Memory.below t.cfg.pmemSize t.mem = true := by
    intro a n h
    rcases busWrite_cases a n s with ⟨_, e⟩ | ⟨_, _, e⟩ | ⟨hl, ha, _, e⟩ | ⟨hl, ha, landed, _, e⟩ <;> rw [e] at h <;> cases h
    · exact ⟨Memory.wf_writeBlock hm.1 _ _, Memory.below_writeBlock hm.2 (by rw [hl]; exact ha)⟩
    · exact ⟨Memory.wf_writeLanded hm.1 _ _ _, Memory.below_writeLanded hm.2 _ (by rw [hl]; exact ha)⟩
  cases i with
  | rdReg a => exact hr _ _ h
  | wrReg a => exact hw _ _ h
  | rdBlk a n => exact hr _ _ h
  | wrBlk a n => exact hw _ _ h
  | _ => exact absurd hi (by simp)

/-- The primitive CBAT has outstanding is one of the four. -/
theorem isPrimitive_of_requestOf {i : Instr} {w : List Byte} (h : requestOf s = some (i, w)) : isTransportPrimitive i := by
  have hs : ∀ d buf pos sg, segmentRequest d buf pos sg = (i, w) → isTransportPrimitive i := by
    intro d buf pos sg h
    cases d <;> simp only [segmentRequest, Prod.mk.injEq] at h <;> rw [← h.1] <;> trivial
  unfold requestOf at h
  repeat' split at h
  all_goals first | cases h | skip
  all_goals first
    | exact hs _ _ _ _ (Option.some.inj h)
    | trivial

/-! ## The checks of a transfer -/

/-- Everything the checks of R126 can answer, in their order. -/
theorem beginTransfer_cases (d : Dir) (ch : Chan) (len : Half) (buf : List Byte) (s : State) :
    (s.unknownChannel ch = true ∧ beginTransfer d ch len buf s = .next (raise .unknownChannelError s))
    ∨ (s.unknownChannel ch = false ∧ len = 0#16 ∧ beginTransfer d ch len buf s = .next (respond (Response.ofData []) s))
    ∨ (s.unknownChannel ch = false ∧ len ≠ 0#16 ∧ (s.pt.entry d ch.toNat).size.toNat < len.toNat
        ∧ beginTransfer d ch len buf s = .next (raise .lengthError s))
    ∨ (s.unknownChannel ch = false ∧ len ≠ 0#16 ∧ len.toNat ≤ (s.pt.entry d ch.toNat).size.toNat
        ∧ sliceFits s.cfg d (s.pt.entry d ch.toNat) = false
        ∧ beginTransfer d ch len buf s = .refused .sliceDoesNotFit)
    ∨ (s.unknownChannel ch = false ∧ len ≠ 0#16 ∧ len.toNat ≤ (s.pt.entry d ch.toNat).size.toNat
        ∧ sliceFits s.cfg d (s.pt.entry d ch.toNat) = true
        ∧ beginTransfer d ch len buf s = .next (startTransfer (s.pt.entry d ch.toNat) buf s)) := by
  unfold beginTransfer
  cases hc : s.unknownChannel ch with
  | true => exact .inl ⟨rfl, by simp [getSlice_of_unknown hc]⟩
  | false =>
    rw [getSlice_of_known hc, orRaise_ok]
    by_cases h0 : len = 0#16
    · exact .inr (.inl ⟨rfl, h0, by simp [h0]⟩)
    · by_cases h1 : (s.pt.entry d ch.toNat).size.toNat < len.toNat
      · exact .inr (.inr (.inl ⟨rfl, h0, h1, by simp [h0, h1]⟩))
      · cases hf : sliceFits s.cfg d (s.pt.entry d ch.toNat) with
        | false => exact .inr (.inr (.inr (.inl ⟨rfl, h0, by omega, rfl, by simp [h0, h1]⟩)))
        | true => exact .inr (.inr (.inr (.inr ⟨rfl, h0, by omega, rfl, by simp [h0, h1]⟩)))

/-! ## CBAT's side of a turn -/

/-- Everything a Transport turn can do, when it answers a next state. -/
theorem transportTurn_cases {v : Verdict} (h : transportTurn v s = .next t) :
    (requestOf s = none ∧ t = s)
    ∨ ∃ i w u, requestOf s = some (i, w) ∧ exec i (putOnPort w v s) = .next u ∧ t = advance u := by
  unfold transportTurn at h
  cases hr : requestOf s with
  | none => rw [hr] at h; cases h; exact .inl ⟨rfl, rfl⟩
  | some p =>
    obtain ⟨i, w⟩ := p
    rw [hr] at h
    dsimp only at h
    split at h
    · rename_i u hu
      cases h
      exact .inr ⟨i, w, u, rfl, hu, rfl⟩
    · cases h
    · cases h

end Sys2Proof.Machine
end

