-- ==== Sys2Proof/Laws/Planner.lean ====
section
/-! SUPPORT. The arithmetic of the translator and the planner for a slice whose size is a power of two at most `2^15` (00_scope.md R9;
41_address_translator.md R102, R103; 42_transfer_planner.md R110, R112, R116). -/

namespace Sys2Proof.Machine

/-- A legal size, as a power of two. -/
theorem exists_pow_of_isSliceSize {n : Nat} (h : isSliceSize n = true) : ∃ j, j ≤ 15 ∧ n = 2 ^ j := by
  simp only [isSliceSize, List.any_eq_true, List.mem_range, beq_iff_eq] at h
  obtain ⟨j, hj, rfl⟩ := h
  exact ⟨j, by omega, rfl⟩

theorem isSliceSize_pos {n : Nat} (h : isSliceSize n = true) : 0 < n := by
  obtain ⟨j, _, rfl⟩ := exists_pow_of_isSliceSize h
  exact Nat.two_pow_pos j

theorem isSliceSize_le {n : Nat} (h : isSliceSize n = true) : n ≤ 32768 := by
  obtain ⟨j, hj, rfl⟩ := exists_pow_of_isSliceSize h
  calc 2 ^ j ≤ 2 ^ 15 := Nat.pow_le_pow_right (by norm_num) hj
    _ = 32768 := by norm_num

/-- A legal size divides 65536. -/
theorem isSliceSize_dvd {n : Nat} (h : isSliceSize n = true) : n ∣ 65536 := by
  obtain ⟨j, hj, rfl⟩ := exists_pow_of_isSliceSize h
  rw [show (65536 : Nat) = 2 ^ 16 by norm_num]
  exact Nat.pow_dvd_pow 2 (by omega)

/-- The mask is the remainder: `p & (s - 1) = p mod s` (R100, R103 (a)). -/
theorem toNat_offsetOf {sl : Slice} (h : isSliceSize sl.size.toNat = true) (p : Half) :
    (offsetOf sl p).toNat = p.toNat % sl.size.toNat := by
  obtain ⟨j, hj, hs⟩ := exists_pow_of_isSliceSize h
  have hpos := isSliceSize_pos h
  have hsub : (sl.size - 1).toNat = sl.size.toNat - 1 := by
    rw [BitVec.toNat_sub_of_le]
    · rfl
    · rw [BitVec.le_def]
      exact hpos
  rw [offsetOf, BitVec.toNat_and, hsub, hs, Nat.and_two_pow_sub_one_eq_mod]

theorem offsetOf_lt {sl : Slice} (h : isSliceSize sl.size.toNat = true) (p : Half) :
    (offsetOf sl p).toNat < sl.size.toNat := by
  rw [toNat_offsetOf h]
  exact Nat.mod_lt _ (isSliceSize_pos h)

/-- The two forms of a plan that is not empty (R112), with the lengths as natural numbers. -/
theorem splitSegments_cases {sl : Slice} (h : isSliceSize sl.size.toNat = true) (p : Half) (len : Half) :
    ((offsetOf sl p).toNat + len.toNat ≤ sl.size.toNat
      ∧ splitSegments sl (offsetOf sl p) len = [⟨sl.base + (offsetOf sl p).toNat, len⟩])
    ∨ (sl.size.toNat < (offsetOf sl p).toNat + len.toNat
      ∧ ∃ l1 l2 : Half, splitSegments sl (offsetOf sl p) len = [⟨sl.base + (offsetOf sl p).toNat, l1⟩, ⟨sl.base, l2⟩]
        ∧ l1.toNat = sl.size.toNat - (offsetOf sl p).toNat
        ∧ l2.toNat = len.toNat - (sl.size.toNat - (offsetOf sl p).toNat)) := by
  have ho := offsetOf_lt h p
  by_cases hw : sl.size.toNat < (offsetOf sl p).toNat + len.toNat
  · refine .inr ⟨hw, sl.size - offsetOf sl p, len - (sl.size - offsetOf sl p), ?_, ?_, ?_⟩
    · simp [splitSegments, wraps, hw]
    · rw [BitVec.toNat_sub_of_le]
      rw [BitVec.le_def]; omega
    · have h1 : (sl.size - offsetOf sl p).toNat = sl.size.toNat - (offsetOf sl p).toNat := by
        rw [BitVec.toNat_sub_of_le]
        rw [BitVec.le_def]; omega
      rw [BitVec.toNat_sub_of_le, h1]
      rw [BitVec.le_def, h1]; omega
  · refine .inl ⟨by omega, ?_⟩
    simp [splitSegments, wraps, hw]

/-- When `plan` answers segments. -/
theorem planSegments_ok_iff {sl : Slice} {p len : Half} {segs : List Segment} :
    planSegments sl p len = .ok segs ↔
      (len = 0#16 ∧ segs = []) ∨
      (len ≠ 0#16 ∧ len.toNat ≤ sl.size.toNat ∧ segs = splitSegments sl (offsetOf sl p) len) := by
  unfold planSegments
  by_cases h0 : len = 0#16
  · simp [h0, eq_comm]
  · by_cases h1 : sl.size.toNat < len.toNat
    · simp [h0, h1]
    · have h2 : len.toNat ≤ sl.size.toNat := by omega
      simp [h0, h1, h2, eq_comm]

end Sys2Proof.Machine
end

