-- ==== Sys2Proof/Laws/Invariant.lean ====
section
/-! SUPPORT. What the invariant says, unpacked: a well-formed configuration's facts (00_scope.md R10), the table's (10_state.md R26), and those of a transfer in
flight (10_state.md R25). -/

namespace Sys2Proof.Machine

variable {s t : State}

/-! ## The configuration -/

/-- The facts of a well-formed configuration that proofs use. -/
theorem wellFormed_facts {c : Config} (h : c.wellFormed = true) :
    c.n ≤ 256 ∧ (∀ x ∈ c.allowed, isSliceSize x = true) ∧ c.defaultSize ∈ c.allowed
    ∧ (∀ d, c.regionEnd d ≤ c.pmemSize) ∧ c.regionsDisjoint = true
    ∧ (∀ d, (c.ptrRegs d).length = c.n)
    ∧ (∀ a ∈ c.ptrRegRx ++ c.ptrRegTx, c.pairOutsideRegions a = true)
    ∧ (c.ptrRegRx ++ c.ptrRegTx).Pairwise (fun a b => pairsDisjoint a b = true) := by
  simp only [Config.wellFormed, Bool.and_eq_true, decide_eq_true_eq, List.all_eq_true, beq_iff_eq, Bool.not_eq_true',
    List.contains_iff_mem] at h
  obtain ⟨⟨⟨⟨⟨⟨⟨_, h1⟩, ⟨⟨_, h2⟩, h3⟩⟩, ⟨⟨h4, h5⟩, h6⟩⟩, ⟨h7, h8⟩⟩, h9⟩, h10⟩, _⟩ := h
  exact ⟨h1, h2, h3, fun d => by cases d <;> assumption, h6, fun d => by cases d <;> assumption, h9, h10⟩

/-- The pointer register of a channel is one of the configuration's. -/
theorem ptrReg_mem {c : Config} (h : c.wellFormed = true) (d : Dir) {k : Nat} (hk : k < c.n) :
    c.ptrReg d k ∈ c.ptrRegRx ++ c.ptrRegTx := by
  have hl := (wellFormed_facts h).2.2.2.2.2.1 d
  have hk' : k < (c.ptrRegs d).length := by omega
  have hm : c.ptrReg d k ∈ c.ptrRegs d := by
    rw [Config.ptrReg, List.getD_eq_getElem _ _ hk']
    exact List.getElem_mem hk'
  cases d
  · exact List.mem_append_left _ hm
  · exact List.mem_append_right _ hm

/-- A pointer register pair lies in `PMem` and outside both regions (R10). -/
theorem pair_facts {c : Config} (h : c.wellFormed = true) (d : Dir) {k : Nat} (hk : k < c.n) :
    c.ptrReg d k + 1 < c.pmemSize
    ∧ ∀ a, inPair c d k a → ∀ d', ¬ (c.regionBase d' ≤ a ∧ a < c.regionEnd d') := by
  have hp := (wellFormed_facts h).2.2.2.2.2.2.1 _ (ptrReg_mem h d hk)
  simp only [Config.pairOutsideRegions, Config.inRegion, Bool.and_eq_true, decide_eq_true_eq, List.all_cons, List.all_nil,
    Bool.and_true, Bool.not_eq_true', Bool.and_eq_false_iff, decide_eq_false_iff_not] at hp
  refine ⟨hp.1, fun a ha d' hd' => ?_⟩
  rcases ha with rfl | rfl <;> cases d' <;> omega

/-! ## The table -/

/-- The facts of the table under the invariant: `N` entries, legal sizes, and bases laid out. -/
theorem tableSound_facts (h : tableSound s = true) (d : Dir) :
    (s.pt.entries d).length = s.cfg.n ∧ (∀ e ∈ s.pt.entries d, e.size.toNat ∈ s.cfg.allowed)
    ∧ s.pt.entries d = layout (s.cfg.regionBase d) (s.pt.entries d) := by
  simp only [tableSound, Bool.and_eq_true, entriesSound, beq_iff_eq, List.all_eq_true, List.contains_iff_mem] at h
  obtain ⟨⟨⟨h1, h2⟩, h3⟩, ⟨h4, h5⟩, h6⟩ := h
  cases d
  · exact ⟨h1, h2, h3⟩
  · exact ⟨h4, h5, h6⟩

theorem tableSound_of_facts
    (h : ∀ d, (s.pt.entries d).length = s.cfg.n ∧ (∀ e ∈ s.pt.entries d, e.size.toNat ∈ s.cfg.allowed)
      ∧ s.pt.entries d = layout (s.cfg.regionBase d) (s.pt.entries d)) : tableSound s = true := by
  simp only [tableSound, Bool.and_eq_true, entriesSound, beq_iff_eq, List.all_eq_true, List.contains_iff_mem]
  obtain ⟨h1, h2, h3⟩ := h .rx
  obtain ⟨h4, h5, h6⟩ := h .tx
  exact ⟨⟨⟨h1, h2⟩, h3⟩, ⟨h4, h5⟩, h6⟩

/-- Entry `k` of a table of at least `k + 1` entries. -/
theorem entry_eq_getElem (pt : PartitionTable) (d : Dir) {k : Nat} (hk : k < (pt.entries d).length) :
    pt.entry d k = (pt.entries d)[k] := List.getD_eq_getElem _ _ hk

/-- Under the invariant, an entry's size is allowed and its base is the region base plus the sizes before it (R26). -/
theorem entry_facts (h : tableSound s = true) (d : Dir) {k : Nat} (hk : k < s.cfg.n) :
    (s.pt.entry d k).size.toNat ∈ s.cfg.allowed
    ∧ (s.pt.entry d k).base = s.cfg.regionBase d + sizesBefore (s.pt.entries d) k := by
  obtain ⟨hl, hs, hb⟩ := tableSound_facts h d
  have hk' : k < (s.pt.entries d).length := by omega
  refine ⟨?_, ?_⟩
  · rw [entry_eq_getElem _ _ hk']
    exact hs _ (List.getElem_mem hk')
  · have hg := getElem?_layout (s.cfg.regionBase d) (s.pt.entries d) k
    rw [← hb, List.getElem?_eq_getElem hk'] at hg
    rw [entry_eq_getElem _ _ hk']
    exact congrArg Slice.base (Option.some.inj hg)

/-- Under the invariant, every entry's size is a legal slice size. -/
theorem entry_isSliceSize (hi : s.Inv) (d : Dir) {k : Nat} (hk : k < s.cfg.n) :
    isSliceSize (s.pt.entry d k).size.toNat = true :=
  (wellFormed_facts hi.1).2.1 _ (entry_facts hi.2.1 d hk).1

/-- The bytes of an entry that fits lie in its region and in `PMem` (R27). -/
theorem fits_facts (hi : s.Inv) (d : Dir) {k : Nat} (hk : k < s.cfg.n) (hf : sliceFits s.cfg d (s.pt.entry d k) = true) :
    s.cfg.regionBase d ≤ (s.pt.entry d k).base
    ∧ (s.pt.entry d k).base + (s.pt.entry d k).size.toNat ≤ s.cfg.regionEnd d
    ∧ (s.pt.entry d k).base + (s.pt.entry d k).size.toNat ≤ s.cfg.pmemSize := by
  have h1 := (entry_facts hi.2.1 d hk).2
  have h2 := (wellFormed_facts hi.1).2.2.2.1 d
  simp only [sliceFits, decide_eq_true_eq] at hf
  exact ⟨by omega, hf, by omega⟩

/-! ## A transfer in flight -/

/-- What the invariant says of the command in progress. -/
theorem transferSound_facts (h : transferSound s = true) :
    decodeCommand s.cmd = .ok (transferInstr s.cmdDir (Command.ch s.cmd) s.cmdLen)
    ∧ s.cmdCh < s.cfg.n ∧ s.lat.slice = s.pt.entry s.cmdDir s.cmdCh ∧ s.cmdLen ≠ 0#16
    ∧ s.cmdLen.toNat ≤ s.lat.slice.size.toNat ∧ sliceFits s.cfg s.cmdDir s.lat.slice = true := by
  simp only [transferSound, Bool.and_eq_true, beq_iff_eq, bne_iff_ne, Bool.not_eq_true', State.unknownChannel,
    decide_eq_true_eq, decide_eq_false_iff_not] at h
  obtain ⟨⟨⟨⟨⟨h1, h2⟩, h3⟩, h4⟩, h5⟩, h6⟩ := h
  refine ⟨?_, by simpa [State.cmdCh] using h2, h3, h4, h5, h6⟩
  revert h1
  cases decodeCommand s.cmd with
  | error e => simp [Except.toOption]
  | ok i => simp [Except.toOption]

/-- In every busy phase the command in progress is sound. -/
theorem transferSound_of_busy (hi : s.Inv) (h : s.ph ≠ .idle) : transferSound s = true := by
  have hf := hi.2.2.2.1
  unfold flightSound at hf
  split at hf
  · contradiction
  all_goals simp only [Bool.and_eq_true] at hf
  all_goals tauto

theorem planSound_iff : planSound s = true ↔ planSegments s.lat.slice s.lat.p s.cmdLen = .ok s.lat.segs := by
  unfold planSound
  cases planSegments s.lat.slice s.lat.p s.cmdLen <;> simp [Except.toOption]

end Sys2Proof.Machine
end

