-- ==== Sys2Proof/Laws/PerInstr.lean ====
section
/-! SUPPORT. Facts stated instruction by instruction, for the host's case split over the constructors of `Instr`. -/

namespace Sys2Proof.Laws.WordOfItsFormat

open Sys2Proof Sys2Proof.Machine

/-- The word of a well-formed instruction is of its format (R71, R72, R78): a command's has `rsv = 0`, an `op` in `1 .. 6` and, in `B`, room
for the payload length; a request's is of one of the four kinds and its `len` is at least the number of its write data bytes. -/
def Statement (i : Instr) : Prop :=
  ∀ addrW, i.wellFormed addrW = true →
    match encode addrW i with
    | .c48 w => ¬ isTransportPrimitive i ∧ Command.rsv w = 0#3 ∧ 1 ≤ (Command.op w).toNat ∧ (Command.op w).toNat ≤ 6
        ∧ i.payloadLength ≤ (Command.fieldB w).toNat
    | .t34 w => isTransportPrimitive i ∧ requestKind addrW w < 4 ∧ i.writeDataLength ≤ (requestLen w).toNat

theorem setSliceSize (d : Dir) (ch : Chan) (size : Half) : Statement (.setSliceSize d ch size) := by
  intro _ _; simp [encode, Instr.payloadLength]

theorem getSlice (d : Dir) (ch : Chan) : Statement (.getSlice d ch) := by
  intro _ _; simp [encode, Instr.payloadLength]

theorem translate (d : Dir) (ch : Chan) (p : Half) : Statement (.translate d ch p) := by
  intro _ _; simp [encode, Instr.payloadLength]

theorem plan (d : Dir) (ch : Chan) (p len : Half) : Statement (.plan d ch p len) := by
  intro _ _; simp [encode, Instr.payloadLength]

theorem receive (ch : Chan) (len : Half) : Statement (.receive ch len) := by
  intro _ _; simp [encode, Instr.payloadLength]

theorem transmit (ch : Chan) (len : Half) : Statement (.transmit ch len) := by
  intro _ _; simp [encode, Instr.payloadLength]

theorem rdReg (addr : Nat) : Statement (.rdReg addr) := by
  intro w h
  simp only [Instr.wellFormed, addrFits, decide_eq_true_eq] at h
  simp [encode, isTransportPrimitive, Instr.writeDataLength, requestKind_requestWord _ _ h]

theorem wrReg (addr : Nat) : Statement (.wrReg addr) := by
  intro w h
  simp only [Instr.wellFormed, addrFits, decide_eq_true_eq] at h
  simp [encode, isTransportPrimitive, Instr.writeDataLength, requestKind_requestWord _ _ h]

theorem rdBlk (addr : Nat) (len : Half) : Statement (.rdBlk addr len) := by
  intro w h
  simp only [Instr.wellFormed, addrFits, Bool.and_eq_true, decide_eq_true_eq] at h
  simp [encode, isTransportPrimitive, Instr.writeDataLength, requestKind_requestWord _ _ h.1]

theorem wrBlk (addr : Nat) (len : Half) : Statement (.wrBlk addr len) := by
  intro w h
  simp only [Instr.wellFormed, addrFits, Bool.and_eq_true, decide_eq_true_eq] at h
  simp [encode, isTransportPrimitive, Instr.writeDataLength, requestKind_requestWord _ _ h.1]

end Sys2Proof.Laws.WordOfItsFormat
end

