-- ==== Sys2Proof/Machine/Assembler.lean ====
section
/-! DEFINITION. The textual syntax of commands (30_encoding.md R82, R83): one command a line, mnemonic, operands separated by commas, `rx` or
`tx`, decimal or `0x` hexadecimal numbers, `;` starts a comment. It makes what the host presents; no step reads this. Log entry 27. -/

namespace Sys2Proof.Machine

/-- The characters that end a word. -/
def isPunctuation (c : Char) : Bool := c == ',' || c == '[' || c == ']'

/-- A word ends here: put it before the words that follow. -/
def flushWord (current : List Char) (ws : List (List Char)) : List (List Char) :=
  if current.isEmpty then ws else current.reverse :: ws

/-- Cut a line into words and punctuation, up to a `;`. `current` holds the word being read, last character first. -/
def splitLine (current : List Char) : List Char → List (List Char)
  | [] => flushWord current []
  | c :: cs =>
    if c == ';' then flushWord current []
    else if c == ' ' || c == '\t' then flushWord current (splitLine [] cs)
    else if isPunctuation c then flushWord current ([c] :: splitLine [] cs)
    else splitLine (c :: current) cs

/-- The value of a digit. -/
def digitOf (c : Char) : Option Nat :=
  if '0' ≤ c ∧ c ≤ '9' then some (c.toNat - 48)
  else if 'a' ≤ c ∧ c ≤ 'f' then some (c.toNat - 87)
  else if 'A' ≤ c ∧ c ≤ 'F' then some (c.toNat - 55)
  else none

/-- The number these digits write in this base, continuing from `acc`. -/
def digitsIn (base acc : Nat) : List Char → Option Nat
  | [] => some acc
  | c :: cs => match digitOf c with
    | some v => if v < base then digitsIn base (base * acc + v) cs else none
    | none => none

/-- A number: decimal, or `0x` and hexadecimal digits. -/
def numberOf : List Char → Option Nat
  | [] => none
  | ['0', 'x'] => none
  | '0' :: 'x' :: ds => digitsIn 16 0 ds
  | ds => digitsIn 10 0 ds

/-- `rx` or `tx`. -/
def dirOf (w : List Char) : Option Dir :=
  if w = ['r', 'x'] then some .rx else if w = ['t', 'x'] then some .tx else none

/-- A number of at most `n` bits. -/
def fieldOf (n : Nat) (w : List Char) : Option (BitVec n) :=
  match numberOf w with
  | some v => if v < 2 ^ n then some (BitVec.ofNat n v) else none
  | none => none

/-- The bytes inside the brackets, up to and including the closing one. -/
def bytesOf : List (List Char) → Option (List Byte)
  | [b, [']']] => (fieldOf 8 b).map fun v => [v]
  | b :: [','] :: ws => match fieldOf 8 b, bytesOf ws with
    | some v, some vs => some (v :: vs)
    | _, _ => none
  | _ => none

/-- The payload `[<byte>, <byte>, ...]`. -/
def payloadOf : List (List Char) → Option (List Byte)
  | [['['], [']']] => some []
  | ['['] :: ws => bytesOf ws
  | _ => none

/-- The command of a line's words (R82), and its payload. -/
def commandOf : List (List Char) → Option (Instr × List Byte)
  | mnemonic :: operands =>
    if mnemonic = "SET_SLICE_SIZE".toList then
      match operands with
      | [d, [','], c, [','], size] => do return (.setSliceSize (← dirOf d) (← fieldOf 8 c) (← fieldOf 16 size), [])
      | _ => none
    else if mnemonic = "GET_SLICE".toList then
      match operands with
      | [d, [','], c] => do return (.getSlice (← dirOf d) (← fieldOf 8 c), [])
      | _ => none
    else if mnemonic = "TRANSLATE".toList then
      match operands with
      | [d, [','], c, [','], p] => do return (.translate (← dirOf d) (← fieldOf 8 c) (← fieldOf 16 p), [])
      | _ => none
    else if mnemonic = "PLAN".toList then
      match operands with
      | [d, [','], c, [','], p, [','], len] =>
        do return (.plan (← dirOf d) (← fieldOf 8 c) (← fieldOf 16 p) (← fieldOf 16 len), [])
      | _ => none
    else if mnemonic = "RECEIVE".toList then
      match operands with
      | [c, [','], len] => do return (.receive (← fieldOf 8 c) (← fieldOf 16 len), [])
      | _ => none
    else if mnemonic = "TRANSMIT".toList then
      match operands with
      | c :: [','] :: len :: [','] :: ws => do return (.transmit (← fieldOf 8 c) (← fieldOf 16 len), ← payloadOf ws)
      | _ => none
    else none
  | [] => none

/-- What the host presents for one line: `some none` for a blank line or a comment, `none` for a line that is no command (a payload of
another length than `<length>` among them). Every command line is one command word (R83). -/
def assembleLine (line : String) : Option (Option Presented) :=
  match splitLine [] line.toList with
  | [] => some none
  | ws => match commandOf ws with
    | some (i, pay) => match encode 16 i with
      | .c48 w => if pay.length = i.payloadLength then some (some ⟨w, pay⟩) else none
      | .t34 _ => none
    | none => none

end Sys2Proof.Machine
end

