-- ==== Sys2Proof/Tests/Slice0.lean ====
section
/-! SUPPORT. Tests. Expected values come from the tables of 95_test_vectors.md and the pages named; then, for each statement of
Certificates/Slice0/Obligations.lean that has hypotheses, states and operands that meet them. -/

namespace Sys2Proof.Tests

open Sys2Proof Sys2Proof.Machine

/-! ## States the tests start from -/

/-- Program P1's end state (95, 3): all receive sizes 2048, transmit sizes at reset; `PMem` as P2 starts. -/
def scenario : State :=
  { State.reset with
    pt := { State.reset.pt with rx := [⟨2048, 0x6000⟩, ⟨2048, 0x6800⟩, ⟨2048, 0x7000⟩, ⟨2048, 0x7800⟩] }
    mem := [(0x0428, 0xFF), (0x0429, 0xFE), (0x0524, 0x0F), (0x0525, 0xFF), (0x6000, 0x33), (0x6001, 0x44),
      (0x67FE, 0x11), (0x67FF, 0x22)] }

/-- Program P6 after its first step: receive channel 0 has 8192 bytes, and channels 1 to 3 do not fit. -/
def overflowing : State :=
  { State.reset with
    pt := { State.reset.pt with rx := [⟨8192, 0x6000⟩, ⟨1024, 0x8000⟩, ⟨1024, 0x8400⟩, ⟨1024, 0x8800⟩] } }

/-- `RECEIVE 0, 4` of the scenario in flight, in phase `ph`, with `buf` read so far and these turns to come. -/
def receiving (ph : Phase) (buf : List Byte) (ts : List Turn) : State :=
  { scenario with
    ph := ph
    cmd := 0x500000000004
    lat := ⟨⟨2048, 0x6000⟩, 0xFF, 0xFFFE, [⟨0x67FE, 2⟩, ⟨0x6000, 2⟩], buf⟩
    inputs := ts }

/-- `TRANSMIT 1, 3, [0xAA, 0xBB, 0xCC]` of the scenario in flight, in phase `ph`, with these turns to come. -/
def transmitting (ph : Phase) (ts : List Turn) : State :=
  { scenario with
    ph := ph
    cmd := 0x680100000003
    pay := [0xAA, 0xBB, 0xCC]
    lat := ⟨⟨1024, 0x4400⟩, 0x0F, 0x0FFF, [⟨0x47FF, 1⟩, ⟨0x4400, 2⟩], [0xAA, 0xBB, 0xCC]⟩
    inputs := ts }

/-- The scenario with this command held off and these turns to come. -/
def heldOff (w : Command) (pay : List Byte) (ts : List Turn) : State :=
  { scenario with pending := [⟨w, pay⟩], inputs := ts }

/-- The scenario with this write data and this verdict on the port. -/
def onPort (wdata : List Byte) (v : Verdict) : State := { scenario with port := ⟨wdata, v, .fail⟩ }

/-! ## Well-formedness: each check refuses an ill-formed term -/

theorem test_wellFormed_register_address_too_wide : (Instr.rdReg 0x10000).wellFormed 16 = false := by decide
theorem test_wellFormed_write_register_address_too_wide : (Instr.wrReg 0x10000).wellFormed 16 = false := by decide
theorem test_wellFormed_block_address_too_wide : (Instr.rdBlk 0x10000 1).wellFormed 16 = false := by decide
theorem test_wellFormed_block_length_zero : (Instr.rdBlk 0x6000 0).wellFormed 16 = false := by decide
theorem test_wellFormed_block_length_too_long : (Instr.wrBlk 0x4000 32769).wellFormed 16 = false := by decide
theorem test_wellFormed_longest_block : (Instr.wrBlk 0xFFFF 32768).wellFormed 16 = true := by decide
theorem test_wellFormed_commands_take_every_operand :
    (Instr.plan .tx 255 0xFFFF 0xFFFF).wellFormed 16 = true := by decide

/-! ## Configurations (R10) -/

theorem test_reference_configuration_is_wellFormed : Config.reference.wellFormed = true := by decide
theorem test_default_size_must_be_allowed : { Config.reference with defaultSize := 512 }.wellFormed = false := by decide
theorem test_allowed_sizes_must_be_powers_of_two :
    { Config.reference with allowed := [1024, 3000] }.wellFormed = false := by decide
theorem test_regions_must_not_meet : { Config.reference with txBase := 0x5000 }.wellFormed = false := by decide
theorem test_pairs_must_lie_outside_the_regions :
    { Config.reference with ptrRegRx := [0x5FFF, 0x0528, 0x0628, 0x0728] }.wellFormed = false := by decide
theorem test_pairs_must_be_disjoint :
    { Config.reference with ptrRegRx := [0x0425, 0x0528, 0x0628, 0x0728] }.wellFormed = false := by decide
theorem test_channel_count_is_at_least_one : { Config.reference with n := 0 }.wellFormed = false := by decide

/-! ## Decoding (95, 2.5) -/

theorem test_decode_setSliceSize : decodeCommand 0x180320000000 = .ok (.setSliceSize .tx 3 8192) := by rfl
theorem test_decode_getSlice : decodeCommand 0x200900000000 = .ok (.getSlice .rx 9) := by rfl
theorem test_decode_translate : decodeCommand 0x380312340000 = .ok (.translate .tx 3 0x1234) := by rfl
theorem test_decode_plan : decodeCommand 0x48010FFF0003 = .ok (.plan .tx 1 0x0FFF 3) := by rfl
theorem test_decode_plan_channel_255 : decodeCommand 0x40FF00000000 = .ok (.plan .rx 255 0 0) := by rfl
theorem test_decode_receive : decodeCommand 0x500200000006 = .ok (.receive 2 6) := by rfl
theorem test_decode_transmit : decodeCommand 0x680100000003 = .ok (.transmit 1 3) := by rfl
theorem test_decode_rdReg : decodeRequest 16 0x004280001 = .ok (.rdReg 0x0428) := by rfl
theorem test_decode_wrReg : decodeRequest 16 0x104290001 = .ok (.wrReg 0x0429) := by rfl
theorem test_decode_rdBlk : decodeRequest 16 0x267FE0002 = .ok (.rdBlk 0x67FE 2) := by rfl
theorem test_decode_wrBlk : decodeRequest 16 0x344000002 = .ok (.wrBlk 0x4400 2) := by rfl

theorem test_illegal_op_0 : decodeCommand 0x000000000000 = .error .reservedOpcode := by rfl
theorem test_illegal_op_7 : decodeCommand 0x700000000000 = .error .reservedOpcode := by rfl
theorem test_illegal_op_15 : decodeCommand 0xF00000000000 = .error .reservedOpcode := by rfl
theorem test_illegal_rsv_1 : decodeCommand 0x210000000000 = .error .reservedBitsSet := by rfl
theorem test_illegal_rsv_4 : decodeCommand 0x540000000004 = .error .reservedBitsSet := by rfl
theorem test_illegal_getSlice_B : decodeCommand 0x200000000001 = .error .unusedOperandSet := by rfl
theorem test_illegal_getSlice_A : decodeCommand 0x200000010000 = .error .unusedOperandSet := by rfl
theorem test_illegal_setSliceSize_B : decodeCommand 0x100008000001 = .error .unusedOperandSet := by rfl
theorem test_illegal_translate_B : decodeCommand 0x3000FFFE0001 = .error .unusedOperandSet := by rfl
theorem test_illegal_receive_A : decodeCommand 0x500000010004 = .error .unusedOperandSet := by rfl
theorem test_illegal_receive_dir : decodeCommand 0x580000000004 = .error .wrongDirection := by rfl
theorem test_illegal_transmit_dir : decodeCommand 0x600000000004 = .error .wrongDirection := by rfl
theorem test_illegal_register_request_length : decodeRequest 16 0x004280002 = .error .registerLengthNotOne := by rfl
theorem test_illegal_request_too_wide : decodeRequest 16 0x404280001 = .error .tooWide := by rfl
theorem test_command_bytes_msb_first :
    decodeBytes [0x68, 0x01, 0x00, 0x00, 0x00, 0x02, 0xDD, 0xEE, 0x99] = .ok (.transmit 1 2, [0xDD, 0xEE], [0x99]) := by rfl
theorem test_payload_cut_short : decodeBytes [0x68, 0x01, 0x00, 0x00, 0x00, 0x02, 0xDD] = .error .truncated := by rfl
theorem test_command_cut_short : decodeBytes [0x68, 0x01, 0x00, 0x00, 0x00] = .error .truncated := by rfl

/-! ## The textual syntax (R82) -/

theorem test_assemble_plan : assembleLine "PLAN rx, 0, 0xFFFE, 4" = some (some ⟨0x4000FFFE0004, []⟩) := by decide
theorem test_assemble_transmit :
    assembleLine "TRANSMIT 1, 3, [0xAA,0xBB,0xCC] ; P3" = some (some ⟨0x680100000003, [0xAA, 0xBB, 0xCC]⟩) := by decide
theorem test_assemble_payload_of_another_length : assembleLine "TRANSMIT 1, 3, [0xAA]" = none := by decide

/-! ## One step of each instruction -/

theorem test_setSliceSize_shifts_later_bases :
    nextAnd (exec (.setSliceSize .rx 0 2048) State.reset) (fun t =>
      t.pt.rx == [⟨2048, 0x6000⟩, ⟨1024, 0x6800⟩, ⟨1024, 0x6C00⟩, ⟨1024, 0x7000⟩] && t.pt.tx == State.reset.pt.tx) = true := by
  decide
theorem test_setSliceSize_checks_the_channel_first :
    nextAnd (exec (.setSliceSize .rx 4 3000) State.reset) (fun t => t.rsp.status.code == 0x02) = true := by decide
theorem test_setSliceSize_size_not_allowed :
    nextAnd (exec (.setSliceSize .rx 0 512) State.reset) (fun t => t.rsp.status.code == 0x01 && t.pt == State.reset.pt)
      = true := by decide
theorem test_getSlice_answers_the_entry :
    nextAnd (exec (.getSlice .rx 2) scenario) (fun t => t.rsp.size == some 2048 && t.rsp.base == some 0x7000) = true := by
  decide
theorem test_getSlice_unknown_channel :
    nextAnd (exec (.getSlice .rx 9) State.reset) (fun t => t.rsp.status.code == 0x02) = true := by decide
theorem test_translate_scenario :
    nextAnd (exec (.translate .rx 0 0xFFFE) scenario) (fun t => t.rsp.addr == some 0x67FE) = true := by decide
theorem test_translate_transmit_direction :
    nextAnd (exec (.translate .tx 3 0x1234) scenario) (fun t => t.rsp.addr == some 0x4E34) = true := by decide
theorem test_plan_splits :
    nextAnd (exec (.plan .rx 0 0xFFFE 4) scenario) (fun t =>
      t.rsp.nseg == some 2 && t.rsp.seg == [⟨0x67FE, 2⟩, ⟨0x6000, 2⟩]) = true := by decide
theorem test_plan_ends_on_the_last_byte :
    nextAnd (exec (.plan .rx 0 0x07FC 4) scenario) (fun t => t.rsp.nseg == some 1 && t.rsp.seg == [⟨0x67FC, 4⟩]) = true := by
  decide
theorem test_receive_length_error :
    nextAnd (exec (.receive 0 2049) scenario) (fun t => t.rsp.status.code == 0x04 && t.ph == .idle) = true := by decide
theorem test_receive_unknown_channel_before_zero_length :
    nextAnd (exec (.receive 9 0) scenario) (fun t => t.rsp.status.code == 0x02) = true := by decide
theorem test_transmit_starts :
    nextAnd (exec (.transmit 1 3) { scenario with pay := [0xAA, 0xBB, 0xCC] }) (fun t =>
      t.ph == .rdHi && t.lat.slice == ⟨1024, 0x4400⟩ && t.lat.buf == [0xAA, 0xBB, 0xCC]) = true := by decide
theorem test_transmit_zero_length :
    nextAnd (exec (.transmit 0 0) scenario) (fun t =>
      t.rsp.status.code == 0x00 && t.rsp == Response.done && t.ph == .idle) = true := by decide
theorem test_rdReg : nextAnd (exec (.rdReg 0x0428) (onPort [] .ok)) (fun t => t.port.reply == .ok [0xFF]) = true := by decide
theorem test_wrReg :
    nextAnd (exec (.wrReg 0x0429) (onPort [0x02] .ok)) (fun t => Memory.read t.mem 0x0429 == 0x02) = true := by decide
theorem test_rdBlk :
    nextAnd (exec (.rdBlk 0x67FE 2) (onPort [] .ok)) (fun t => t.port.reply == .ok [0x11, 0x22]) = true := by decide
theorem test_wrBlk :
    nextAnd (exec (.wrBlk 0x4400 2) (onPort [0xBB, 0xCC] .ok)) (fun t =>
      Memory.readBlock t.mem 0x43FF 4 == [0, 0xBB, 0xCC, 0]) = true := by decide
theorem test_wrBlk_failed_lands_a_subset :
    nextAnd (exec (.wrBlk 0x6000 2) (onPort [0xBB, 0xCC] (.fail [false, true]))) (fun t =>
      Memory.readBlock t.mem 0x6000 2 == [0x33, 0xCC] && t.port.reply == .fail) = true := by decide

/-! ## One step of the sequencer and of the agents (95, 2.4) -/

theorem test_second_pointer_byte_plans :
    nextAnd (step { receiving .rdLo [] [.transport .ok] with lat := ⟨⟨2048, 0x6000⟩, 0xFF, 0, [], []⟩ }) (fun t =>
      t.ph == .seg1 && t.lat.p == 0xFFFE && t.lat.segs == [⟨0x67FE, 2⟩, ⟨0x6000, 2⟩]) = true := by decide
theorem test_second_segment_follows :
    nextAnd (step (receiving .seg2 [0x11, 0x22] [.transport .ok])) (fun t =>
      t.ph == .wrHi && t.lat.buf == [0x11, 0x22, 0x33, 0x44]) = true := by decide
theorem test_transmit_first_segment :
    requestOf (transmitting .seg1 []) = some (.wrBlk 0x47FF 1, [0xAA]) := by decide
theorem test_transmit_second_segment :
    requestOf (transmitting .seg2 []) = some (.wrBlk 0x4400 2, [0xBB, 0xCC]) := by decide
theorem test_pointer_write_back :
    requestOf (transmitting .wrHi []) = some (.wrReg 0x0524, [0x10])
    ∧ requestOf (transmitting .wrLo []) = some (.wrReg 0x0525, [0x02]) := by decide
theorem test_failed_second_segment_leaves_the_pointer :
    nextAnd (step (receiving .seg2 [0x11, 0x22] [.transport (.fail [])])) (fun t =>
      t.ph == .idle && t.rsp == Response.failed .transportError && t.pointer .rx 0 == 0xFFFE) = true := by decide
theorem test_slice_that_does_not_fit_is_refused : exec (.receive 1 1) overflowing = .refused .sliceDoesNotFit := by rfl
theorem test_slice_that_does_not_fit_zero_length :
    nextAnd (exec (.receive 1 0) overflowing) (fun t => t.rsp == Response.ofData []) = true := by decide
theorem test_illegal_command_word :
    nextAnd (step (heldOff 0x580000000004 [] [])) (fun t => t.rsp.status.code == 0x05 && t.pt == scenario.pt) = true := by
  decide
theorem test_reset_input :
    nextAnd (step (transmitting .wrHi [.reset [true]])) (fun t =>
      t.ph == .idle && t.pt == State.reset.pt && Memory.readBlock t.mem 0x0524 2 == [0x10, 0xFF]) = true := by decide
theorem test_command_word_runs_next :
    nextAnd (step (State.reset.withFetchWord 48 0x4002ABCD0064)) (fun t => t.rsp.seg == [⟨0x6BCD, 51⟩, ⟨0x6800, 49⟩])
      = true := by decide
theorem test_request_word_runs_next :
    nextAnd (step (State.reset.withFetchWord 40 0x344000002)) (fun t => t.port.reply == .ok []) = true := by decide

/-! ## The hypotheses of the statements are met -/

theorem witness_DecodeOfEncode :
    (Instr.wrBlk 0xFFFF 32768).wellFormed 16 = true ∧ (Instr.rdReg 0).wellFormed 0 = true
    ∧ (Instr.plan .rx 255 0xFFFF 0xFFFF).wellFormed 16 = true := by decide
theorem witness_EncodeOfDecode :
    decode 16 (.t34 0x3FFFFFFFF) = .ok (.wrBlk 0xFFFF 0xFFFF) ∧ decode 16 (.c48 0x4FFF) = .error .reservedOpcode
    ∧ decode 16 (.c48 0x48FFFFFFFFFF) = .ok (.plan .tx 255 0xFFFF 0xFFFF) := ⟨rfl, rfl, rfl⟩
theorem witness_CommandDecoder :
    (∃ r ∈ commandRows, r.selects 0x680100000003 = true ∧ r.mnemonic = "TRANSMIT")
    ∧ (∀ r ∈ commandRows, r.selects 0x700000000000 = false) := by decide
theorem witness_RequestDecoder : 0x3FFFFFFFF < 2 ^ 34 ∧ ∃ r ∈ requestRows, r.selects 0x3FFFFFFFF = true := by decide
theorem witness_CommandBytesAreReadBackWhole :
    decodeCommand 0x680100000003 = .ok (.transmit 1 3) ∧ [0xAA, 0xBB, (0xCC : Byte)].length = (Instr.transmit 1 3).payloadLength
    ∧ decodeCommand 0x200200000000 = .ok (.getSlice .rx 2) ∧ ([] : List Byte).length = (Instr.getSlice .rx 2).payloadLength :=
  ⟨rfl, rfl, rfl, rfl⟩
theorem witness_StatusCodes_reserved : 0x06 ≤ (0x06 : Byte).toNat ∧ 0x06 ≤ (0xFF : Byte).toNat := by decide
theorem witness_EveryStepKeepsTheInvariant :
    (transmitting .seg2 [.transport .ok]).Inv ∧ nextAnd (step (transmitting .seg2 [.transport .ok])) (fun _ => true) = true := by
  decide
theorem witness_NoStepChangesTheConfiguration :
    nextAnd (step (receiving .wrLo [0x11, 0x22, 0x33, 0x44] [.transport .ok])) (fun _ => true) = true := by decide
theorem witness_TableInvariant :
    (heldOff 0x100010000000 [] []).Inv ∧ nextAnd (step (heldOff 0x100010000000 [] [])) (fun t => t.pt != scenario.pt) = true := by
  decide
theorem witness_SlicesLieEndToEnd :
    scenario.Inv ∧ sliceFits scenario.cfg .rx (scenario.pt.entry .rx 3) = true
    ∧ sliceFits scenario.cfg .tx (scenario.pt.entry .tx 3) = true ∧ inPair scenario.cfg .tx 3 0x0725 := by decide
theorem witness_a_slice_may_not_fit : overflowing.Inv ∧ sliceFits overflowing.cfg .rx (overflowing.pt.entry .rx 1) = false := by
  decide
theorem witness_ResetInput :
    (transmitting .wrHi [.reset [true]]).Inv ∧ (receiving .rdHi [] [.reset []]).Inv
    ∧ (heldOff 0x200200000000 [] [.reset []]).Inv := by decide
theorem witness_SetSliceSize : (3 : Chan).toNat < State.reset.cfg.n ∧ (8192 : Half).toNat ∈ State.reset.cfg.allowed := by decide
theorem witness_Reconfiguration :
    State.reset.Inv ∧ (0 : Chan).toNat < State.reset.cfg.n ∧ (2048 : Half).toNat ∈ State.reset.cfg.allowed := by decide
theorem witness_SizeNotAllowed :
    State.reset.ph = .idle ∧ (3 : Chan).toNat < State.reset.cfg.n ∧ (0 : Half).toNat ∉ State.reset.cfg.allowed := by decide
theorem witness_ChannelOutOfRange : State.reset.ph = .idle ∧ State.reset.cfg.n ≤ (4 : Chan).toNat := by decide
theorem witness_last_known_channel : (3 : Chan).toNat < State.reset.cfg.n := by decide
theorem witness_OnlySetSliceSizeChangesTheTable :
    nextAnd (exec (.setSliceSize .tx 3 8192) State.reset) (fun t => t.pt != State.reset.pt) = true
    ∧ nextAnd (step (heldOff 0x180320000000 [] [.cbat])) (fun t => t.pt != scenario.pt) = true
    ∧ nextAnd (step (receiving .seg1 [] [.reset []])) (fun t => t.pt != scenario.pt) = true := by decide
theorem witness_slice_sizes : isSliceSize (1 : Half).toNat = true ∧ isSliceSize (0x8000 : Half).toNat = true := by decide
theorem witness_TranslatorInjective : 1023 < (1024 : Half).toNat ∧ isSliceSize (1024 : Half).toNat = true := by decide
theorem witness_PlanAnswers :
    scenario.Inv ∧ (0 : Chan).toNat < scenario.cfg.n ∧ (2048 : Half).toNat ≤ (scenario.pt.entry .rx 0).size.toNat
    ∧ (0x0800 : Half).toNat % 2048 + (2048 : Half).toNat ≤ 2048 ∧ 2048 < (0x0801 : Half).toNat % 2048 + (2048 : Half).toNat := by
  decide
theorem witness_LengthAbove :
    scenario.ph = .idle ∧ (scenario.pt.entry .rx 0).size.toNat < (2049 : Half).toNat
    ∧ (scenario.pt.entry .tx 0).size.toNat < (1025 : Half).toNat := by decide
theorem witness_PlanLaws :
    isSliceSize (2048 : Half).toNat = true ∧ (2048 : Half).toNat ≤ (2048 : Half).toNat
    ∧ planSegments ⟨2048, 0x6000⟩ 0x0801 2048 = .ok [⟨0x6001, 2047⟩, ⟨0x6000, 1⟩]
    ∧ planSegments ⟨2048, 0x6000⟩ 0 1 = .ok [⟨0x6000, 1⟩] := ⟨by decide, by decide, rfl, rfl⟩
theorem witness_TwoTransfers :
    (2047 : Half).toNat + (1 : Half).toNat ≤ (2048 : Half).toNat
    ∧ planSegments ⟨2048, 0x6000⟩ 0x0801 2047 = .ok [⟨0x6001, 2047⟩]
    ∧ planSegments ⟨2048, 0x6000⟩ (advancePointer 0x0801 2047) 1 = .ok [⟨0x6000, 1⟩]
    ∧ planSegments ⟨2048, 0x6000⟩ 0x0801 (2047 + 1) = .ok [⟨0x6001, 2047⟩, ⟨0x6000, 1⟩] := ⟨by decide, rfl, rfl, rfl⟩
theorem witness_RoundTrip :
    Memory.wf scenario.mem = true ∧ isSliceSize (8192 : Half).toNat = true
    ∧ 0xE000 + (8192 : Half).toNat ≤ scenario.cfg.pmemSize ∧ planSegments ⟨8192, 0xE000⟩ 0x1FFF 2 = .ok [⟨0xFFFF, 1⟩, ⟨0xE000, 1⟩]
    ∧ (∀ a ∈ planAddresses [⟨0xFFFF, 1⟩, ⟨0xE000, 1⟩], Memory.read [(0xE000, 9), (0xFFFF, 8)] a
        = Memory.read [(0xE000, 9), (0xE001, 7), (0xFFFF, 8)] a) :=
  ⟨by decide, by decide, by decide, rfl, by decide⟩
theorem witness_register_primitives :
    0xFFFF < (onPort [0x02] .ok).cfg.pmemSize ∧ Memory.wf (onPort [0x02] .ok).mem = true
    ∧ (onPort [0x02] .ok).port.verdict = .ok ∧ (onPort [0x02] .ok).port.wdata = [0x02] := by decide
theorem witness_block_primitives :
    0xFFFE + (2 : Half).toNat ≤ (onPort [0xBB, 0xCC] .ok).cfg.pmemSize ∧ Memory.wf (onPort [0xBB, 0xCC] .ok).mem = true
    ∧ (onPort [0xBB, 0xCC] .ok).port.verdict = .ok ∧ (onPort [0xBB, 0xCC] .ok).port.wdata.length = (2 : Half).toNat := by decide
theorem witness_FailedPrimitive_register :
    (onPort [0x02] (.fail [true])).port.verdict = .fail [true] ∧ Memory.wf (onPort [0x02] (.fail [true])).mem = true
    ∧ 0xFFFF < (onPort [0x02] (.fail [true])).cfg.pmemSize ∧ (onPort [0x02] (.fail [true])).port.wdata = [0x02] := by decide
theorem witness_FailedPrimitive_block :
    (onPort [1, 2] (.fail [])).port.verdict = .fail [] ∧ Memory.wf (onPort [1, 2] (.fail [])).mem = true
    ∧ 0xFFFE + (2 : Half).toNat ≤ (onPort [1, 2] (.fail [])).cfg.pmemSize
    ∧ (onPort [1, 2] (.fail [])).port.wdata.length = (2 : Half).toNat := by decide
theorem witness_BeyondPMem :
    (onPort [1] .ok).cfg.pmemSize ≤ 0x10000 ∧ (onPort [1] .ok).cfg.pmemSize < 0xFFFF + (2 : Half).toNat
    ∧ (onPort [1] .ok).port.wdata.length = 1 ∧ (onPort [1, 2] .ok).port.wdata.length = (2 : Half).toNat := by decide
theorem witness_WireFrames : wireFrames .A 1 0x67FE 2 = some [⟨3, 0x67FE, 1⟩, ⟨3, 0x67FF, 1⟩] ∧ wireFrames .B 2 0x67FE 2 = some [⟨4, 0x67FE, 2⟩] := by
  decide
theorem witness_transfers_start :
    (3 : Chan).toNat < scenario.cfg.n ∧ (2048 : Half) ≠ 0 ∧ (2048 : Half).toNat ≤ (scenario.pt.entry .rx 3).size.toNat
    ∧ (scenario.pt.entry .rx 3).base + (scenario.pt.entry .rx 3).size.toNat ≤ scenario.cfg.rxBase + scenario.cfg.rxRegionSize
    ∧ (1024 : Half).toNat ≤ (scenario.pt.entry .tx 3).size.toNat
    ∧ (scenario.pt.entry .tx 3).base + (scenario.pt.entry .tx 3).size.toNat ≤ scenario.cfg.txBase + scenario.cfg.txRegionSize := by
  decide
theorem witness_TransferIsRefused :
    (1 : Chan).toNat < overflowing.cfg.n ∧ (1 : Half) ≠ 0 ∧ (1 : Half).toNat ≤ (overflowing.pt.entry .rx 1).size.toNat
    ∧ overflowing.cfg.regionEnd .rx < (overflowing.pt.entry .rx 1).base + (overflowing.pt.entry .rx 1).size.toNat := by decide
theorem witness_Sequencer_receive :
    (receiving .rdHi [] [.transport .ok]).Inv ∧ (receiving .rdLo [] [.transport .ok]).Inv
    ∧ (receiving .seg1 [] [.transport .ok]).Inv ∧ (receiving .seg2 [0x11, 0x22] [.transport .ok]).Inv
    ∧ (receiving .wrHi [0x11, 0x22, 0x33, 0x44] [.transport .ok]).Inv
    ∧ (receiving .wrLo [0x11, 0x22, 0x33, 0x44] [.transport .ok]).Inv := by decide
theorem witness_Sequencer_transmit :
    (transmitting .seg1 [.transport .ok]).Inv ∧ (transmitting .seg2 [.transport .ok]).Inv
    ∧ (transmitting .wrLo [.transport .ok]).Inv := by decide
theorem witness_WholeReceive :
    (heldOff 0x500000000004 [] (.cbat :: (okTurns 6 ++ []))).Inv ∧ scenario.ph = .idle ∧ (4 : Half) ≠ 0
    ∧ (4 : Half).toNat ≤ (scenario.pt.entry .rx 0).size.toNat ∧ sliceFits scenario.cfg .rx (scenario.pt.entry .rx 0) = true
    ∧ 6 = 4 + segmentCount (scenario.pt.entry .rx 0) (scenario.pointer .rx 0) 4
    ∧ (decodeCommand 0x500000000004).toOption = some (.receive 0 4) := by decide
theorem witness_WholeTransmit :
    (heldOff 0x680100000003 [1, 2, 3] (.cbat :: (okTurns 6 ++ []))).Inv ∧ scenario.ph = .idle ∧ (3 : Half) ≠ 0
    ∧ (3 : Half).toNat ≤ (scenario.pt.entry .tx 1).size.toNat ∧ sliceFits scenario.cfg .tx (scenario.pt.entry .tx 1) = true
    ∧ 6 = 4 + segmentCount (scenario.pt.entry .tx 1) (scenario.pointer .tx 1) 3
    ∧ (decodeCommand 0x680100000003).toOption = some (.transmit 1 3) := by decide
theorem witness_failed_primitive_in_flight :
    (transmitting .seg1 [.transport (.fail [true])]).Inv ∧ (transmitting .seg1 [.transport (.fail [true])]).ph ≠ .idle
    ∧ nextAnd (step (transmitting .seg1 [.transport (.fail [true])])) (fun _ => true) = true
    ∧ (receiving .rdLo [] [.transport (.fail [])]).Inv
    ∧ nextAnd (step (receiving .rdLo [] [.transport (.fail [])])) (fun _ => true) = true := by decide
theorem witness_FailedWriteBack :
    (transmitting .wrHi [.transport (.fail [true])]).Inv
    ∧ nextAnd (step (transmitting .wrHi [.transport (.fail [true])])) (fun t => t.pointer .tx 1 == 0x10FF) = true
    ∧ (transmitting .wrLo [.transport (.fail [])]).Inv
    ∧ nextAnd (step (transmitting .wrLo [.transport (.fail [])])) (fun t => t.pointer .tx 1 == 0x0FFF) = true := by decide
theorem witness_PointerReadCanBeTorn :
    (receiving .rdHi [] [.transport .ok, .peripheral [(0x0428, 0x00), (0x0429, 0x01)], .transport .ok]).Inv := by decide
theorem witness_WithoutAReply_other_agents_move :
    (∀ tn ∈ (receiving .wrHi [] [.peripheral [(0x0428, 1)], .master 0x344000002 [1, 2] .ok, .transport .ok]).inputs.take 2,
      tn.givesNoReply = true)
    ∧ nextAnd (runSteps 2 (receiving .wrHi [] [.peripheral [(0x0428, 1)], .master 0x344000002 [1, 2] .ok, .transport .ok]))
        (fun t => t.mem != scenario.mem) = true := by decide
theorem witness_WithoutAReply :
    (receiving .wrHi [] []).cfg.wellFormed = true ∧ (receiving .wrHi [] []).ph ≠ .idle ∧ (receiving .wrHi [] []).inputs = [] := by
  decide
theorem witness_StepRunsTheDecodedCommand :
    (heldOff 0x680100000003 [1, 2, 3] [.cbat]).cfg.wellFormed = true ∧ (heldOff 0x680100000003 [1, 2, 3] [.cbat]).ph = .idle
    ∧ (decodeCommand 0x680100000003).toOption = some (.transmit 1 3) ∧ (heldOff 0x680100000003 [1, 2, 3] []).inputs = [] := by
  decide
theorem witness_StepRunsTheDecodedRequest :
    scenario.cfg.wellFormed = true ∧ (decodeRequest scenario.cfg.addrW 0x344000002).toOption = some (.wrBlk 0x4400 2) := by decide
theorem witness_StepRunsTheOutstandingPrimitive :
    (transmitting .seg2 [.transport .ok]).cfg.wellFormed = true
    ∧ requestOf (transmitting .seg2 [.transport .ok]) = some (.wrBlk 0x4400 2, [0xBB, 0xCC]) := by decide
theorem witness_IllegalCommandWord :
    (heldOff 0x700000000000 [] [.cbat]).cfg.wellFormed = true ∧ (heldOff 0x700000000000 [] [.cbat]).ph = .idle
    ∧ decodeCommand 0x700000000000 = .error .reservedOpcode := ⟨by decide, rfl, rfl⟩
theorem witness_CommandIsHeldOff :
    Presented.wellFormed ⟨0x680100000003, [1, 2, 3]⟩ = true ∧ (receiving .seg1 [] [.cbat]).ph ≠ .idle := by decide
theorem witness_TableAndCommandStay :
    (receiving .seg1 [] [.cbat]).ph ≠ .idle ∧ nextAnd (step (receiving .seg1 [] [.cbat])) (fun _ => true) = true := by decide
theorem witness_OtherAgents :
    nextAnd (step { scenario with inputs := [.master 0x344000002 [0xBB, 0xCC] .ok] }) (fun t => t.mem != scenario.mem) = true
    ∧ nextAnd (step { scenario with inputs := [.peripheral [(0x0428, 0), (0xFFFF, 7)]] }) (fun t => t.mem != scenario.mem) = true
    ∧ Memory.wf scenario.mem = true := by decide
theorem witness_CommandInIdle :
    scenario.ph = .idle ∧ ¬ isTransportPrimitive (.receive 0 4)
    ∧ nextAnd (exec (.receive 0 4) scenario) (fun t => t.ph == .rdHi) = true := by decide
theorem witness_CbatTurnStops :
    { overflowing with pending := [⟨0x500100000001, []⟩] }.Inv ∧ (heldOff 0x500000000004 [] [.cbat]).Inv := by decide
theorem witness_LatchesAgree :
    agreeButUnwritten (receiving .rdHi [] [.transport .ok])
      { receiving .rdHi [] [.transport .ok] with rsp := Response.done, lat := ⟨⟨2048, 0x6000⟩, 0x12, 0x3456, [], []⟩ } :=
  ⟨rfl, fun _ => ⟨rfl, rfl⟩, rfl, rfl⟩
theorem witness_LatchesAgree_idle :
    agreeButUnwritten (heldOff 0x680100000003 [1, 2, 3] [.cbat])
      { heldOff 0x680100000003 [1, 2, 3] [.cbat] with
        cmd := 0xFFFFFFFFFFFF, pay := [9], rsp := Response.done, lat := ⟨⟨7, 7⟩, 0x12, 0x3456, [], [5]⟩ } :=
  ⟨rfl, fun h => absurd rfl h, trivial⟩
theorem witness_LatchesAgree_runs :
    nextAnd (step (heldOff 0x680100000003 [1, 2, 3] [.cbat])) (fun t => t.ph == .rdHi) = true := by decide
theorem witness_FramingVariant : 1 ≤ 32767 ∧ (receiving .seg1 [] [.transport .ok]).cfg.wellFormed = true := by decide

end Sys2Proof.Tests
end

/-! PROOFS. The scope rules of 00_scope.md: what the other agents of R5 leave alone (R152), and where CBAT's own turn stops (R14, R126). First what a
step is for the turn that heads the schedule, then the frames of the agents' turns, then what a command can answer. -/

namespace Sys2Proof.Machine

variable {s t : State}

/-! ## Which turn a step takes -/

/-- Only a well-formed configuration has a next state (R10). -/
theorem wellFormed_of_step_next (h : step s = .next t) : s.cfg.wellFormed = true := by
  unfold step at h
  split at h
  · assumption
  · cases h

/-- A step takes the oldest turn out of the schedule. -/
theorem step_of_inputs_cons {tn : Turn} {ts : List Turn} (hc : s.cfg.wellFormed = true) (hi : s.inputs = tn :: ts) :
    step s = takeTurn tn { s with inputs := ts } := by
  simp [step, hc, nextTurn, hi]

/-- A step with no turn listed is CBAT's turn (log entry 7). -/
theorem step_of_inputs_nil (hc : s.cfg.wellFormed = true) (hi : s.inputs = []) : step s = cbatTurn s := by
  simp [step, hc, nextTurn, hi]

/-- Whether CBAT's turn is listed or none is, the step is CBAT's turn on the state with the rest of the schedule. -/
theorem exists_step_eq_cbatTurn (hc : s.cfg.wellFormed = true)
    (h : s.inputs = [] ∨ ∃ ts, s.inputs = .cbat :: ts) : ∃ ts, step s = cbatTurn { s with inputs := ts } := by
  rcases h with hi | ⟨ts, hi⟩
  · refine ⟨[], ?_⟩
    rw [step_of_inputs_nil hc hi, ← hi]
  · exact ⟨ts, step_of_inputs_cons hc hi⟩

/-! ## The other agents -/

/-- Another master's turn is one primitive, so it changes `PMem` and the port only (R152). -/
theorem masterTurn_frame {w : Nat} {wdata : List Byte} {v : Verdict} (h : masterTurn w wdata v s = .next t) :
    t = { s with mem := t.mem, port := t.port } := by
  unfold masterTurn at h
  split at h
  next i hd => exact exec_primitive_frame (s := putOnPort wdata v s) (isPrimitive_of_decodeRequest hd) h
  next => cases h

/-- A byte that the peripheral does not name keeps its value (R28). -/
theorem Memory.read_pokeAll_of_not_named {m : Memory} (hm : Memory.wf m = true) (limit : Nat) {ws : List (Nat × Byte)}
    {a : Nat} (ha : ∀ b, (a, b) ∉ ws) : Memory.read (Memory.pokeAll limit m ws) a = Memory.read m a := by
  induction ws generalizing m with
  | nil => rfl
  | cons w ws ih =>
    obtain ⟨x, c⟩ := w
    have hne : x ≠ a := fun e => ha c (by simp [e])
    have hws : ∀ b, (a, b) ∉ ws := fun b hb => ha b (List.mem_cons_of_mem _ hb)
    rw [Memory.pokeAll]
    split
    · rw [ih (Memory.wf_write hm x c) hws, Memory.read_write hm, if_neg hne]
    · exact ih hm hws

/-- Settles O56: the master's turn by the frame of a primitive, the peripheral's by its list of writes. -/
theorem otherAgentsLeaveCbatAlone : Obligations.OtherAgentsLeaveCbatAlone := by
  intro s t ts h
  have hc := wellFormed_of_step_next h
  refine ⟨fun w wdata v hi => ?_, fun writes hi => ?_⟩
  · rw [step_of_inputs_cons hc hi] at h
    exact masterTurn_frame h
  · rw [step_of_inputs_cons hc hi] at h
    cases h
    exact ⟨rfl, fun hm a ha => Memory.read_pokeAll_of_not_named hm _ ha⟩

/-! ## What a command can answer -/

/-- A command word decodes to a command, never to a primitive (R72). -/
theorem not_isPrimitive_of_decodeCommand {w : Command} {i : Instr} (h : decodeCommand w = .ok i) :
    ¬ isTransportPrimitive i := by
  unfold decodeCommand at h
  repeat' split at h
  all_goals cases h
  all_goals exact id

/-- Where going on answers a next state, so does going on or taking the error. -/
theorem orRaise_answers_next {α : Type} (x : Except ErrorKind α) {go : α → Result} (hgo : ∀ a, ∃ t, go a = .next t) :
    ∃ t, orRaise x s go = .next t := by
  cases x with
  | ok a => exact hgo a
  | error k => exact ⟨_, rfl⟩

/-- `SET_SLICE_SIZE` never stops: each of its checks answers an error (R90). -/
theorem execSetSliceSize_answers_next (d : Dir) (ch : Chan) (size : Half) (s : State) :
    ∃ t, execSetSliceSize d ch size s = .next t := by
  unfold execSetSliceSize
  split
  · exact ⟨_, rfl⟩
  · split <;> exact ⟨_, rfl⟩

/-- A transfer command stops only by the refusal of R126 step 4. -/
theorem beginTransfer_next_or_refused (d : Dir) (ch : Chan) (len : Half) (buf : List Byte) (s : State) :
    (∃ t, beginTransfer d ch len buf s = .next t)
    ∨ (beginTransfer d ch len buf s = .refused .sliceDoesNotFit ∧ sliceFits s.cfg d (s.pt.entry d ch.toNat) = false) := by
  rcases beginTransfer_cases d ch len buf s with ⟨_, e⟩ | ⟨_, _, e⟩ | ⟨_, _, _, e⟩ | ⟨_, _, _, hf, e⟩ | ⟨_, _, _, _, e⟩
  · exact .inl ⟨_, e⟩
  · exact .inl ⟨_, e⟩
  · exact .inl ⟨_, e⟩
  · exact .inr ⟨e, hf⟩
  · exact .inl ⟨_, e⟩

/-- A command stops only where it is a transfer whose slice does not fit (R126 step 4). -/
theorem exec_command_next_or_refused {i : Instr} (hi : ¬ isTransportPrimitive i) (s : State) :
    (∃ t, exec i s = .next t)
    ∨ (exec i s = .refused .sliceDoesNotFit
        ∧ ∃ d ch len, i = transferInstr d ch len ∧ sliceFits s.cfg d (s.pt.entry d ch.toNat) = false) := by
  cases i with
  | setSliceSize d ch size => exact .inl (execSetSliceSize_answers_next d ch size s)
  | getSlice d ch => exact .inl (orRaise_answers_next _ fun _ => ⟨_, rfl⟩)
  | translate d ch p => exact .inl (orRaise_answers_next _ fun _ => ⟨_, rfl⟩)
  | plan d ch p len => exact .inl (orRaise_answers_next _ fun _ => orRaise_answers_next _ fun _ => ⟨_, rfl⟩)
  | receive ch len =>
    exact (beginTransfer_next_or_refused .rx ch len [] s).imp id fun ⟨e, hf⟩ => ⟨e, .rx, ch, len, rfl, hf⟩
  | transmit ch len =>
    exact (beginTransfer_next_or_refused .tx ch len s.pay s).imp id fun ⟨e, hf⟩ => ⟨e, .tx, ch, len, rfl, hf⟩
  | rdReg | wrReg | rdBlk | wrBlk => exact absurd trivial hi

/-- Accepting a command stops only where it is a transfer whose slice does not fit; an illegal word is answered (R74). -/
theorem accept_next_or_refused (c : Presented) (s : State) :
    (∃ t, accept c s = .next t)
    ∨ (accept c s = .refused .sliceDoesNotFit
        ∧ ∃ d ch len, decodeCommand c.word = .ok (transferInstr d ch len)
          ∧ sliceFits s.cfg d (s.pt.entry d ch.toNat) = false) := by
  unfold accept
  cases hd : decodeCommand c.word with
  | error e => exact .inl ⟨_, rfl⟩
  | ok i =>
    refine (exec_command_next_or_refused (not_isPrimitive_of_decodeCommand hd) (latchCommand c s)).imp id ?_
    rintro ⟨e, d, ch, len, rfl, hf⟩
    exact ⟨e, d, ch, len, rfl, hf⟩

/-- CBAT's turn waits, or in `IDLE` accepts the oldest command held off (R173, R136). -/
theorem cbatTurn_cases (s : State) :
    cbatTurn s = .next s
    ∨ ∃ c rest, s.ph = .idle ∧ s.pending = c :: rest ∧ cbatTurn s = accept c { s with pending := rest } := by
  unfold cbatTurn
  split
  next c rest hp hq => exact .inr ⟨c, rest, hp, hq, rfl⟩
  next => exact .inl rfl

theorem sliceFits_eq_false_iff {c : Config} {d : Dir} {sl : Slice} :
    sliceFits c d sl = false ↔ c.regionEnd d < sl.base + sl.size.toNat := by
  simp [sliceFits]

/-- Settles O58: CBAT waits or accepts, and accepting stops only by the refusal of R126 step 4. -/
theorem cbatTurnStopsOnlyOnASliceThatDoesNotFit : Obligations.CbatTurnStopsOnlyOnASliceThatDoesNotFit := by
  intro s hinv hturn
  obtain ⟨ts, hstep⟩ := exists_step_eq_cbatTurn hinv.1 hturn
  rw [hstep]
  rcases cbatTurn_cases { s with inputs := ts } with hwait | ⟨c, rest, hidle, hpending, haccept⟩
  · exact .inl ⟨_, hwait⟩
  · rw [haccept]
    refine (accept_next_or_refused c _).imp id ?_
    rintro ⟨hrefused, d, ch, len, hdecode, hfits⟩
    exact ⟨hrefused, hidle, c, rest, d, ch, len, hpending, hdecode, sliceFits_eq_false_iff.mp hfits⟩

end Sys2Proof.Machine

/-! PROOFS. What each agent's turn can do, said once: the command CBAT accepts (60_exceptions.md R173), the reply it takes (43_pointer_sync.md
R135), the reset input (70_reset_and_hazards.md R185). -/

namespace Sys2Proof.Machine

variable {s t u : State}

/-! ## What a step can do -/

/-- A step that answers a next state is the turn that heads the schedule, or CBAT's where none is listed (log entry 7). -/
theorem exists_takeTurn_of_step_next (h : step s = .next t) :
    ∃ tn ts, (s.inputs = tn :: ts ∨ s.inputs = [] ∧ tn = .cbat) ∧ takeTurn tn { s with inputs := ts } = .next t := by
  have hc := wellFormed_of_step_next h
  cases hi : s.inputs with
  | nil =>
    rw [step_of_inputs_nil hc hi] at h
    exact ⟨.cbat, [], .inr ⟨rfl, rfl⟩, by rwa [takeTurn, ← hi]⟩
  | cons tn ts => exact ⟨tn, ts, .inl rfl, by rwa [← step_of_inputs_cons hc hi]⟩

/-- The host buffer at the start of a transfer (R25): empty for `RECEIVE`, the payload for `TRANSMIT`. -/
def startBuffer (d : Dir) (pay : List Byte) : List Byte :=
  match d with
  | .rx => []
  | .tx => pay

/-- The transfer passes the checks of R126 and moves at least one byte. -/
structure PassesChecks (d : Dir) (ch : Chan) (len : Half) (s : State) : Prop where
  known   : s.unknownChannel ch = false
  nonzero : len ≠ 0#16
  within  : len.toNat ≤ (s.pt.entry d ch.toNat).size.toNat
  fits    : sliceFits s.cfg d (s.pt.entry d ch.toNat) = true

/-- What a command can do when it answers a next state. -/
inductive CommandEffect (i : Instr) (s : State) : State → Prop where
  /-- it takes an error (R166) -/
  | error (k : ErrorKind) : CommandEffect i s (raise k s)
  /-- it answers and changes nothing else -/
  | answer (r : Response) : CommandEffect i s (respond r s)
  /-- a `SET_SLICE_SIZE` sets the size and lays its direction out (R90, R91) -/
  | setSize (d : Dir) (ch : Chan) (size : Half) (hi : i = .setSliceSize d ch size) (hs : size.toNat ∈ s.cfg.allowed) :
      CommandEffect i s (respond Response.done (setTable (s.pt.setSize s.cfg d ch.toNat size) s))
  /-- a transfer that passes the checks starts the sequencer (R135) -/
  | start (d : Dir) (ch : Chan) (len : Half) (hi : i = transferInstr d ch len) (hp : PassesChecks d ch len s) :
      CommandEffect i s (startTransfer (s.pt.entry d ch.toNat) (startBuffer d s.pay) s)

/-- Going on or taking the error: a next state comes from one of the two. -/
theorem orRaise_next_cases {α : Type} {x : Except ErrorKind α} {go : α → Result} (h : orRaise x s go = .next t) :
    (∃ k, t = raise k s) ∨ ∃ a, go a = .next t := by
  cases x with
  | ok a => exact .inr ⟨a, h⟩
  | error k => cases h; exact .inl ⟨k, rfl⟩

/-- `SET_SLICE_SIZE` takes an error or sets an allowed size (R90). -/
theorem commandEffect_of_execSetSliceSize {d : Dir} {ch : Chan} {size : Half}
    (h : execSetSliceSize d ch size s = .next t) : CommandEffect (.setSliceSize d ch size) s t := by
  unfold execSetSliceSize at h
  split at h
  · cases h; exact .error _
  · split at h
    next => cases h; exact .error _
    next hs =>
      cases h
      exact .setSize d ch size rfl (by simpa [List.contains_iff_mem] using hs)

/-- A lookup that answers from the entry takes the error or answers. -/
theorem commandEffect_of_lookup {α : Type} {i : Instr} {x : Except ErrorKind α} {r : α → Response}
    (h : (orRaise x s fun a => .next (respond (r a) s)) = .next t) : CommandEffect i s t := by
  rcases orRaise_next_cases h with ⟨k, rfl⟩ | ⟨a, ha⟩
  · exact .error k
  · cases ha; exact .answer _

/-- A transfer command takes an error, answers the zero length, or starts the sequencer (R126). -/
theorem commandEffect_of_beginTransfer {d : Dir} {ch : Chan} {len : Half}
    (h : beginTransfer d ch len (startBuffer d s.pay) s = .next t) : CommandEffect (transferInstr d ch len) s t := by
  rcases beginTransfer_cases d ch len (startBuffer d s.pay) s with
    ⟨_, e⟩ | ⟨_, _, e⟩ | ⟨_, _, _, e⟩ | ⟨_, _, _, _, e⟩ | ⟨hk, h0, hl, hf, e⟩ <;> rw [e] at h <;> cases h
  · exact .error _
  · exact .answer _
  · exact .error _
  · exact .start d ch len rfl ⟨hk, h0, hl, hf⟩

/-- Everything a command can do, said once. -/
theorem commandEffect_of_exec {i : Instr} (hi : ¬ isTransportPrimitive i) (h : exec i s = .next t) :
    CommandEffect i s t := by
  cases i with
  | setSliceSize d ch size => exact commandEffect_of_execSetSliceSize h
  | getSlice d ch => exact commandEffect_of_lookup h
  | translate d ch p => exact commandEffect_of_lookup h
  | plan d ch p len =>
    rcases orRaise_next_cases h with ⟨k, rfl⟩ | ⟨sl, hsl⟩
    · exact .error k
    · exact commandEffect_of_lookup hsl
  | receive ch len => exact commandEffect_of_beginTransfer (d := .rx) h
  | transmit ch len => exact commandEffect_of_beginTransfer (d := .tx) h
  | rdReg | wrReg | rdBlk | wrBlk => exact absurd trivial hi

/-- Accepting a command: an illegal word takes its error (R165), a legal one is run. -/
theorem accept_next_cases {c : Presented} (h : accept c s = .next t) :
    t = raise .illegalCommandError (latchCommand c s)
    ∨ ∃ i, decodeCommand c.word = .ok i ∧ CommandEffect i (latchCommand c s) t := by
  unfold accept at h
  cases hd : decodeCommand c.word with
  | error e => rw [hd] at h; cases h; exact .inl rfl
  | ok i =>
    rw [hd] at h
    exact .inr ⟨i, rfl, commandEffect_of_exec (not_isPrimitive_of_decodeCommand hd) h⟩

/-- CBAT's turn waits, or in `IDLE` accepts the oldest command held off (R173). -/
theorem cbatTurn_next_cases (h : cbatTurn s = .next t) :
    t = s ∨ ∃ c rest, s.ph = .idle ∧ s.pending = c :: rest ∧ accept c { s with pending := rest } = .next t := by
  rcases cbatTurn_cases s with e | ⟨c, rest, hp, hq, e⟩ <;> rw [e] at h
  · cases h; exact .inl rfl
  · exact .inr ⟨c, rest, hp, hq, h⟩

/-- The reset input resets CBAT after the outstanding primitive, if any, has landed in part (U26). -/
theorem resetTurn_next_cases {landed : List Bool} (h : resetTurn landed s = .next t) :
    ∃ u, t = resetCbat u
      ∧ (u = s ∨ ∃ i w, requestOf s = some (i, w) ∧ exec i (putOnPort w (.fail landed) s) = .next u) := by
  unfold resetTurn at h
  split at h
  next => cases h; exact ⟨s, rfl, .inl rfl⟩
  next i w hr =>
    split at h
    next u hu => cases h; exact ⟨u, rfl, .inr ⟨i, w, hr, hu⟩⟩
    next => cases h
    next => cases h

/-- A presented command that can be formed is held off behind the others (R173, D28). -/
theorem presentTurn_next {c : Presented} (h : presentTurn c s = .next t) :
    c.wellFormed = true ∧ t = { s with pending := s.pending ++ [c] } := by
  unfold presentTurn at h
  split at h
  next hw => cases h; exact ⟨hw, rfl⟩
  next => cases h

/-! ## What CBAT leaves alone when it takes a reply -/

/-- Taking a reply moves the phase, the latches and the response, and nothing else (R135). -/
theorem advance_frame (s : State) :
    ∃ ph rsp lat free, advance s = { s with ph := ph, rsp := rsp, lat := lat, free := free } := by
  have hfinish : ∀ r, ∃ ph rsp lat free, finish r s = { s with ph := ph, rsp := rsp, lat := lat, free := free } := by
    intro r
    unfold finish quiesce
    split <;> exact ⟨_, _, _, _, rfl⟩
  have hmove : ∀ p l, ∃ ph rsp lat free, moveTo p l s = { s with ph := ph, rsp := rsp, lat := lat, free := free } :=
    fun p l => ⟨_, _, _, _, rfl⟩
  unfold advance
  split
  next data _ =>
    unfold advanceOk
    split
    next => exact ⟨_, _, _, _, rfl⟩
    next => exact hmove _ _
    next =>
      split
      next => exact hmove _ _
      next k _ => exact hfinish (Response.failed k)
    next => exact hmove _ _
    next => exact hmove _ _
    next => exact hmove _ _
    next => exact hfinish _
  next => exact hfinish (Response.failed .transportError)

@[simp] theorem advance_cfg (s : State) : (advance s).cfg = s.cfg := by
  obtain ⟨_, _, _, _, e⟩ := advance_frame s
  rw [e]

@[simp] theorem advance_pt (s : State) : (advance s).pt = s.pt := by
  obtain ⟨_, _, _, _, e⟩ := advance_frame s
  rw [e]

@[simp] theorem advance_mem (s : State) : (advance s).mem = s.mem := by
  obtain ⟨_, _, _, _, e⟩ := advance_frame s
  rw [e]

@[simp] theorem advance_pending (s : State) : (advance s).pending = s.pending := by
  obtain ⟨_, _, _, _, e⟩ := advance_frame s
  rw [e]

/-- The primitive outstanding leaves all but `PMem` and the port. -/
theorem exec_request_frame {i : Instr} {w : List Byte} {v : Verdict} (hr : requestOf s = some (i, w))
    (h : exec i (putOnPort w v s) = .next u) : ∃ m p, u = { s with mem := m, port := p } :=
  ⟨_, _, exec_primitive_frame (s := putOnPort w v s) (isPrimitive_of_requestOf hr) h⟩

end Sys2Proof.Machine

/-! PROOFS. What no step changes: the configuration (10_state.md R33), and the PartitionTable but for `SET_SLICE_SIZE` and reset (R21, R34). -/

namespace Sys2Proof.Machine

variable {s t : State}

/-! ## The configuration -/

theorem CommandEffect.cfg_eq {i : Instr} (h : CommandEffect i s t) : t.cfg = s.cfg := by
  cases h <;> simp

theorem accept_cfg {c : Presented} (h : accept c s = .next t) : t.cfg = s.cfg := by
  rcases accept_next_cases h with rfl | ⟨i, _, he⟩
  · simp
  · exact he.cfg_eq

/-- No agent's turn changes the configuration. -/
theorem takeTurn_cfg {tn : Turn} (h : takeTurn tn s = .next t) : t.cfg = s.cfg := by
  cases tn with
  | cbat =>
    rcases cbatTurn_next_cases h with rfl | ⟨c, rest, _, _, ha⟩
    · rfl
    · exact accept_cfg (s := { s with pending := rest }) ha
  | transport v =>
    rcases transportTurn_cases h with ⟨_, rfl⟩ | ⟨i, w, u, hr, hu, rfl⟩
    · rfl
    · obtain ⟨m, p, rfl⟩ := exec_request_frame hr hu
      simp
  | present c =>
    obtain ⟨_, rfl⟩ := presentTurn_next h
    rfl
  | master w wdata v => rw [masterTurn_frame h]
  | peripheral ws => cases h; rfl
  | reset landed =>
    obtain ⟨u, rfl, rfl | ⟨i, w, hr, hu⟩⟩ := resetTurn_next_cases h
    · rfl
    · obtain ⟨m, p, rfl⟩ := exec_request_frame hr hu
      rfl

/-- Settles O12, turn by turn. -/
theorem noStepChangesTheConfiguration : Obligations.NoStepChangesTheConfiguration := by
  intro s t h
  obtain ⟨tn, ts, _, ht⟩ := exists_takeTurn_of_step_next h
  exact takeTurn_cfg (s := { s with inputs := ts }) ht

/-! ## The table -/

/-- A command that changes the table is a `SET_SLICE_SIZE` that answers OK. -/
theorem CommandEffect.setSize_of_pt_ne {i : Instr} (h : CommandEffect i s t) (hpt : t.pt ≠ s.pt) :
    (∃ d ch size, i = .setSliceSize d ch size) ∧ t.rsp = Response.done := by
  cases h with
  | error k => simp at hpt
  | answer r => simp at hpt
  | setSize d ch size hi _ => exact ⟨⟨d, ch, size, hi⟩, rfl⟩
  | start d ch len _ _ => simp at hpt

/-- An instruction that changes the table is a `SET_SLICE_SIZE` that answers OK. -/
theorem setSliceSize_of_exec_pt_ne {i : Instr} (h : exec i s = .next t) (hpt : t.pt ≠ s.pt) :
    (∃ d ch size, i = .setSliceSize d ch size) ∧ t.rsp = Response.done := by
  by_cases hi : isTransportPrimitive i
  · exact absurd (congrArg State.pt (exec_primitive_frame hi h)) hpt
  · exact (commandEffect_of_exec hi h).setSize_of_pt_ne hpt

/-- Accepting a command that changes the table: it is a `SET_SLICE_SIZE` that answers OK. -/
theorem setSliceSize_of_accept_pt_ne {c : Presented} (h : accept c s = .next t) (hpt : t.pt ≠ s.pt) :
    t.rsp = Response.done ∧ ∃ d ch size, decodeCommand c.word = .ok (.setSliceSize d ch size) := by
  rcases accept_next_cases h with rfl | ⟨i, hd, he⟩
  · simp at hpt
  · obtain ⟨⟨d, ch, size, rfl⟩, hdone⟩ := he.setSize_of_pt_ne hpt
    exact ⟨hdone, d, ch, size, hd⟩

/-- A turn that changes the table is the reset input's, or CBAT's accepting a `SET_SLICE_SIZE` that answers OK. -/
theorem takeTurn_pt_ne {tn : Turn} (h : takeTurn tn s = .next t) (hpt : t.pt ≠ s.pt) :
    (∃ landed, tn = .reset landed)
    ∨ (tn = .cbat ∧ s.ph = .idle ∧ t.rsp = Response.done
        ∧ ∃ c rest d ch size, s.pending = c :: rest ∧ decodeCommand c.word = .ok (.setSliceSize d ch size)) := by
  cases tn with
  | cbat =>
    rcases cbatTurn_next_cases h with rfl | ⟨c, rest, hidle, hpending, ha⟩
    · exact absurd rfl hpt
    · obtain ⟨hdone, d, ch, size, hd⟩ := setSliceSize_of_accept_pt_ne ha hpt
      exact .inr ⟨rfl, hidle, hdone, c, rest, d, ch, size, hpending, hd⟩
  | transport v =>
    rcases transportTurn_cases h with ⟨_, rfl⟩ | ⟨i, w, u, hr, hu, rfl⟩
    · exact absurd rfl hpt
    · obtain ⟨m, p, rfl⟩ := exec_request_frame hr hu
      simp at hpt
  | present c =>
    obtain ⟨_, rfl⟩ := presentTurn_next h
    exact absurd rfl hpt
  | master w wdata v => exact absurd (congrArg State.pt (masterTurn_frame h)) hpt
  | peripheral ws => cases h; exact absurd rfl hpt
  | reset landed => exact .inl ⟨landed, rfl⟩

/-- Settles O21: the instructions by what a command can do, the steps turn by turn. -/
theorem onlySetSliceSizeChangesTheTable : Obligations.OnlySetSliceSizeChangesTheTable := by
  refine ⟨fun i s t h hpt => setSliceSize_of_exec_pt_ne h hpt, fun s t h hpt => ?_⟩
  obtain ⟨tn, ts, hin, ht⟩ := exists_takeTurn_of_step_next h
  rcases takeTurn_pt_ne ht hpt with ⟨landed, rfl⟩ | ⟨rfl, hidle, hdone, hcommand⟩
  · rcases hin with hin | ⟨_, hne⟩
    · exact .inl ⟨landed, ts, hin⟩
    · cases hne
  · refine .inr ⟨hidle, ?_, hdone, hcommand⟩
    rcases hin with hin | ⟨hin, _⟩
    · exact .inr ⟨ts, hin⟩
    · exact .inl hin

end Sys2Proof.Machine

/-! PROOFS. Every step keeps the invariant (10_state.md R25, R26; 43_pointer_sync.md R126, R135): the table, then the latches of a transfer
in flight, then turn by turn. -/

namespace Sys2Proof.Machine

variable {s t u : State}

/-! ## The table -/

/-- Laying out keeps the sizes. -/
theorem exists_size_eq_of_mem_layout {acc : Nat} {es : List Slice} {e : Slice} (h : e ∈ layout acc es) :
    ∃ e' ∈ es, e'.size = e.size := by
  have hm : e.size ∈ (layout acc es).map Slice.size := List.mem_map_of_mem h
  rw [map_size_layout] at hm
  exact List.mem_map.mp hm

/-- A resized entry has the new size or its old one. -/
theorem size_eq_or_mem_of_mem_resize {k : Nat} {size : Half} {es : List Slice} {e : Slice} (h : e ∈ resize k size es) :
    e.size = size ∨ e ∈ es := by
  obtain ⟨j, hj⟩ := List.mem_iff_getElem?.mp h
  rw [getElem?_resize] at hj
  obtain ⟨e', he', rfl⟩ := Option.map_eq_some_iff.mp hj
  split
  · exact .inl rfl
  · exact .inr (List.mem_of_getElem? he')

/-- One direction of the table as the invariant has it (R26), as propositions. -/
theorem entriesSound_iff {c : Config} {d : Dir} {es : List Slice} :
    entriesSound c d es = true ↔
      es.length = c.n ∧ (∀ e ∈ es, e.size.toNat ∈ c.allowed) ∧ es = layout (c.regionBase d) es := by
  simp only [entriesSound, Bool.and_eq_true, beq_iff_eq, List.all_eq_true, List.contains_iff_mem, and_assoc]

/-- `N` entries of allowed sizes, laid out, are sound. -/
theorem entriesSound_layout {c : Config} {d : Dir} {es : List Slice} (hl : es.length = c.n)
    (hs : ∀ e ∈ es, e.size.toNat ∈ c.allowed) : entriesSound c d (layout (c.regionBase d) es) = true := by
  refine entriesSound_iff.mpr ⟨by simpa using hl, fun e he => ?_, (layout_layout _ _).symm⟩
  obtain ⟨e', he', hsize⟩ := exists_size_eq_of_mem_layout he
  exact hsize ▸ hs e' he'

theorem tableSound_iff : tableSound s = true ↔ ∀ d, entriesSound s.cfg d (s.pt.entries d) = true := by
  rw [tableSound, Bool.and_eq_true]
  exact ⟨fun ⟨hrx, htx⟩ d => by cases d <;> assumption, fun h => ⟨h .rx, h .tx⟩⟩

/-- The table of reset is sound (R34). -/
theorem tableSound_reset (hc : s.cfg.wellFormed = true) : tableSound (setTable (PartitionTable.reset s.cfg) s) = true := by
  obtain ⟨_, hallowed, hdefault, _⟩ := wellFormed_facts hc
  refine tableSound_iff.mpr fun d => ?_
  have hsize : (BitVec.ofNat 16 s.cfg.defaultSize).toNat = s.cfg.defaultSize := by
    have := isSliceSize_le (hallowed _ hdefault)
    simp only [BitVec.toNat_ofNat]
    omega
  rw [setTable_pt, entries_reset]
  refine entriesSound_layout (by simp) fun e he => ?_
  rw [List.eq_of_mem_replicate he]
  simpa [hsize] using hdefault

/-- Setting an allowed size keeps the table sound (R90, R91). -/
theorem tableSound_setSize (h : tableSound s = true) (d : Dir) (k : Nat) {size : Half} (hs : size.toNat ∈ s.cfg.allowed) :
    tableSound (setTable (s.pt.setSize s.cfg d k size) s) = true := by
  refine tableSound_iff.mpr fun d' => ?_
  have hd' := tableSound_iff.mp h d'
  by_cases hd : d = d'
  · subst hd
    obtain ⟨hlength, hsizes, _⟩ := entriesSound_iff.mp hd'
    rw [setTable_pt, setTable_cfg, PartitionTable.setSize, entries_withEntries]
    refine entriesSound_layout (by simpa using hlength) fun e he => ?_
    rcases size_eq_or_mem_of_mem_resize he with he | he
    · exact he ▸ hs
    · exact hsizes e he
  · rwa [setTable_pt, setTable_cfg, PartitionTable.setSize, entries_withEntries_of_ne _ _ hd]

/-! ## The latches -/

/-- In `IDLE` the invariant asks nothing of the latches. -/
theorem flightSound_of_idle (h : s.ph = .idle) : flightSound s = true := by
  rw [flightSound, h]

/-- A `RECEIVE` or `TRANSMIT` word has its own fields as operands, and names its direction in bit 43 (R73). -/
theorem fields_of_decode_transfer {w : Command} {d : Dir} {ch : Chan} {len : Half}
    (h : decodeCommand w = .ok (transferInstr d ch len)) :
    Command.dir w = d ∧ Command.ch w = ch ∧ Command.fieldB w = len := by
  unfold decodeCommand at h
  cases d <;> simp only [transferInstr] at h <;> repeat' split at h
  all_goals cases h
  all_goals exact ⟨by simp_all, rfl, rfl⟩

/-- The buffer at the start of a transfer: nothing read, or the whole payload (R25). -/
theorem bufSound_startTransfer {d : Dir} {ch : Chan} {len : Half} (sl : Slice)
    (hd : decodeCommand s.cmd = .ok (transferInstr d ch len))
    (hpay : s.pay.length = Command.payloadLength s.cmd) :
    bufSound (startTransfer sl (startBuffer d s.pay) s) 0 = true := by
  obtain ⟨hdir, _, hlen⟩ := fields_of_decode_transfer hd
  rw [Command.payloadLength, hd] at hpay
  cases d with
  | rx => simp [bufSound, State.cmdDir, hdir, startBuffer]
  | tx => simp [bufSound, State.cmdDir, State.cmdLen, hdir, hlen, startBuffer, hpay, transferInstr, Instr.payloadLength]

/-- A transfer that passed the checks starts with its latches as `RD_HI` needs them (R25, R126). -/
theorem flightSound_startTransfer {d : Dir} {ch : Chan} {len : Half} (hp : PassesChecks d ch len s)
    (hd : decodeCommand s.cmd = .ok (transferInstr d ch len))
    (hpay : s.pay.length = Command.payloadLength s.cmd) :
    flightSound (startTransfer (s.pt.entry d ch.toNat) (startBuffer d s.pay) s) = true := by
  have hbuf := bufSound_startTransfer (s.pt.entry d ch.toNat) hd hpay
  obtain ⟨rfl, rfl, rfl⟩ := fields_of_decode_transfer hd
  obtain ⟨hknown, hnonzero, hwithin, hfits⟩ := hp
  simp only [flightSound, startTransfer_ph, transferSound, Bool.and_eq_true, beq_iff_eq, bne_iff_ne, decide_eq_true_eq,
    Bool.not_eq_true']
  exact ⟨⟨⟨⟨⟨⟨congrArg Except.toOption hd, hknown⟩, rfl⟩, hnonzero⟩, hwithin⟩, hfits⟩, hbuf⟩

/-- The number of bytes an ok reply to a primitive carries (R79). -/
def replyLength : Instr → Nat
  | .rdReg _ => 1
  | .rdBlk _ len => len.toNat
  | _ => 0

/-- An ok reply carries the bytes its request asked for. -/
theorem exec_reply_length {i : Instr} (hi : isTransportPrimitive i) (h : exec i s = .next t) {data : List Byte}
    (hd : t.port.reply = .ok data) : data.length = replyLength i := by
  have hr : ∀ a n, busRead a n s = .next t → data.length = n := by
    intro a n h
    rcases busRead_cases a n s with ⟨_, e⟩ | ⟨_, _, e⟩ | ⟨_, _, e⟩ <;> rw [e] at h <;> cases h <;> cases hd
    exact Memory.length_readBlock _ _ _
  have hw : ∀ a n, busWrite a n s = .next t → data.length = 0 := by
    intro a n h
    rcases busWrite_cases a n s with ⟨_, e⟩ | ⟨_, _, e⟩ | ⟨_, _, _, e⟩ | ⟨_, _, _, _, e⟩ <;> rw [e] at h <;> cases h <;>
      cases hd
    rfl
  cases i with
  | rdReg a => exact hr _ _ h
  | wrReg a => exact hw _ _ h
  | rdBlk a n => exact hr _ _ h
  | wrBlk a n => exact hw _ _ h
  | _ => exact absurd hi id

/-- The plan of a sound transfer is one segment of the whole length, or two that sum to it (R112, R116). -/
theorem segs_of_planSound (hi : s.Inv) (ht : transferSound s = true) (hp : planSound s = true) :
    (∃ sg, s.lat.segs = [sg] ∧ sg.len.toNat = s.cmdLen.toNat)
    ∨ ∃ sg sg', s.lat.segs = [sg, sg'] ∧ sg.len.toNat + sg'.len.toNat = s.cmdLen.toNat := by
  obtain ⟨_, hch, hslice, hnonzero, hwithin, _⟩ := transferSound_facts ht
  have hsize : isSliceSize s.lat.slice.size.toNat = true := hslice ▸ entry_isSliceSize hi _ hch
  rcases planSegments_ok_iff.mp (planSound_iff.mp hp) with ⟨h0, _⟩ | ⟨_, _, hsegs⟩
  · exact absurd h0 hnonzero
  · rw [hsegs]
    have ho := offsetOf_lt hsize s.lat.p
    rcases splitSegments_cases hsize s.lat.p s.cmdLen with ⟨_, e⟩ | ⟨hwrap, l1, l2, e, h1, h2⟩
    · exact .inl ⟨_, e, rfl⟩
    · exact .inr ⟨_, _, e, by simp only [h1, h2]; omega⟩

/-- After a segment the buffer holds its bytes too (R128). -/
theorem bufSound_bufAfter {got n : Nat} {data : List Byte} (h : bufSound s got = true)
    (hd : s.cmdDir = .rx → data.length = n) (p : Phase) :
    bufSound (moveTo p { s.lat with buf := bufAfter s.cmdDir s.lat.buf data } s) (got + n) = true := by
  unfold bufSound at h ⊢
  cases hdir : s.cmdDir <;> simp_all [bufAfter]

/-- The reply to a segment's read has the segment's length. -/
theorem replyLength_segmentRequest {d : Dir} (hd : d = .rx) (buf : List Byte) (pos : Nat) (sg : Segment) :
    replyLength (segmentRequest d buf pos sg).1 = sg.len.toNat := by
  subst hd
  rfl

/-- The bytes of the first segment, when the plan is one segment, complete the buffer; else the second segment follows. -/
theorem flightSound_after_seg1 (hi : s.Inv) (hph : s.ph = .seg1) {i : Instr} {w data : List Byte}
    (hr : requestOf s = some (i, w)) (hd : data.length = replyLength i) : flightSound (advanceOk data s) = true := by
  have hflight := hi.2.2.2.1
  simp only [flightSound, hph, Bool.and_eq_true] at hflight
  obtain ⟨⟨htransfer, hplan⟩, hbuf⟩ := hflight
  have hread : ∀ sg, s.lat.segs.head? = some sg → s.cmdDir = .rx → data.length = sg.len.toNat := by
    intro sg hsg hdir
    obtain ⟨rest, hsegs⟩ := List.head?_eq_some_iff.mp hsg
    simp only [requestOf, hph, hsegs, Option.some.injEq] at hr
    rw [hd, ← replyLength_segmentRequest hdir s.lat.buf 0 sg, hr]
  simp only [advanceOk, hph]
  rcases segs_of_planSound hi htransfer hplan with ⟨sg, hsegs, hlen⟩ | ⟨sg, sg', hsegs, _⟩
  · have hgot := bufSound_bufAfter hbuf (hread sg (by simp [hsegs])) .wrHi
    rw [if_neg (by simp [hsegs])]
    simp only [flightSound, moveTo_ph, Bool.and_eq_true]
    exact ⟨⟨htransfer, hplan⟩, by simpa [hlen] using hgot⟩
  · have hgot := bufSound_bufAfter hbuf (hread sg (by simp [hsegs])) .seg2
    rw [if_pos (by simp [hsegs])]
    simp only [flightSound, moveTo_ph, Bool.and_eq_true]
    exact ⟨⟨⟨htransfer, hplan⟩, by simp [hsegs]⟩, by simpa [hsegs] using hgot⟩

/-- The bytes of the second segment complete the buffer. -/
theorem flightSound_after_seg2 (hi : s.Inv) (hph : s.ph = .seg2) {i : Instr} {w data : List Byte}
    (hr : requestOf s = some (i, w)) (hd : data.length = replyLength i) : flightSound (advanceOk data s) = true := by
  have hflight := hi.2.2.2.1
  simp only [flightSound, hph, Bool.and_eq_true, beq_iff_eq] at hflight
  obtain ⟨⟨⟨htransfer, hplan⟩, htwo⟩, hbuf⟩ := hflight
  rcases segs_of_planSound hi htransfer hplan with ⟨sg, hsegs, _⟩ | ⟨sg, sg', hsegs, hsum⟩
  · simp [hsegs] at htwo
  · have hread : s.cmdDir = .rx → data.length = sg'.len.toNat := by
      intro hdir
      simp only [requestOf, hph, hsegs, Option.some.injEq] at hr
      rw [hd, ← replyLength_segmentRequest hdir s.lat.buf sg.len.toNat sg', hr]
    have hgot := bufSound_bufAfter hbuf hread .wrHi
    simp only [advanceOk, hph, flightSound, moveTo_ph, Bool.and_eq_true]
    refine ⟨⟨htransfer, hplan⟩, ?_⟩
    simpa only [hsegs, List.headD_cons, hsum, moveTo_cmdLen] using hgot

/-- An ok reply of the length asked for leaves the latches as the next phase needs them (R135). -/
theorem flightSound_advanceOk (hi : s.Inv) {i : Instr} {w data : List Byte} (hr : requestOf s = some (i, w))
    (hd : data.length = replyLength i) : flightSound (advanceOk data s) = true := by
  have hflight := hi.2.2.2.1
  cases hph : s.ph with
  | idle => simp [requestOf, hph] at hr
  | rdHi =>
    rw [flightSound, hph] at hflight
    rw [advanceOk, hph]
    exact hflight
  | rdLo =>
    simp only [flightSound, hph, Bool.and_eq_true] at hflight
    obtain ⟨htransfer, hbuf⟩ := hflight
    rw [advanceOk, hph]
    dsimp only
    split
    next segs hsegs =>
      simp only [flightSound, moveTo_ph, Bool.and_eq_true]
      exact ⟨⟨htransfer, planSound_iff.mpr hsegs⟩, hbuf⟩
    next => exact flightSound_of_idle (raise_ph _ _)
  | seg1 => exact flightSound_after_seg1 hi hph hr hd
  | seg2 => exact flightSound_after_seg2 hi hph hr hd
  | wrHi =>
    rw [flightSound, hph] at hflight
    rw [advanceOk, hph]
    exact hflight
  | wrLo =>
    rw [advanceOk, hph]
    exact flightSound_of_idle (finish_ph _ _)

/-- CBAT takes a reply of the length asked for, or `fail`: the latches stay sound. -/
theorem flightSound_advance (hi : s.Inv) {i : Instr} {w : List Byte} (hr : requestOf s = some (i, w))
    (hd : ∀ data, s.port.reply = .ok data → data.length = replyLength i) : flightSound (advance s) = true := by
  unfold advance
  split
  next data hreply => exact flightSound_advanceOk hi hr (hd data hreply)
  next => exact flightSound_of_idle (raise_ph _ _)

/-! ## The invariant, turn by turn -/

/-- The invariant asks of `PMem` only that it is sound, and nothing of the port. -/
theorem inv_of_mem_port (hi : s.Inv) {m : Memory} {p : Port} (hm : memSound (setMem m s) = true) :
    { s with mem := m, port := p }.Inv := by
  obtain ⟨hcfg, htable, _, hflight, hpending⟩ := hi
  exact ⟨hcfg, htable, hm, hflight, hpending⟩

/-- A primitive performed keeps the invariant, whoever asked for it. -/
theorem inv_of_exec_primitive {i : Instr} (hp : isTransportPrimitive i) (hi : s.Inv) (w : List Byte) (v : Verdict)
    (h : exec i (putOnPort w v s) = .next t) : t.Inv := by
  have hm := exec_primitive_memSound hp (s := putOnPort w v s) hi.2.2.1 h
  have hframe := exec_primitive_frame (s := putOnPort w v s) hp h
  rw [hframe] at hm ⊢
  exact inv_of_mem_port hi hm

/-- Taking an error keeps the invariant: it ends in `IDLE` and leaves the table and `PMem` (R166). -/
theorem raise_keeps_inv (hi : s.Inv) (k : ErrorKind) : (raise k s).Inv := by
  obtain ⟨hcfg, htable, hmem, _, hpending⟩ := hi
  simp only [State.Inv, tableSound, memSound, raise_cfg, raise_pt, raise_mem, raise_pending]
  exact ⟨hcfg, htable, hmem, flightSound_of_idle (raise_ph _ _), hpending⟩

/-- Whatever a latched command of the right payload does in `IDLE` keeps the invariant. -/
theorem CommandEffect.inv {i : Instr} (h : CommandEffect i s t) (hi : s.Inv) (hidle : s.ph = .idle)
    (hd : decodeCommand s.cmd = .ok i) (hpay : s.pay.length = Command.payloadLength s.cmd) : t.Inv := by
  obtain ⟨hcfg, htable, hmem, hflight, hpending⟩ := hi
  cases h with
  | error k => exact raise_keeps_inv ⟨hcfg, htable, hmem, hflight, hpending⟩ k
  | answer r => exact ⟨hcfg, htable, hmem, hflight, hpending⟩
  | setSize d ch size _ hs =>
    exact ⟨hcfg, tableSound_setSize htable d _ hs, hmem, flightSound_of_idle hidle, hpending⟩
  | start d ch len hinstr hp =>
    exact ⟨hcfg, htable, hmem, flightSound_startTransfer hp (hinstr ▸ hd) hpay, hpending⟩

/-- Accepting a well-formed command in `IDLE` keeps the invariant. -/
theorem accept_keeps_inv {c : Presented} (hi : s.Inv) (hidle : s.ph = .idle) (hc : c.wellFormed = true)
    (h : accept c s = .next t) : t.Inv := by
  have hlatched : (latchCommand c s).Inv := by
    obtain ⟨hcfg, htable, hmem, _, hpending⟩ := hi
    exact ⟨hcfg, htable, hmem, flightSound_of_idle hidle, hpending⟩
  rcases accept_next_cases h with rfl | ⟨i, hd, he⟩
  · exact raise_keeps_inv hlatched _
  · exact he.inv hlatched hidle hd (beq_iff_eq.mp hc)

theorem cbatTurn_keeps_inv (hi : s.Inv) (h : cbatTurn s = .next t) : t.Inv := by
  rcases cbatTurn_next_cases h with rfl | ⟨c, rest, hidle, hpending, ha⟩
  · exact hi
  · obtain ⟨hcfg, htable, hmem, hflight, hheld⟩ := hi
    rw [hpending, List.all_cons, Bool.and_eq_true] at hheld
    exact accept_keeps_inv (s := { s with pending := rest }) ⟨hcfg, htable, hmem, hflight, hheld.2⟩ hidle hheld.1 ha

theorem transportTurn_keeps_inv {v : Verdict} (hi : s.Inv) (h : transportTurn v s = .next t) : t.Inv := by
  rcases transportTurn_cases h with ⟨_, rfl⟩ | ⟨i, w, u, hr, hu, rfl⟩
  · exact hi
  · have hprimitive := isPrimitive_of_requestOf hr
    have hinv := inv_of_exec_primitive hprimitive hi w v hu
    have hreply := fun data => exec_reply_length (data := data) hprimitive hu
    obtain ⟨m, p, rfl⟩ := exec_request_frame hr hu
    have hflight := flightSound_advance hinv (w := w) hr hreply
    obtain ⟨hcfg, htable, hmem, _, hpending⟩ := hinv
    simp only [State.Inv, tableSound, memSound, advance_cfg, advance_pt, advance_mem, advance_pending]
    exact ⟨hcfg, htable, hmem, hflight, hpending⟩

theorem presentTurn_keeps_inv {c : Presented} (hi : s.Inv) (h : presentTurn c s = .next t) : t.Inv := by
  obtain ⟨hc, rfl⟩ := presentTurn_next h
  obtain ⟨hcfg, htable, hmem, hflight, hpending⟩ := hi
  exact ⟨hcfg, htable, hmem, hflight, by simp_all⟩

theorem masterTurn_keeps_inv {w : Nat} {wdata : List Byte} {v : Verdict} (hi : s.Inv)
    (h : masterTurn w wdata v s = .next t) : t.Inv := by
  unfold masterTurn at h
  split at h
  next i hd => exact inv_of_exec_primitive (isPrimitive_of_decodeRequest hd) hi wdata v h
  next => cases h

theorem peripheralTurn_keeps_inv (hi : s.Inv) (ws : List (Nat × Byte)) (h : peripheralTurn ws s = .next t) : t.Inv := by
  cases h
  obtain ⟨hwf, hbelow⟩ := Bool.and_eq_true_iff.mp hi.2.2.1
  exact inv_of_mem_port hi (Bool.and_eq_true_iff.mpr ⟨Memory.wf_pokeAll hwf ws, Memory.below_pokeAll hbelow ws⟩)

theorem resetCbat_keeps_inv (hi : s.Inv) : (resetCbat s).Inv := by
  obtain ⟨hcfg, _, hmem, _, hpending⟩ := hi
  exact ⟨hcfg, tableSound_reset hcfg, hmem, flightSound_of_idle rfl, hpending⟩

theorem resetTurn_keeps_inv {landed : List Bool} (hi : s.Inv) (h : resetTurn landed s = .next t) : t.Inv := by
  obtain ⟨u, rfl, rfl | ⟨i, w, hr, hu⟩⟩ := resetTurn_next_cases h
  · exact resetCbat_keeps_inv hi
  · exact resetCbat_keeps_inv (inv_of_exec_primitive (isPrimitive_of_requestOf hr) hi w _ hu)

/-- The turn of every agent keeps the invariant. -/
theorem takeTurn_keeps_inv {tn : Turn} (hi : s.Inv) (h : takeTurn tn s = .next t) : t.Inv := by
  cases tn with
  | cbat => exact cbatTurn_keeps_inv hi h
  | transport v => exact transportTurn_keeps_inv hi h
  | present c => exact presentTurn_keeps_inv hi h
  | master w wdata v => exact masterTurn_keeps_inv hi h
  | peripheral ws => exact peripheralTurn_keeps_inv hi ws h
  | reset landed => exact resetTurn_keeps_inv hi h

/-- Settles O11: a step is one agent's turn, and each turn keeps the invariant. -/
theorem everyStepKeepsTheInvariant : Obligations.EveryStepKeepsTheInvariant := by
  intro s t hi h
  obtain ⟨tn, ts, _, ht⟩ := exists_takeTurn_of_step_next h
  exact takeTurn_keeps_inv (s := { s with inputs := ts }) hi ht

end Sys2Proof.Machine

/-! PROOFS. The table as the rules write it (10_state.md R26), how slices lie (R27), the state of reset (R34), and the bounds of `PMem` (R28). -/

namespace Sys2Proof.Machine

variable {s : State}

/-! ## The state of reset -/

/-- Settles O9: the table is that of reset, `PMem` lists nothing, `IDLE` asks nothing of the latches, and nothing is held off. -/
theorem resetStateMeetsTheInvariant : Obligations.ResetStateMeetsTheInvariant := by
  have hcfg : State.reset.cfg.wellFormed = true := by decide
  exact ⟨hcfg, tableSound_reset hcfg, rfl, flightSound_of_idle rfl, rfl⟩

/-- Settles O10: the reference configuration's table, computed. -/
theorem resetTableIsTheDefaultTable : Obligations.ResetTableIsTheDefaultTable := by
  refine ⟨rfl, fun d => ?_, rfl, rfl⟩
  cases d <;> decide

/-! ## The formulas of the table invariant -/

/-- A sound table meets the rule's formulas (R26). -/
theorem tableFormula_of_tableSound (h : tableSound s = true) : tableFormula s :=
  fun d => ⟨(tableSound_facts h d).1, fun _ hk => entry_facts h d hk⟩

/-- Settles O13: the invariant holds at reset and every step keeps it. -/
theorem tableInvariantHoldsAfterResetAndEveryStep : Obligations.TableInvariantHoldsAfterResetAndEveryStep := by
  refine ⟨tableFormula_of_tableSound resetStateMeetsTheInvariant.2.1, fun s t hi h => ?_⟩
  obtain ⟨_, htable, _⟩ := everyStepKeepsTheInvariant s t hi h
  exact tableFormula_of_tableSound htable

/-! ## How slices lie -/

/-- The sum before the next channel adds the entry's size. -/
theorem sizesBefore_succ {es : List Slice} {k : Nat} (hk : k < es.length) :
    sizesBefore es (k + 1) = sizesBefore es k + es[k].size.toNat := by
  have hk' : k < (es.map fun e => e.size.toNat).length := by simpa using hk
  simp only [sizesBefore, List.map_take]
  rw [List.sum_take_succ _ _ hk', List.getElem_map]

/-- A slice begins where the one before it ends (R27 (a)). -/
theorem base_succ (h : tableSound s = true) (d : Dir) {k : Nat} (hk : k + 1 < s.cfg.n) :
    (s.pt.entry d (k + 1)).base = (s.pt.entry d k).base + (s.pt.entry d k).size.toNat := by
  have hk' : k < (s.pt.entries d).length := by
    rw [(tableSound_facts h d).1]
    omega
  rw [(entry_facts h d hk).2, (entry_facts h d (by omega : k < s.cfg.n)).2, sizesBefore_succ hk',
    entry_eq_getElem _ _ hk', Nat.add_assoc]

/-- A slice ends no later than any slice above it begins (R27 (a)). -/
theorem end_le_base (h : tableSound s = true) (d : Dir) {j k : Nat} (hjk : j < k) (hk : k < s.cfg.n) :
    (s.pt.entry d j).base + (s.pt.entry d j).size.toNat ≤ (s.pt.entry d k).base := by
  induction k, hjk using Nat.le_induction with
  | base => exact (base_succ h d hk).ge
  | succ k _ ih =>
    have := ih (by omega)
    rw [base_succ h d hk]
    omega

theorem sliceFits_iff {c : Config} {d : Dir} {sl : Slice} :
    sliceFits c d sl = true ↔ sl.base + sl.size.toNat ≤ c.regionEnd d := by
  simp [sliceFits]

/-- A slice that fits makes every earlier one of its direction fit (R27 (b)). -/
theorem sliceFits_of_later (h : tableSound s = true) (d : Dir) {j k : Nat} (hjk : j < k) (hk : k < s.cfg.n)
    (hf : sliceFits s.cfg d (s.pt.entry d k) = true) : sliceFits s.cfg d (s.pt.entry d j) = true := by
  rw [sliceFits_iff] at hf ⊢
  have := end_le_base h d hjk hk
  omega

/-- A byte of a slice that fits lies in the region of its direction. -/
theorem inRegion_of_inSlice (hi : s.Inv) (d : Dir) {k a : Nat} (hk : k < s.cfg.n)
    (hf : sliceFits s.cfg d (s.pt.entry d k) = true) (ha : inSlice (s.pt.entry d k) a) :
    s.cfg.regionBase d ≤ a ∧ a < s.cfg.regionEnd d := by
  obtain ⟨hbase, hend, _⟩ := fits_facts hi d hk hf
  obtain ⟨hlow, hhigh⟩ := ha
  exact ⟨by omega, by omega⟩

/-- No byte lies in both regions (R10). -/
theorem not_in_both_regions {c : Config} (hc : c.wellFormed = true) (a : Nat) :
    ¬ ((c.regionBase .rx ≤ a ∧ a < c.regionEnd .rx) ∧ c.regionBase .tx ≤ a ∧ a < c.regionEnd .tx) := by
  obtain ⟨_, _, _, _, hdisjoint, _⟩ := wellFormed_facts hc
  simp only [Config.regionsDisjoint, Bool.or_eq_true, beq_iff_eq, decide_eq_true_eq] at hdisjoint
  simp only [Config.regionEnd, Config.regionBase, Config.regionSize] at hdisjoint ⊢
  omega

/-- A byte of a pointer register pair is in no slice that fits (R27 (c)). -/
theorem not_inSlice_of_inPair (hi : s.Inv) (d : Dir) {k a : Nat} (hk : k < s.cfg.n)
    (hf : sliceFits s.cfg d (s.pt.entry d k) = true) {d' : Dir} {c : Nat} (hc : c < s.cfg.n)
    (ha : inPair s.cfg d' c a) : ¬ inSlice (s.pt.entry d k) a :=
  fun hin => (pair_facts hi.1 d' hc).2 a ha d (inRegion_of_inSlice hi d hk hf hin)

/-- Reset, then `SET_SLICE_SIZE rx, 0, 8192`: channel 0 fills the whole receive region. -/
def oversizedRx : State := setTable (State.reset.pt.setSize State.reset.cfg .rx 0 8192) State.reset

theorem oversizedRx_inv : oversizedRx.Inv := by
  obtain ⟨hcfg, htable, hmem, hflight, hpending⟩ := resetStateMeetsTheInvariant
  exact ⟨hcfg, tableSound_setSize htable .rx 0 (by decide), hmem, hflight, hpending⟩

/-- Settles O14: the layout sums, the regions apart, and a table in which channel 1 has no room. -/
theorem slicesLieEndToEndAndFittingSlicesAreApart : Obligations.SlicesLieEndToEndAndFittingSlicesAreApart := by
  refine ⟨fun s hi => ?_, oversizedRx, oversizedRx_inv, .rx, 1, by decide, by decide⟩
  have hcfg := hi.1
  have htable := hi.2.1
  refine ⟨fun d k hk => base_succ htable d hk, fun d j k a hjk hk ⟨hj, hk'⟩ => ?_,
    fun d j k hjk hk hf => sliceFits_of_later htable d hjk hk hf, fun j k a hj hk hfj hfk => ⟨fun ⟨hin, hin'⟩ => ?_, ?_⟩⟩
  · have := end_le_base htable d hjk hk
    obtain ⟨_, hlt⟩ := hj
    obtain ⟨hle, _⟩ := hk'
    omega
  · exact not_in_both_regions hcfg a ⟨inRegion_of_inSlice hi .rx hj hfj hin, inRegion_of_inSlice hi .tx hk hfk hin'⟩
  · exact fun d c hc ha => ⟨not_inSlice_of_inPair hi .rx hj hfj hc ha, not_inSlice_of_inPair hi .tx hk hfk hc ha⟩

/-! ## The bounds of `PMem` -/

/-- A read that would end above `PMem` faults (log entry 15). -/
theorem busRead_of_outside {addr n : Nat} (h : s.cfg.pmemSize < addr + n) :
    busRead addr n s = .fault (.addressOutsidePMem (addr + n - 1)) := if_pos h

/-- A write of the right length that would end above `PMem` faults (log entry 15). -/
theorem busWrite_of_outside {addr n : Nat} (hl : s.port.wdata.length = n) (h : s.cfg.pmemSize < addr + n) :
    busWrite addr n s = .fault (.addressOutsidePMem (addr + n - 1)) := by
  rw [busWrite, if_neg (not_not.mpr hl), if_pos h]

/-- Settles O35: the registers as blocks of one byte, the blocks by their last byte. -/
theorem primitiveBeyondPMemFaults : Obligations.PrimitiveBeyondPMemFaults :=
  fun _ _ _ =>
    ⟨fun h => busRead_of_outside (Nat.lt_succ_of_le h), fun h hl => busWrite_of_outside hl (Nat.lt_succ_of_le h),
      fun h => ⟨_, busRead_of_outside h⟩, fun h hl => ⟨_, busWrite_of_outside hl h⟩⟩

end Sys2Proof.Machine

/-! PROOFS. "Nothing reads them before they are written" (10_state.md R23, R25; 93_implementation_defined.md U25): two states that differ only
in latches not yet written are run side by side, first through the shared operations, then through each agent's turn. -/

namespace Sys2Proof.Machine

variable {s s' : State} {c : Command} {p : List Byte} {r : Response} {l : Latches} {x x' : Response}

/-! ## States that differ in their latches -/

/-- The state with other contents of `CMD`, `PAY`, `RSP` and `lat.*`. -/
def withLatches (c : Command) (p : List Byte) (r : Response) (l : Latches) (s : State) : State :=
  { s with cmd := c, pay := p, rsp := r, lat := l }

@[simp] theorem withLatches_cfg : (withLatches c p r l s).cfg = s.cfg := rfl
@[simp] theorem withLatches_pt : (withLatches c p r l s).pt = s.pt := rfl
@[simp] theorem withLatches_ph : (withLatches c p r l s).ph = s.ph := rfl
@[simp] theorem withLatches_cmd : (withLatches c p r l s).cmd = c := rfl
@[simp] theorem withLatches_pay : (withLatches c p r l s).pay = p := rfl
@[simp] theorem withLatches_rsp : (withLatches c p r l s).rsp = r := rfl
@[simp] theorem withLatches_lat : (withLatches c p r l s).lat = l := rfl
@[simp] theorem withLatches_mem : (withLatches c p r l s).mem = s.mem := rfl
@[simp] theorem withLatches_port : (withLatches c p r l s).port = s.port := rfl
@[simp] theorem withLatches_pending : (withLatches c p r l s).pending = s.pending := rfl
@[simp] theorem withLatches_inputs : (withLatches c p r l s).inputs = s.inputs := rfl

/-- `c`, `p` and `l` differ from the latches of `s` only where its phase has not written them. -/
def Unwritten (c : Command) (p : List Byte) (l : Latches) (s : State) : Prop :=
  (s.ph ≠ .idle → c = s.cmd ∧ p = s.pay) ∧ latchesAgree s.ph s.lat l

theorem agreeButUnwritten_withLatches : agreeButUnwritten s (withLatches c p r l s) ↔ Unwritten c p l s :=
  ⟨fun h => h.2, fun h => ⟨rfl, h⟩⟩

/-- The two states of the statement, as one state and other latches. -/
theorem exists_withLatches_of_agree (h : agreeButUnwritten s s') :
    ∃ c p r l, s' = withLatches c p r l s ∧ Unwritten c p l s :=
  ⟨_, _, _, _, h.1, h.2⟩

theorem unwritten_of_idle (h : s.ph = .idle) : Unwritten c p l s :=
  ⟨fun hb => absurd h hb, by rw [h]; trivial⟩

theorem latchesAgree_refl (ph : Phase) (l : Latches) : latchesAgree ph l l := by
  cases ph with
  | idle => trivial
  | rdHi => exact ⟨rfl, rfl⟩
  | rdLo => exact ⟨rfl, rfl, rfl⟩
  | seg1 | seg2 | wrHi | wrLo => exact ⟨rfl, rfl, rfl, rfl⟩

theorem agreeButUnwritten_refl (s : State) : agreeButUnwritten s s :=
  ⟨rfl, fun _ => ⟨rfl, rfl⟩, latchesAgree_refl _ _⟩

/-- Two answers, from states with the responses `x` and `x'`: next states that differ in no more, with the response written alike in both or
left in both; or the same stop. -/
inductive AnswersAlike (x x' : Response) : Result → Result → Prop where
  | next {t t' : State} (hagree : agreeButUnwritten t t') (hrsp : t'.rsp = t.rsp ∨ (t.rsp = x ∧ t'.rsp = x')) :
      AnswersAlike x x' (.next t) (.next t')
  | fault (f : Fault) : AnswersAlike x x' (.fault f) (.fault f)
  | refused (f : Refusal) : AnswersAlike x x' (.refused f) (.refused f)

/-- One and the same answer. -/
theorem answersAlike_self (a : Result) : AnswersAlike x x' a a := by
  cases a with
  | next t => exact .next (agreeButUnwritten_refl t) (.inl rfl)
  | fault f => exact .fault f
  | refused f => exact .refused f

theorem AnswersAlike.answersAgree {a a' : Result} (h : AnswersAlike x x' a a') : answersAgree a a' := by
  cases h with
  | next hagree _ => exact hagree
  | fault f => rfl
  | refused f => rfl

theorem AnswersAlike.rsp_alike {t t' : State} (h : AnswersAlike x x' (.next t) (.next t')) :
    t'.rsp = t.rsp ∨ (t.rsp = x ∧ t'.rsp = x') := by
  cases h with
  | next _ hrsp => exact hrsp

/-- The same branch taken in both. -/
theorem ite_alike {P P' : Prop} [Decidable P] [Decidable P'] {a a' b b' : Result} (hP : P' ↔ P)
    (ha : AnswersAlike x x' a a') (hb : AnswersAlike x x' b b') :
    AnswersAlike x x' (if P then a else b) (if P' then a' else b') := by
  by_cases h : P
  · rwa [if_pos h, if_pos (hP.mpr h)]
  · rwa [if_neg h, if_neg (mt hP.mp h)]

/-! ## Answering, and ending an operation -/

/-- In `IDLE` a response is written alike. -/
theorem respond_alike (hidle : s.ph = .idle) (y : Response) :
    AnswersAlike x x' (.next (respond y s)) (.next (respond y (withLatches c p r l s))) :=
  .next (agreeButUnwritten_withLatches.mpr (unwritten_of_idle (s := respond y s) hidle)) (.inl rfl)

theorem quiesce_of_busy (h : s.ph ≠ .idle) :
    quiesce s = { s with ph := .idle, lat := Config.freeLatches s.free, free := s.free + 1 } := by
  unfold quiesce
  split
  · contradiction
  · rfl

/-- An operation ends alike: in `IDLE` with the response, whatever the latches held. -/
theorem finish_alike (y : Response) :
    AnswersAlike x x' (.next (finish y s)) (.next (finish y (withLatches c p r l s))) := by
  by_cases h : s.ph = .idle
  · rw [finish, finish, quiesce_idle s h, quiesce_idle (withLatches c p r l s) h]
    exact respond_alike h y
  · rw [finish, finish, quiesce_of_busy h, quiesce_of_busy (s := withLatches c p r l s) h]
    exact respond_alike (s := { s with ph := .idle, lat := _, free := _ }) rfl y

theorem raise_alike (k : ErrorKind) :
    AnswersAlike x x' (.next (raise k s)) (.next (raise k (withLatches c p r l s))) :=
  finish_alike (Response.failed k)

/-- Going on alike, or taking the same error. -/
theorem orRaise_alike {α : Type} (y : Except ErrorKind α) {go go' : α → Result} (h : ∀ a, AnswersAlike x x' (go a) (go' a)) :
    AnswersAlike x x' (orRaise y s go) (orRaise y (withLatches c p r l s) go') := by
  cases y with
  | ok a => exact h a
  | error k => exact raise_alike k

/-! ## Commands -/

/-- The sequence starts with the two latches it needs, whatever the others hold (R25). -/
theorem startTransfer_alike (sl : Slice) (buf : List Byte) :
    AnswersAlike s.rsp r (.next (startTransfer sl buf s))
      (.next (startTransfer sl buf (withLatches s.cmd s.pay r l s))) :=
  .next ⟨rfl, fun _ => ⟨rfl, rfl⟩, ⟨rfl, rfl⟩⟩ (.inr ⟨rfl, rfl⟩)

/-- Once the command is latched, the checks of R126 and the start of the sequence read no other latch. -/
theorem beginTransfer_alike (hidle : s.ph = .idle) (d : Dir) (ch : Chan) (len : Half) (buf : List Byte) :
    AnswersAlike s.rsp r (beginTransfer d ch len buf s)
      (beginTransfer d ch len buf (withLatches s.cmd s.pay r l s)) := by
  refine orRaise_alike (getSlice d ch s) fun sl => ite_alike Iff.rfl (respond_alike hidle _) ?_
  refine ite_alike Iff.rfl (raise_alike _) (ite_alike Iff.rfl (.refused _) ?_)
  exact startTransfer_alike sl buf

theorem execSetSliceSize_alike (hidle : s.ph = .idle) (d : Dir) (ch : Chan) (size : Half) :
    AnswersAlike s.rsp r (execSetSliceSize d ch size s)
      (execSetSliceSize d ch size (withLatches s.cmd s.pay r l s)) :=
  ite_alike Iff.rfl (raise_alike _) <| ite_alike Iff.rfl (raise_alike _) <|
    respond_alike (s := setTable (s.pt.setSize s.cfg d ch.toNat size) s) hidle _

/-- A latched command, run in `IDLE`, reads neither `RSP` nor `lat.*`. -/
theorem exec_command_alike {i : Instr} (hi : ¬ isTransportPrimitive i) (hidle : s.ph = .idle) :
    AnswersAlike s.rsp r (exec i s) (exec i (withLatches s.cmd s.pay r l s)) := by
  cases i with
  | setSliceSize d ch size => exact execSetSliceSize_alike hidle d ch size
  | getSlice d ch => exact orRaise_alike (getSlice d ch s) fun sl => respond_alike hidle _
  | translate d ch pointer => exact orRaise_alike (getSlice d ch s) fun sl => respond_alike hidle _
  | plan d ch pointer len =>
    exact orRaise_alike (getSlice d ch s) fun sl => orRaise_alike _ fun segs => respond_alike hidle _
  | receive ch len => exact beginTransfer_alike hidle .rx ch len []
  | transmit ch len => exact beginTransfer_alike hidle .tx ch len s.pay
  | rdReg | wrReg | rdBlk | wrBlk => exact absurd trivial hi

/-- Accepting latches the command over what stood in `CMD` and `PAY`. -/
theorem accept_alike (hidle : s.ph = .idle) (held : Presented) :
    AnswersAlike s.rsp r (accept held s) (accept held (withLatches c p r l s)) := by
  unfold accept
  cases hd : decodeCommand held.word with
  | error e => exact raise_alike (s := latchCommand held s) _
  | ok i => exact exec_command_alike (s := latchCommand held s) (not_isPrimitive_of_decodeCommand hd) hidle

/-! ## Primitives and replies -/

/-- A primitive reads and writes `PMem` and the port only. -/
theorem exec_primitive_withLatches {i : Instr} (hi : isTransportPrimitive i) (c : Command) (p : List Byte) (r : Response)
    (l : Latches) (s : State) : exec i (withLatches c p r l s) = mapNext (withLatches c p r l) (exec i s) := by
  have hr : ∀ a n, busRead a n (withLatches c p r l s) = mapNext (withLatches c p r l) (busRead a n s) := by
    intro a n
    by_cases h : s.cfg.pmemSize < a + n
    · simp [busRead, h, mapNext]
    · cases hv : s.port.verdict <;> simp [busRead, h, hv, mapNext, withLatches, reply]
  have hw : ∀ a n, busWrite a n (withLatches c p r l s) = mapNext (withLatches c p r l) (busWrite a n s) := by
    intro a n
    by_cases hl : s.port.wdata.length = n
    · by_cases h : s.cfg.pmemSize < a + n
      · simp [busWrite, hl, h, mapNext]
      · cases hv : s.port.verdict <;> simp [busWrite, hl, h, hv, mapNext, withLatches, reply, setMem]
    · simp [busWrite, hl, mapNext]
  cases i with
  | rdReg a => exact hr _ _
  | wrReg a => exact hw _ _
  | rdBlk a n => exact hr _ _
  | wrBlk a n => exact hw _ _
  | _ => exact absurd hi id

/-- A primitive put on the port and performed leaves the other latches in place. -/
theorem exec_putOnPort_withLatches {i : Instr} (hi : isTransportPrimitive i) (w : List Byte) (v : Verdict) :
    exec i (putOnPort w v (withLatches c p r l s)) = mapNext (withLatches c p r l) (exec i (putOnPort w v s)) :=
  exec_primitive_withLatches hi c p r l (putOnPort w v s)

/-- The primitive outstanding depends on latches already written only (R135). -/
theorem requestOf_withLatches (h : Unwritten c p l s) : requestOf (withLatches c p r l s) = requestOf s := by
  obtain ⟨hcmd, hlat⟩ := h
  unfold requestOf
  cases hph : s.ph <;>
    simp_all [latchesAgree, State.cmdDir, State.cmdCh, State.cmdLen, State.newPointer]

/-- The phase moves, with latches that agree as far as the new phase has written them. -/
theorem moveTo_alike {ph ph' : Phase} {m m' : Latches} (hph : ph' = ph) (h : latchesAgree ph m m') :
    AnswersAlike s.rsp r (.next (moveTo ph m s))
      (.next (moveTo ph' m' (withLatches s.cmd s.pay r l s))) := by
  subst hph
  exact .next ⟨rfl, fun _ => ⟨rfl, rfl⟩, h⟩ (.inr ⟨rfl, rfl⟩)

/-- In a busy phase an ok reply is taken alike: what it reads of `lat.*` is written (R135). -/
theorem advanceOk_alike (hl : latchesAgree s.ph s.lat l) (hbusy : s.ph ≠ .idle) (data : List Byte) :
    AnswersAlike s.rsp r (.next (advanceOk data s))
      (.next (advanceOk data (withLatches s.cmd s.pay r l s))) := by
  have hlen : (withLatches s.cmd s.pay r l s).cmdLen = s.cmdLen := rfl
  unfold advanceOk
  cases hph : s.ph <;> simp only [hph, withLatches_ph, withLatches_lat, hlen] at hl ⊢
  case idle => exact absurd hph hbusy
  case rdHi =>
    obtain ⟨hslice, hbuf⟩ := hl
    exact moveTo_alike rfl ⟨hslice, hbuf, rfl⟩
  case rdLo =>
    obtain ⟨hslice, hbuf, hhi⟩ := hl
    rw [← hslice, ← hhi]
    cases planSegments s.lat.slice (pointerOf s.lat.hi (data.headD 0)) s.cmdLen with
    | ok segs => exact moveTo_alike (ph := .seg1) rfl ⟨rfl, hbuf, rfl, rfl⟩
    | error k => exact raise_alike k
  case seg1 =>
    obtain ⟨hslice, hbuf, hp, hsegs⟩ := hl
    have hafter := congrArg (fun b => bufAfter s.cmdDir b data) hbuf
    have hnext := congrArg (fun sgs : List Segment => if sgs.length = 2 then Phase.seg2 else .wrHi) hsegs.symm
    exact moveTo_alike hnext (by split <;> exact ⟨hslice, hafter, hp, hsegs⟩)
  case seg2 =>
    obtain ⟨hslice, hbuf, hp, hsegs⟩ := hl
    exact moveTo_alike rfl ⟨hslice, congrArg (fun b => bufAfter s.cmdDir b data) hbuf, hp, hsegs⟩
  case wrHi => exact moveTo_alike rfl hl
  case wrLo =>
    obtain ⟨_, hbuf, _⟩ := hl
    rw [← hbuf]
    exact finish_alike _

/-- In a busy phase a reply is taken alike. -/
theorem advance_alike (hl : latchesAgree s.ph s.lat l) (hbusy : s.ph ≠ .idle) :
    AnswersAlike s.rsp r (.next (advance s))
      (.next (advance (withLatches s.cmd s.pay r l s))) := by
  unfold advance
  rw [withLatches_port]
  split
  · exact advanceOk_alike hl hbusy _
  · exact raise_alike _

/-! ## The turns -/

/-- In `IDLE` with a command held off, CBAT's turn accepts it (R173). -/
theorem cbatTurn_of_idle {held : Presented} {rest : List Presented} (hidle : s.ph = .idle) (hq : s.pending = held :: rest) :
    cbatTurn s = accept held { s with pending := rest } := by
  simp [cbatTurn, hidle, hq]

/-- Otherwise CBAT waits (R136, R173). -/
theorem cbatTurn_of_waiting (h : s.ph ≠ .idle ∨ s.pending = []) : cbatTurn s = .next s := by
  rcases cbatTurn_cases s with e | ⟨held, rest, hidle, hq, _⟩
  · exact e
  · simp [hidle, hq] at h

theorem cbatTurn_alike (h : Unwritten c p l s) :
    AnswersAlike s.rsp r (cbatTurn s) (cbatTurn (withLatches c p r l s)) := by
  by_cases hwait : s.ph ≠ .idle ∨ s.pending = []
  · rw [cbatTurn_of_waiting hwait, cbatTurn_of_waiting (s := withLatches c p r l s) hwait]
    exact .next (agreeButUnwritten_withLatches.mpr h) (.inr ⟨rfl, rfl⟩)
  · obtain ⟨hidle, hq⟩ := not_or.mp hwait
    have hidle := not_not.mp hidle
    obtain ⟨held, rest, hq⟩ := List.exists_cons_of_ne_nil hq
    rw [cbatTurn_of_idle hidle hq, cbatTurn_of_idle (s := withLatches c p r l s) hidle hq]
    exact accept_alike (s := { s with pending := rest }) hidle held

/-- Without a primitive outstanding nothing happens; with one CBAT is busy, and takes the same reply. -/
theorem transportTurn_alike (h : Unwritten c p l s) (v : Verdict) :
    AnswersAlike s.rsp r (transportTurn v s) (transportTurn v (withLatches c p r l s)) := by
  unfold transportTurn
  rw [requestOf_withLatches h]
  cases hr : requestOf s with
  | none => exact .next (agreeButUnwritten_withLatches.mpr h) (.inr ⟨rfl, rfl⟩)
  | some request =>
    obtain ⟨i, w⟩ := request
    have hbusy : s.ph ≠ .idle := fun hidle => by simp [requestOf, hidle] at hr
    obtain ⟨hcmd, hlat⟩ := h
    obtain ⟨rfl, rfl⟩ := hcmd hbusy
    dsimp only
    rw [exec_putOnPort_withLatches (isPrimitive_of_requestOf hr)]
    cases hu : exec i (putOnPort w v s) with
    | next u =>
      obtain ⟨m, q, rfl⟩ := exec_request_frame hr hu
      exact advance_alike (s := { s with mem := m, port := q }) hlat hbusy
    | fault f => exact .fault f
    | refused f => exact .refused f

theorem masterTurn_alike (h : Unwritten c p l s) (w : Nat) (wdata : List Byte) (v : Verdict) :
    AnswersAlike s.rsp r (masterTurn w wdata v s) (masterTurn w wdata v (withLatches c p r l s)) := by
  unfold masterTurn
  rw [withLatches_cfg]
  cases hd : decodeRequest s.cfg.addrW w with
  | error e => exact .refused _
  | ok i =>
    have hprimitive := isPrimitive_of_decodeRequest hd
    dsimp only
    rw [exec_putOnPort_withLatches hprimitive]
    cases hu : exec i (putOnPort wdata v s) with
    | next u =>
      have hframe := exec_primitive_frame (s := putOnPort wdata v s) hprimitive hu
      rw [hframe]
      exact .next ⟨rfl, h⟩ (.inr ⟨rfl, rfl⟩)
    | fault f => exact .fault f
    | refused f => exact .refused f

/-- The reset input writes every latch anew, so it answers the same. -/
theorem resetTurn_withLatches (h : Unwritten c p l s) (landed : List Bool) :
    resetTurn landed (withLatches c p r l s) = resetTurn landed s := by
  unfold resetTurn
  rw [requestOf_withLatches h]
  cases hr : requestOf s with
  | none => rfl
  | some request =>
    obtain ⟨i, w⟩ := request
    dsimp only
    rw [exec_putOnPort_withLatches (isPrimitive_of_requestOf hr)]
    cases exec i (putOnPort w (.fail landed) s) <;> rfl

/-- The turn of every agent answers alike. -/
theorem takeTurn_alike (h : Unwritten c p l s) (tn : Turn) :
    AnswersAlike s.rsp r (takeTurn tn s) (takeTurn tn (withLatches c p r l s)) := by
  cases tn with
  | cbat => exact cbatTurn_alike h
  | transport v => exact transportTurn_alike h v
  | present held =>
    simp only [takeTurn, presentTurn]
    split
    · exact .next ⟨rfl, h⟩ (.inr ⟨rfl, rfl⟩)
    · exact .refused _
  | master w wdata v => exact masterTurn_alike h w wdata v
  | peripheral ws => exact .next ⟨rfl, h⟩ (.inr ⟨rfl, rfl⟩)
  | reset landed =>
    rw [takeTurn, takeTurn, resetTurn_withLatches h]
    exact answersAlike_self _

/-- A step answers alike. -/
theorem step_alike (h : Unwritten c p l s) :
    AnswersAlike s.rsp r (step s) (step (withLatches c p r l s)) := by
  cases hc : s.cfg.wellFormed with
  | false =>
    simp only [step, withLatches_cfg, hc]
    exact .refused _
  | true =>
    cases hin : s.inputs with
    | nil =>
      rw [step_of_inputs_nil hc hin, step_of_inputs_nil (s := withLatches c p r l s) hc hin]
      exact cbatTurn_alike h
    | cons tn ts =>
      rw [step_of_inputs_cons hc hin, step_of_inputs_cons (s := withLatches c p r l s) hc hin]
      exact takeTurn_alike (s := { s with inputs := ts }) h tn

/-- Settles O59: the second state is the first with other latches, and every turn answers both alike. -/
theorem latchesAreNeverReadBeforeTheyAreWritten : Obligations.LatchesAreNeverReadBeforeTheyAreWritten := by
  intro s s' h
  obtain ⟨c, p, r, l, rfl, hu⟩ := exists_withLatches_of_agree h
  have halike := step_alike (r := r) hu
  refine ⟨halike.answersAgree, fun t t' ht ht' => ?_⟩
  rw [ht, ht'] at halike
  exact halike.rsp_alike

end Sys2Proof.Machine

/-! PROOFS. The byte order of words and pointers (20_memory.md R43, R45): a byte appended on the right is one more digit in base 256. -/

namespace Sys2Proof.Machine

/-- A byte appended on the right is the last digit in base 256. -/
theorem toNat_append_byte {n : Nat} (x : BitVec n) (b : Byte) : (x ++ b).toNat = x.toNat * 256 + b.toNat := by
  rw [BitVec.toNat_append, ← Nat.shiftLeft_add_eq_or_of_lt b.isLt, Nat.shiftLeft_eq]

/-- The byte at bit `k` is a quotient's remainder modulo 256. -/
theorem toNat_extract_byte {n : Nat} (x : BitVec n) (k : Nat) : (x.extractLsb' k 8).toNat = x.toNat / 2 ^ k % 256 := by
  rw [BitVec.extractLsb'_toNat, Nat.shiftRight_eq_div_pow]

/-! ## The pointer pair -/

theorem toNat_pointerOf (hi lo : Byte) : (pointerOf hi lo).toNat = hi.toNat * 256 + lo.toNat :=
  toNat_append_byte hi lo

theorem toNat_hiByte (v : Half) : (hiByte v).toNat = v.toNat / 256 := by
  have := v.isLt
  rw [hiByte, toNat_extract_byte]
  omega

theorem toNat_loByte (v : Half) : (loByte v).toNat = v.toNat % 256 := by
  rw [loByte, toNat_extract_byte, pow_zero, Nat.div_one]

/-- The two bytes of a pointer make it up again. -/
theorem pointerOf_hiByte_loByte (v : Half) : pointerOf (hiByte v) (loByte v) = v := by
  apply BitVec.eq_of_toNat_eq
  rw [toNat_pointerOf, toNat_hiByte, toNat_loByte]
  omega

/-- Settles O8: the pair in base 256, and the advance as one 16-bit addition. -/
theorem pointerIsBigEndianAndAdvancesModulo65536 : Obligations.PointerIsBigEndianAndAdvancesModulo65536 :=
  ⟨toNat_pointerOf, fun v => ⟨toNat_hiByte v, toNat_loByte v⟩, pointerOf_hiByte_loByte, fun _ _ _ => toNat_pointerOf _ _,
    fun s => BitVec.toNat_add s.lat.p s.cmdLen⟩

/-! ## The bytes of a command -/

/-- The six bytes of a word, read most-significant byte first, are the word (R45). -/
theorem valueMsbFirst_toBytes (w : Command) : valueMsbFirst (Command.toBytes w) = w.toNat := by
  have := w.isLt
  simp only [valueMsbFirst, Command.toBytes, List.foldl_cons, List.foldl_nil, toNat_extract_byte]
  omega

/-- The word read from six bytes has their value. -/
theorem exists_ofBytes_eq (b5 b4 b3 b2 b1 b0 : Byte) (rest : List Byte) :
    ∃ w, Command.ofBytes (b5 :: b4 :: b3 :: b2 :: b1 :: b0 :: rest) = some (w, rest)
      ∧ w.toNat = valueMsbFirst [b5, b4, b3, b2, b1, b0] := by
  refine ⟨_, rfl, ?_⟩
  simp only [BitVec.toNat_cast, toNat_append_byte, valueMsbFirst, List.foldl_cons, List.foldl_nil, Nat.zero_mul, Nat.zero_add]

/-- A word is read back from its bytes, whatever follows them. -/
theorem ofBytes_toBytes_append (w : Command) (rest : List Byte) :
    Command.ofBytes (Command.toBytes w ++ rest) = some (w, rest) := by
  obtain ⟨w', hread, hvalue⟩ := exists_ofBytes_eq (w.extractLsb' 40 8) (w.extractLsb' 32 8) (w.extractLsb' 24 8)
    (w.extractLsb' 16 8) (w.extractLsb' 8 8) (w.extractLsb' 0 8) rest
  have hw : w' = w := BitVec.eq_of_toNat_eq (hvalue.trans (valueMsbFirst_toBytes w))
  rw [hw] at hread
  exact hread

/-- Settles O5: the word is read back from its bytes, and the payload is cut off by its length (R81). -/
theorem commandBytesAreReadBackWhole : Obligations.CommandBytesAreReadBackWhole := by
  refine ⟨fun w => ⟨rfl, valueMsbFirst_toBytes w⟩, fun w i pay rest hdecode hpay => ?_⟩
  rw [decodeBytes, List.append_assoc, ofBytes_toBytes_append]
  simp [hdecode, ← hpay]

end Sys2Proof.Machine

/-! PROOFS. A transfer in progress seen from the other agents (20_memory.md R50, R59; 60_exceptions.md R173): the table, the command and its
payload stay whoever moves; `PMem` does not, so that the pointer can change between the reads of its two bytes (93_implementation_defined.md U13). -/

namespace Sys2Proof.Machine

variable {s t : State}

/-! ## What stays -/

@[simp] theorem advance_cmd (s : State) : (advance s).cmd = s.cmd := by
  obtain ⟨_, _, _, _, e⟩ := advance_frame s
  rw [e]

@[simp] theorem advance_pay (s : State) : (advance s).pay = s.pay := by
  obtain ⟨_, _, _, _, e⟩ := advance_frame s
  rw [e]

/-- In a busy phase every turn but the reset input's leaves the table, the command and its payload. -/
theorem takeTurn_keeps_table_and_command {tn : Turn} (hbusy : s.ph ≠ .idle) (hreset : ∀ landed, tn ≠ .reset landed)
    (h : takeTurn tn s = .next t) : t.pt = s.pt ∧ t.cmd = s.cmd ∧ t.pay = s.pay := by
  cases tn with
  | cbat =>
    rw [takeTurn, cbatTurn_of_waiting (.inl hbusy)] at h
    cases h
    exact ⟨rfl, rfl, rfl⟩
  | transport v =>
    rcases transportTurn_cases h with ⟨_, rfl⟩ | ⟨i, w, u, hr, hu, rfl⟩
    · exact ⟨rfl, rfl, rfl⟩
    · obtain ⟨m, p, rfl⟩ := exec_request_frame hr hu
      simp
  | present c =>
    obtain ⟨_, rfl⟩ := presentTurn_next h
    exact ⟨rfl, rfl, rfl⟩
  | master w wdata v =>
    rw [masterTurn_frame h]
    exact ⟨rfl, rfl, rfl⟩
  | peripheral ws =>
    cases h
    exact ⟨rfl, rfl, rfl⟩
  | reset landed => exact absurd rfl (hreset landed)

/-- Settles O55, turn by turn. -/
theorem tableAndCommandStayDuringATransfer : Obligations.TableAndCommandStayDuringATransfer := by
  intro s t hbusy hreset h
  obtain ⟨tn, ts, hin, ht⟩ := exists_takeTurn_of_step_next h
  refine takeTurn_keeps_table_and_command (s := { s with inputs := ts }) hbusy ?_ ht
  rintro landed rfl
  rcases hin with hin | ⟨_, hne⟩
  · exact hreset landed ts hin
  · cases hne

/-! ## Bus transactions with verdict ok -/

/-- A read inside `PMem` with verdict ok replies the bytes and changes nothing else (R145, R147). -/
theorem busRead_of_ok {addr n : Nat} (ha : addr + n ≤ s.cfg.pmemSize) (hv : s.port.verdict = .ok) :
    busRead addr n s = .next (reply (.ok (Memory.readBlock s.mem addr n)) s) := by
  rw [busRead, if_neg (Nat.not_lt.mpr ha), hv]

/-- A write of the right length inside `PMem` with verdict ok stores its bytes (R146, R148). -/
theorem busWrite_of_ok {addr n : Nat} (hl : s.port.wdata.length = n) (ha : addr + n ≤ s.cfg.pmemSize)
    (hv : s.port.verdict = .ok) :
    busWrite addr n s = .next (reply (.ok []) (setMem (Memory.writeBlock s.mem addr s.port.wdata) s)) := by
  rw [busWrite, if_neg (not_not.mpr hl), if_neg (Nat.not_lt.mpr ha), hv]

/-! ## The first turns of a run -/

theorem runSteps_succ_of_next {k : Nat} (h : step s = .next t) : runSteps (k + 1) s = runSteps k t := by
  have hstep : Sys2Proof.core.step s = .next t := h
  simp only [runSteps, Host.Core.run, hstep]
  rfl

/-- A run begins with the turn that heads the schedule. -/
theorem runSteps_succ_of_takeTurn {k : Nat} {tn : Turn} {ts : List Turn} {r : Result} (hc : s.cfg.wellFormed = true)
    (hin : s.inputs = tn :: ts) (h : takeTurn tn { s with inputs := ts } = .next t) (hrun : runSteps k t = r) :
    runSteps (k + 1) s = r := by
  rw [runSteps_succ_of_next ((step_of_inputs_cons hc hin).trans h), hrun]

/-! ## The two reads of the pointer -/

/-- CBAT's outstanding `RD_REG` answered ok: it takes the byte, and else only the port has changed. -/
theorem exists_transportTurn_ok_rdReg {a : Nat} (hr : requestOf s = some (.rdReg a, [])) (ha : a < s.cfg.pmemSize) :
    ∃ port, transportTurn .ok s = .next (advanceOk [Memory.read s.mem a] { s with port := port }) := by
  refine ⟨⟨[], .ok, .ok [Memory.read s.mem a]⟩, ?_⟩
  have hread : exec (.rdReg a) (putOnPort [] .ok s) = .next (reply (.ok [Memory.read s.mem a]) (putOnPort [] .ok s)) :=
    busRead_of_ok ha rfl
  rw [transportTurn, hr]
  dsimp only
  rw [hread]
  rfl

/-- In `RD_HI` an ok reply latches the most-significant byte (R127). -/
theorem exists_transportTurn_ok_of_rdHi (hph : s.ph = .rdHi) (ha : s.cfg.ptrReg s.cmdDir s.cmdCh < s.cfg.pmemSize) :
    ∃ port, transportTurn .ok s = .next
      (moveTo .rdLo { s.lat with hi := Memory.read s.mem (s.cfg.ptrReg s.cmdDir s.cmdCh) } { s with port := port }) := by
  obtain ⟨port, h⟩ := exists_transportTurn_ok_rdReg (by rw [requestOf, hph]) ha
  refine ⟨port, ?_⟩
  rw [h, advanceOk, hph]
  rfl

/-- A length that is at most the slice size has a plan (R113, R114). -/
theorem exists_planSegments_ok {sl : Slice} {len : Half} (h : len.toNat ≤ sl.size.toNat) (p : Half) :
    ∃ segs, planSegments sl p len = .ok segs := by
  by_cases h0 : len = 0#16
  · exact ⟨_, planSegments_ok_iff.mpr (.inl ⟨h0, rfl⟩)⟩
  · exact ⟨_, planSegments_ok_iff.mpr (.inr ⟨h0, h, rfl⟩)⟩

/-- In `RD_LO` an ok reply completes the pointer with the byte read now, and CBAT plans with it (R127, R135). -/
theorem exists_transportTurn_ok_of_rdLo (hph : s.ph = .rdLo) (ha : s.cfg.ptrReg s.cmdDir s.cmdCh + 1 < s.cfg.pmemSize)
    (hlen : s.cmdLen.toNat ≤ s.lat.slice.size.toNat) :
    ∃ t, transportTurn .ok s = .next t ∧ t.ph = .seg1
      ∧ t.lat.p = pointerOf s.lat.hi (Memory.read s.mem (s.cfg.ptrReg s.cmdDir s.cmdCh + 1)) := by
  obtain ⟨port, h⟩ := exists_transportTurn_ok_rdReg (by rw [requestOf, hph]) ha
  obtain ⟨segs, hplan⟩ := exists_planSegments_ok hlen
    (pointerOf s.lat.hi (Memory.read s.mem (s.cfg.ptrReg s.cmdDir s.cmdCh + 1)))
  refine ⟨_, h, ?_⟩
  simp only [advanceOk, hph, List.headD_cons, State.cmdLen] at hplan ⊢
  rw [hplan]
  exact ⟨rfl, rfl⟩

/-- Settles O48: `RD_HI` latches the old high byte, the peripheral moves, `RD_LO` reads the new low byte. -/
theorem pointerReadCanBeTorn : Obligations.PointerReadCanBeTorn := by
  intro s writes ts hi hph hin
  obtain ⟨_, hch, _, _, hlen, _⟩ := transferSound_facts (transferSound_of_busy hi (by simp [hph]))
  have hpair := (pair_facts hi.1 s.cmdDir hch).1
  obtain ⟨port, hhi⟩ := exists_transportTurn_ok_of_rdHi (s := { s with inputs := .peripheral writes :: .transport .ok :: ts })
    hph (Nat.lt_of_succ_lt hpair)
  obtain ⟨t, hlo, hseg, hp⟩ := exists_transportTurn_ok_of_rdLo
    (s := setMem (Memory.pokeAll s.cfg.pmemSize s.mem writes) (moveTo .rdLo
      { s.lat with hi := Memory.read s.mem (s.cfg.ptrReg s.cmdDir s.cmdCh) } { s with inputs := ts, port := port }))
    rfl hpair hlen
  refine ⟨t, ?_, hseg, hp⟩
  exact runSteps_succ_of_takeTurn hi.1 hin hhi <| runSteps_succ_of_takeTurn (tn := .peripheral writes) hi.1 rfl rfl <|
    runSteps_succ_of_takeTurn (tn := .transport .ok) hi.1 rfl hlo rfl

end Sys2Proof.Machine

/-! PROOFS. A plan carried out on the bus (43_pointer_sync.md R128; 20_memory.md R44, R61): the block writes leave the buffer in the bytes of the plan,
in its order, and the block reads return those bytes. -/

namespace Sys2Proof.Machine

variable {s t : State}

/-! ## Blocks as lists of addresses -/

/-- A block read is a read of each of its addresses. -/
theorem Memory.readBlock_eq_map (m : Memory) (a n : Nat) :
    Memory.readBlock m a n = (List.range' a n).map (Memory.read m) := by
  induction n generalizing a with
  | zero => rfl
  | succ n ih => rw [Memory.readBlock, ih, List.range'_succ, List.map_cons]

/-- A block that was written is read back. -/
theorem Memory.readBlock_writeBlock {m : Memory} (hm : Memory.wf m = true) (a : Nat) {bs : List Byte} {n : Nat}
    (hl : bs.length = n) : Memory.readBlock (Memory.writeBlock m a bs) a n = bs := by
  subst hl
  refine List.ext_getElem (Memory.length_readBlock _ _ _) fun i _ hi => ?_
  rw [Memory.getElem_readBlock, Memory.read_writeBlock hm, if_pos (by omega), Nat.add_sub_cancel_left,
    List.getD_eq_getElem _ _ hi]

theorem Segment.mem_addresses {sg : Segment} {a : Nat} :
    a ∈ sg.addresses ↔ sg.addr ≤ a ∧ a < sg.addr + sg.len.toNat := List.mem_range'_1

@[simp] theorem Segment.length_addresses (sg : Segment) : sg.addresses.length = sg.len.toNat := List.length_range'

theorem planAddresses_cons (sg : Segment) (segs : List Segment) :
    planAddresses (sg :: segs) = sg.addresses ++ planAddresses segs := List.flatMap_cons

/-- Every segment ends inside `PMem`. -/
def segmentsInside (c : Config) (segs : List Segment) : Prop := ∀ sg ∈ segs, sg.addr + sg.len.toNat ≤ c.pmemSize

theorem segmentsInside_cons {c : Config} {sg : Segment} {segs : List Segment} :
    segmentsInside c (sg :: segs) ↔ sg.addr + sg.len.toNat ≤ c.pmemSize ∧ segmentsInside c segs := List.forall_mem_cons

/-! ## Performing requests -/

/-- A `RD_BLK` inside `PMem` with verdict ok replies its bytes (R147). -/
theorem exists_rdBlk_ok {addr : Nat} {len : Half} (ha : addr + len.toNat ≤ s.cfg.pmemSize) (w : List Byte) :
    ∃ t, exec (.rdBlk addr len) (putOnPort w .ok s) = .next t ∧ t.cfg = s.cfg ∧ t.mem = s.mem
      ∧ t.port.reply = .ok (Memory.readBlock s.mem addr len.toNat) :=
  ⟨_, busRead_of_ok (s := putOnPort w .ok s) ha rfl, rfl, rfl, rfl⟩

/-- A `WR_BLK` of the right length inside `PMem` with verdict ok stores its bytes and replies none (R148). -/
theorem exists_wrBlk_ok {addr : Nat} {len : Half} {w : List Byte} (hl : w.length = len.toNat)
    (ha : addr + len.toNat ≤ s.cfg.pmemSize) :
    ∃ t, exec (.wrBlk addr len) (putOnPort w .ok s) = .next t ∧ t.cfg = s.cfg ∧ t.mem = Memory.writeBlock s.mem addr w
      ∧ t.port.reply = .ok [] :=
  ⟨_, busWrite_of_ok (s := putOnPort w .ok s) hl ha rfl, rfl, rfl, rfl⟩

/-- The first primitive's bytes come before those of the others. -/
theorem performAll_cons {i : Instr} {w data rest : List Byte} {requests : List (Instr × List Byte)} {u : State}
    (hi : exec i (putOnPort w .ok s) = .next t) (hreply : t.port.reply = .ok data)
    (hrest : performAll requests t = .next (u, rest)) :
    performAll ((i, w) :: requests) s = .next (u, data ++ rest) := by
  rw [performAll, hi]
  dsimp only
  rw [hrest, hreply]

/-- The block reads of a plan inside `PMem` return the bytes of the plan, in its order (R128). -/
theorem exists_performAll_reads {segs : List Segment} (hin : segmentsInside s.cfg segs) (buf : List Byte) (pos : Nat) :
    ∃ u, performAll (blockRequests .rx buf pos segs) s = .next (u, (planAddresses segs).map (Memory.read s.mem)) := by
  induction segs generalizing s pos with
  | nil => exact ⟨s, rfl⟩
  | cons sg segs ih =>
    obtain ⟨hsg, hsegs⟩ := segmentsInside_cons.mp hin
    obtain ⟨t, hread, hcfg, hmem, hreply⟩ := exists_rdBlk_ok hsg []
    obtain ⟨u, hu⟩ := ih (s := t) (hcfg ▸ hsegs) (pos + sg.len.toNat)
    refine ⟨u, ?_⟩
    rw [planAddresses_cons, List.map_append, Segment.addresses, ← Memory.readBlock_eq_map, ← hmem]
    exact performAll_cons hread (hmem ▸ hreply) hu

/-- The block writes of a plan inside `PMem` that names no byte twice leave the rest of the buffer in the bytes of the plan, in its order, and every other
byte as it was (R128). -/
theorem exists_performAll_writes {segs : List Segment} {buf : List Byte} {pos : Nat} (hm : Memory.wf s.mem = true)
    (hin : segmentsInside s.cfg segs) (hnodup : (planAddresses segs).Nodup)
    (hbuf : buf.length = pos + (planAddresses segs).length) :
    ∃ t, performAll (blockRequests .tx buf pos segs) s = .next (t, [])
      ∧ (planAddresses segs).map (Memory.read t.mem) = buf.drop pos
      ∧ ∀ a ∉ planAddresses segs, Memory.read t.mem a = Memory.read s.mem a := by
  induction segs generalizing s pos with
  | nil => exact ⟨s, rfl, (List.drop_eq_nil_of_le hbuf.le).symm, fun _ _ => rfl⟩
  | cons sg segs ih =>
    obtain ⟨hsg, hsegs⟩ := segmentsInside_cons.mp hin
    rw [planAddresses_cons] at hnodup hbuf ⊢
    obtain ⟨_, hnodup', hdisjoint⟩ := List.nodup_append'.mp hnodup
    rw [List.length_append, Segment.length_addresses] at hbuf
    have hlen : (bufRange buf pos sg.len.toNat).length = sg.len.toNat := by
      rw [bufRange, List.length_take, List.length_drop]
      omega
    obtain ⟨u, hwrite, hcfg, hmem, hreply⟩ := exists_wrBlk_ok hlen hsg
    obtain ⟨t, hrun, hplan, hframe⟩ := ih (s := u) (pos := pos + sg.len.toNat) (hmem ▸ Memory.wf_writeBlock hm _ _)
      (hcfg ▸ hsegs) hnodup' (by omega)
    rw [hmem] at hframe
    have hfirst : sg.addresses.map (Memory.read t.mem) = bufRange buf pos sg.len.toNat := by
      rw [List.map_congr_left fun a ha => hframe a (hdisjoint ha), Segment.addresses, ← Memory.readBlock_eq_map]
      exact Memory.readBlock_writeBlock hm _ hlen
    refine ⟨t, performAll_cons hwrite hreply hrun, ?_, fun a ha => ?_⟩
    · rw [List.map_append, hfirst, hplan, bufRange, ← List.drop_drop, List.take_append_drop]
    · obtain ⟨hout, hout'⟩ := not_or.mp (mt List.mem_append.mpr ha)
      rw [Segment.mem_addresses] at hout
      rw [hframe a hout', Memory.read_writeBlock hm, if_neg (by rwa [hlen])]

/-! ## The bytes of a plan -/

/-- The plan of a transfer stays in the slice, names no byte twice, and has one byte for each of the length (R116). -/
theorem planSegments_addresses {sl : Slice} {p len : Half} {segs : List Segment} (hsize : isSliceSize sl.size.toNat = true)
    (h : planSegments sl p len = .ok segs) :
    (∀ sg ∈ segs, sg.addr + sg.len.toNat ≤ sl.base + sl.size.toNat) ∧ (planAddresses segs).Nodup
      ∧ (planAddresses segs).length = len.toNat := by
  rcases planSegments_ok_iff.mp h with ⟨rfl, rfl⟩ | ⟨_, hlen, rfl⟩
  · exact ⟨by simp, List.nodup_nil, rfl⟩
  · have ho := offsetOf_lt hsize p
    rcases splitSegments_cases hsize p len with ⟨hfit, e⟩ | ⟨hwrap, l1, l2, e, h1, h2⟩ <;> rw [e]
    · refine ⟨fun sg hsg => ?_, ?_, ?_⟩
      · rw [List.mem_singleton.mp hsg]
        dsimp only
        omega
      · simpa [planAddresses, Segment.addresses] using List.nodup_range'
      · simp [planAddresses]
    · refine ⟨fun sg hsg => ?_, ?_, ?_⟩
      · rcases List.mem_pair.mp hsg with rfl | rfl <;> dsimp only <;> omega
      · simp only [planAddresses, List.flatMap_cons, List.flatMap_nil, List.append_nil]
        refine List.nodup_append'.mpr ⟨List.nodup_range', List.nodup_range', fun a ha ha' => ?_⟩
        rw [Segment.mem_addresses] at ha ha'
        dsimp only at ha ha'
        omega
      · simp only [planAddresses, List.flatMap_cons, List.flatMap_nil, List.length_append, Segment.length_addresses,
          List.length_nil]
        omega

/-- Settles O29: the writes leave the buffer in the bytes of the plan, and the reads return those bytes. -/
theorem writeThenReadThroughAPlanRoundTrips : Obligations.WriteThenReadThroughAPlanRoundTrips := by
  intro s sl p len segs buf hm hsize hfits _ _ hplan hbuf
  obtain ⟨hslice, hnodup, hlength⟩ := planSegments_addresses hsize hplan
  have hinside : segmentsInside s.cfg segs := fun sg hsg => (hslice sg hsg).trans hfits
  obtain ⟨t, hwrite, hstored, _⟩ := exists_performAll_writes (pos := 0) hm hinside hnodup (by rw [hbuf, hlength, Nat.zero_add])
  refine ⟨t, hwrite, fun t' hcfg hsame => ?_⟩
  obtain ⟨u, hread⟩ := exists_performAll_reads (s := t') (hcfg ▸ hinside) [] 0
  refine ⟨u, ?_⟩
  rw [hread, List.map_congr_left hsame, hstored, List.drop_zero]

end Sys2Proof.Machine

/-! PROOFS. The round trip of 30_encoding.md: decoding and encoding undo one another in both formats (R73, R74, R78). A command word is known by
its six fields, a request by its three; the rows of the opcode table are read off the fields. -/

namespace Sys2Proof

/-! ## A command word and its fields -/

/-- The bit the word's direction stands for is its bit 43 (R71). -/
theorem bit_dir (w : Command) : (Command.dir w).bit = w.extractLsb' 43 1 := by
  have hbit : ∀ b : BitVec 1, (if b = 0#1 then Dir.rx else Dir.tx).bit = b := by decide
  exact hbit _

/-- Two command words with the same fields are one word (R71). -/
theorem eq_of_fields {w v : Command} (hop : Command.op w = Command.op v) (hdir : Command.dir w = Command.dir v)
    (hrsv : Command.rsv w = Command.rsv v) (hch : Command.ch w = Command.ch v)
    (ha : Command.fieldA w = Command.fieldA v) (hb : Command.fieldB w = Command.fieldB v) : w = v := by
  have hbit : w.extractLsb' 43 1 = v.extractLsb' 43 1 := by rw [← bit_dir, ← bit_dir, hdir]
  have hfield : ∀ {start len : Nat}, w.extractLsb' start len = v.extractLsb' start len →
      w.toNat / 2 ^ start % 2 ^ len = v.toNat / 2 ^ start % 2 ^ len := by
    intro start len h
    simpa [BitVec.extractLsb'_toNat, Nat.shiftRight_eq_div_pow] using congrArg BitVec.toNat h
  have := hfield hop
  have := hfield hbit
  have := hfield hrsv
  have := hfield hch
  have := hfield ha
  have := hfield hb
  have := w.isLt
  have := v.isLt
  apply BitVec.eq_of_toNat_eq
  omega

/-- A word with these fields and no reserved bit is the word made up of them. -/
theorem ofFields_eq {w : Command} {op : BitVec 4} {d : Dir} {ch : Chan} {a b : Half} (hrsv : Command.rsv w = 0#3)
    (hop : Command.op w = op) (hdir : Command.dir w = d) (hch : Command.ch w = ch) (ha : Command.fieldA w = a)
    (hb : Command.fieldB w = b) : Command.ofFields op d ch a b = w :=
  eq_of_fields (by simp [hop]) (by simp [hdir]) (by simp [hrsv]) (by simp [hch]) (by simp [ha]) (by simp [hb])

/-! ## A request word and its fields -/

/-- A request is the sum of its fields, each at its place (R78). -/
theorem request_eq_sum_fields (addrW w : Nat) :
    requestKind addrW w * 2 ^ (addrW + 16) + requestAddr addrW w * 2 ^ 16 + (requestLen w).toNat = w := by
  rw [requestKind, requestAddr, requestLen, BitVec.toNat_ofNat, pow_add, Nat.mul_comm (2 ^ addrW),
    ← Nat.div_div_eq_div_mul]
  have hhigh := Nat.div_add_mod (w / 2 ^ 16) (2 ^ addrW)
  have hlow := Nat.div_add_mod w (2 ^ 16)
  calc w / 2 ^ 16 / 2 ^ addrW * (2 ^ 16 * 2 ^ addrW) + w / 2 ^ 16 % 2 ^ addrW * 2 ^ 16 + w % 2 ^ 16
      = 2 ^ 16 * (2 ^ addrW * (w / 2 ^ 16 / 2 ^ addrW) + w / 2 ^ 16 % 2 ^ addrW) + w % 2 ^ 16 := by ring
    _ = w := by rw [hhigh, hlow]

/-- A request with these fields is the request made up of them. -/
theorem requestWord_eq {addrW w addr : Nat} {blk wr : Bool} {len : Half} (hkind : requestKind addrW w = 2 * blk.toNat + wr.toNat)
    (haddr : requestAddr addrW w = addr) (hlen : requestLen w = len) : requestWord addrW blk wr addr len = w := by
  rw [requestWord, ← hkind, ← haddr, ← hlen, request_eq_sum_fields]

/-! ## The round trip -/

/-- The address of a request fits its field (R78); a command has no address. It is well-formedness but for the length of a block
(log entry 14). -/
def Instr.addressFits (addrW : Nat) : Instr → Prop
  | .rdReg addr | .wrReg addr | .rdBlk addr _ | .wrBlk addr _ => addr < 2 ^ addrW
  | _ => True

theorem addressFits_of_wellFormed {addrW : Nat} {i : Instr} (h : i.wellFormed addrW = true) : i.addressFits addrW := by
  cases i with
  | rdReg addr | wrReg addr => exact of_decide_eq_true (p := addr < 2 ^ addrW) h
  | rdBlk addr len | wrBlk addr len => exact of_decide_eq_true (p := addr < 2 ^ addrW) (Bool.and_eq_true_iff.mp h).1
  | _ => trivial

/-- Decoding undoes encoding. -/
theorem decode_encode {addrW : Nat} {i : Instr} (h : i.addressFits addrW) : decode addrW (encode addrW i) = .ok i := by
  cases i with
  | setSliceSize | getSlice | translate | plan | receive | transmit => simp [encode, decode, decodeCommand]
  | rdReg | wrReg | rdBlk | wrBlk =>
    simp [encode, decode, decodeRequest, requestKind_requestWord _ _ h, requestAddr_requestWord _ _ h]

/-- A command word that decodes is the encoding of what it decodes to. -/
theorem encode_of_decodeCommand {w : Command} {i : Instr} (h : decodeCommand w = .ok i) (addrW : Nat) :
    encode addrW i = .c48 w := by
  unfold decodeCommand at h
  split at h
  next => cases h
  next hrsv =>
    have word {k : BitVec 4} {d ch a b} (hop : (Command.op w).toNat = k.toNat) :=
      ofFields_eq (d := d) (ch := ch) (a := a) (b := b) (not_not.mp hrsv) (BitVec.eq_of_toNat_eq hop)
    split at h
    next hop =>
      split at h <;> cases h
      next hb => exact congrArg Encoding.c48 (word (k := 1) hop rfl rfl rfl hb)
    next hop =>
      split at h <;> cases h
      next hab => exact congrArg Encoding.c48 (word (k := 2) hop rfl rfl hab.1 hab.2)
    next hop =>
      split at h <;> cases h
      next hb => exact congrArg Encoding.c48 (word (k := 3) hop rfl rfl rfl hb)
    next hop =>
      cases h
      exact congrArg Encoding.c48 (word (k := 4) hop rfl rfl rfl rfl)
    next hop =>
      split at h
      next => cases h
      next hdir =>
        split at h <;> cases h
        next ha => exact congrArg Encoding.c48 (word (k := 5) hop (not_not.mp hdir) rfl ha rfl)
    next hop =>
      split at h
      next => cases h
      next hdir =>
        split at h <;> cases h
        next ha => exact congrArg Encoding.c48 (word (k := 6) hop (not_not.mp hdir) rfl ha rfl)
    next => cases h

/-- A request that decodes is the encoding of what it decodes to. -/
theorem encode_of_decodeRequest {addrW w : Nat} {i : Instr} (h : decodeRequest addrW w = .ok i) :
    encode addrW i = .t34 w := by
  unfold decodeRequest at h
  split at h
  next hkind =>
    split at h <;> cases h
    next hlen => exact congrArg Encoding.t34 (requestWord_eq (blk := false) (wr := false) hkind rfl hlen)
  next hkind =>
    split at h <;> cases h
    next hlen => exact congrArg Encoding.t34 (requestWord_eq (blk := false) (wr := true) hkind rfl hlen)
  next hkind =>
    cases h
    exact congrArg Encoding.t34 (requestWord_eq (blk := true) (wr := false) hkind rfl rfl)
  next hkind =>
    cases h
    exact congrArg Encoding.t34 (requestWord_eq (blk := true) (wr := true) hkind rfl rfl)
  next => cases h

/-- Settles O1: the fields read back what the encoder put in them. -/
theorem decodeOfEncodeIsTheInstruction : Obligations.DecodeOfEncodeIsTheInstruction :=
  fun _ _ h => decode_encode (addressFits_of_wellFormed h)

/-- Settles O2: a word is made up of its fields again. -/
theorem encodeOfDecodeIsTheWord : Obligations.EncodeOfDecodeIsTheWord := by
  intro addrW e i h
  cases e with
  | c48 w => exact encode_of_decodeCommand h addrW
  | t34 w => exact encode_of_decodeRequest h

end Sys2Proof

/-! PROOFS. The opcode table of 30_encoding.md (R73, R74, R78): a row selects a word exactly when the word decodes to an instruction with the
row's mnemonic. Mask and match are compared field by field. -/

namespace Sys2Proof

/-! ## The rows of format C48 -/

/-- Masking a command word masks each of its fields (R71). -/
theorem and_eq_iff_fields {w m p : Command} : w &&& m = p ↔
    Command.op w &&& Command.op m = Command.op p ∧ (Command.dir w).bit &&& (Command.dir m).bit = (Command.dir p).bit
      ∧ Command.rsv w &&& Command.rsv m = Command.rsv p ∧ Command.ch w &&& Command.ch m = Command.ch p
      ∧ Command.fieldA w &&& Command.fieldA m = Command.fieldA p
      ∧ Command.fieldB w &&& Command.fieldB m = Command.fieldB p := by
  have hand {start len : Nat} : w.extractLsb' start len &&& m.extractLsb' start len = (w &&& m).extractLsb' start len :=
    BitVec.extractLsb'_and.symm
  simp only [bit_dir, Command.op, Command.rsv, Command.ch, Command.fieldA, Command.fieldB, hand]
  constructor
  · rintro rfl
    exact ⟨rfl, rfl, rfl, rfl, rfl, rfl⟩
  · rintro ⟨hop, hbit, hrsv, hch, ha, hb⟩
    exact eq_of_fields hop (by rw [Command.dir, Command.dir, hbit]) hrsv hch ha hb

/-- Masking the word made up of these fields masks them. -/
theorem ofFields_and_eq_iff {op : BitVec 4} {d : Dir} {ch : Chan} {a b : Half} {m p : Command} :
    Command.ofFields op d ch a b &&& m = p ↔
      op &&& Command.op m = Command.op p ∧ d.bit &&& (Command.dir m).bit = (Command.dir p).bit
        ∧ 0#3 = Command.rsv p ∧ ch &&& Command.ch m = Command.ch p ∧ a &&& Command.fieldA m = Command.fieldA p
        ∧ b &&& Command.fieldB m = Command.fieldB p := by
  simp [and_eq_iff_fields]

/-- A row selects a word by mask and match on 48 bits (R73). -/
theorem selects_iff_and {r : OpcodeRow} (hr : r ∈ commandRows) {w : Command} :
    r.selects w.toNat = true ↔ w &&& BitVec.ofNat 48 r.maskBits = BitVec.ofNat 48 r.pattern := by
  have hbits : ∀ r ∈ commandRows, r.maskBits < 2 ^ 48 ∧ r.pattern < 2 ^ 48 := by decide
  obtain ⟨hm, hp⟩ := hbits r hr
  rw [OpcodeRow.selects, decide_eq_true_iff, ← BitVec.toNat_inj, BitVec.toNat_and, BitVec.toNat_ofNat, BitVec.toNat_ofNat,
    Nat.mod_eq_of_lt hm, Nat.mod_eq_of_lt hp]

/-- A field that the mask keeps whole is that of the match. -/
theorem eq_of_and_ones {n : Nat} {x m y : BitVec n} (h : x &&& m = y) (hm : m = BitVec.allOnes n) : x = y := by
  rwa [hm, BitVec.and_allOnes] at h

@[simp] theorem Dir.bit_rx : Dir.rx.bit = 0#1 := rfl

@[simp] theorem Dir.bit_tx : Dir.tx.bit = 1#1 := rfl

theorem dir_eq_of_bit_eq {d d' : Dir} (h : d.bit = d'.bit) : d = d' := by
  revert h
  cases d <;> cases d' <;> simp

/-- Every row's mask keeps `op` and `rsv` whole, and no row has reserved bits (R74). -/
theorem op_rsv_of_selects {r : OpcodeRow} (hr : r ∈ commandRows) {w : Command} (h : r.selects w.toNat = true) :
    Command.op w = Command.op (.ofNat 48 r.pattern) ∧ Command.rsv w = 0#3 := by
  have hrows : ∀ r ∈ commandRows, Command.op (.ofNat 48 r.maskBits) = BitVec.allOnes 4
      ∧ Command.rsv (.ofNat 48 r.maskBits) = BitVec.allOnes 3 ∧ Command.rsv (.ofNat 48 r.pattern) = 0#3 := by decide
  obtain ⟨hopMask, hrsvMask, hrsvMatch⟩ := hrows r hr
  rw [selects_iff_and hr, and_eq_iff_fields] at h
  obtain ⟨hop, -, hrsv, -⟩ := h
  exact ⟨eq_of_and_ones hop hopMask, (eq_of_and_ones hrsv hrsvMask).trans hrsvMatch⟩

/-- A word that a row selects is the encoding of an instruction of the row. -/
theorem exists_encode_of_selects {r : OpcodeRow} (hr : r ∈ commandRows) {w : Command} (h : r.selects w.toNat = true)
    (addrW : Nat) : ∃ i, encode addrW i = .c48 w ∧ i.mnemonic = r.mnemonic := by
  obtain ⟨hop, hrsv⟩ := op_rsv_of_selects hr h
  rw [selects_iff_and hr, and_eq_iff_fields] at h
  obtain ⟨-, hdir, -, -, ha, hb⟩ := h
  have word {d ch a b} (hdir hch ha hb) := congrArg Encoding.c48
    (ofFields_eq (d := d) (ch := ch) (a := a) (b := b) hrsv hop hdir hch ha hb)
  simp only [commandRows, List.mem_cons, List.not_mem_nil, or_false] at hr
  rcases hr with rfl | rfl | rfl | rfl | rfl | rfl
  · exact ⟨.setSliceSize _ _ _, word rfl rfl rfl (eq_of_and_ones hb (by decide)), rfl⟩
  · exact ⟨.getSlice _ _, word rfl rfl (eq_of_and_ones ha (by decide)) (eq_of_and_ones hb (by decide)), rfl⟩
  · exact ⟨.translate _ _ _, word rfl rfl rfl (eq_of_and_ones hb (by decide)), rfl⟩
  · exact ⟨.plan _ _ _ _, word rfl rfl rfl rfl, rfl⟩
  · have hrx := dir_eq_of_bit_eq (eq_of_and_ones hdir (by decide))
    exact ⟨.receive _ _, word hrx rfl (eq_of_and_ones ha (by decide)) rfl, rfl⟩
  · have htx := dir_eq_of_bit_eq (eq_of_and_ones hdir (by decide))
    exact ⟨.transmit _ _, word htx rfl (eq_of_and_ones ha (by decide)) rfl, rfl⟩

/-- The encoding of a command is selected by the row of its mnemonic. -/
theorem exists_selects_of_encode {addrW : Nat} {i : Instr} {w : Command} (h : encode addrW i = .c48 w) :
    ∃ r ∈ commandRows, r.mnemonic = i.mnemonic ∧ r.selects w.toNat = true := by
  have row (k : Fin 6) (hm : commandRows[k].mnemonic = i.mnemonic)
      (hand : w &&& .ofNat 48 commandRows[k].maskBits = .ofNat 48 commandRows[k].pattern) :
      ∃ r ∈ commandRows, r.mnemonic = i.mnemonic ∧ r.selects w.toNat = true :=
    ⟨_, List.getElem_mem _, hm, (selects_iff_and (List.getElem_mem _)).mpr hand⟩
  cases i <;> cases h
  case' setSliceSize => refine row 0 rfl (ofFields_and_eq_iff.mpr ?_)
  case' getSlice => refine row 1 rfl (ofFields_and_eq_iff.mpr ?_)
  case' translate => refine row 2 rfl (ofFields_and_eq_iff.mpr ?_)
  case' plan => refine row 3 rfl (ofFields_and_eq_iff.mpr ?_)
  case' receive => refine row 4 rfl (ofFields_and_eq_iff.mpr ?_)
  case' transmit => refine row 5 rfl (ofFields_and_eq_iff.mpr ?_)
  all_goals
    simp [commandRows, bit_dir, Command.op, Command.rsv, Command.ch, Command.fieldA, Command.fieldB]

/-- A row is known by its mnemonic. -/
theorem commandRow_eq_of_mnemonic_eq : ∀ r ∈ commandRows, ∀ r' ∈ commandRows, r.mnemonic = r'.mnemonic → r = r' := by
  decide

/-- A command word decodes to an instruction exactly when it is the instruction's encoding, which no address width changes. -/
theorem decodeCommand_eq_ok_iff {w : Command} {i : Instr} : decodeCommand w = .ok i ↔ encode 0 i = .c48 w := by
  refine ⟨fun h => encode_of_decodeCommand h 0, fun h => ?_⟩
  have hfits : i.addressFits 0 := by
    cases i with
    | rdReg | wrReg | rdBlk | wrBlk => cases h
    | _ => trivial
  rw [← decode_encode hfits, h, decode]

/-- A row selects a command word exactly when the word decodes to an instruction of the row. -/
theorem selects_iff_decodeCommand {r : OpcodeRow} (hr : r ∈ commandRows) {w : Command} :
    r.selects w.toNat = true ↔ ∃ i, decodeCommand w = .ok i ∧ i.mnemonic = r.mnemonic := by
  simp only [decodeCommand_eq_ok_iff]
  constructor
  · exact fun h => exists_encode_of_selects hr h 0
  · rintro ⟨i, hi, hmnemonic⟩
    obtain ⟨r', hr', hm, hselects⟩ := exists_selects_of_encode hi
    rwa [commandRow_eq_of_mnemonic_eq r hr r' hr' (hmnemonic.symm.trans hm.symm)]

/-- No row selects a command word exactly when the word is illegal. -/
theorem no_row_selects_iff_illegal (w : Command) :
    (∀ r ∈ commandRows, r.selects w.toNat = false) ↔ ∃ e, decodeCommand w = .error e := by
  cases hd : decodeCommand w with
  | error e =>
    refine iff_of_true (fun r hr => ?_) ⟨e, rfl⟩
    rw [← Bool.not_eq_true, selects_iff_decodeCommand hr, hd]
    rintro ⟨i, hi, _⟩
    cases hi
  | ok i =>
    refine iff_of_false (fun h => ?_) (by rintro ⟨e, he⟩; cases he)
    obtain ⟨r, hr, _, hselects⟩ := exists_selects_of_encode (decodeCommand_eq_ok_iff.mp hd)
    exact Bool.false_ne_true ((h r hr).symm.trans hselects)

/-- Settles O3: a row selects the words that decode to its mnemonic, and a mnemonic has one row. -/
theorem commandDecoderFollowsTheOpcodeRows : Obligations.CommandDecoderFollowsTheOpcodeRows := by
  refine ⟨fun w r hr => selects_iff_decodeCommand hr, no_row_selects_iff_illegal, fun w r hr r' hr' h h' => ?_⟩
  obtain ⟨i, hi, hm⟩ := (selects_iff_decodeCommand hr).mp h
  obtain ⟨i', hi', hm'⟩ := (selects_iff_decodeCommand hr').mp h'
  obtain rfl : i = i' := Except.ok.inj (hi.symm.trans hi')
  exact commandRow_eq_of_mnemonic_eq r hr r' hr' (hm.symm.trans hm')

/-! ## The rows of format T34 -/

/-- Masking a request masks each of its fields (R78). -/
theorem request_and_eq_iff_fields (addrW : Nat) {w m p : Nat} : w &&& m = p ↔
    requestKind addrW w &&& requestKind addrW m = requestKind addrW p
      ∧ requestAddr addrW w &&& requestAddr addrW m = requestAddr addrW p ∧ requestLen w &&& requestLen m = requestLen p := by
  have hkind : requestKind addrW w &&& requestKind addrW m = requestKind addrW (w &&& m) := Nat.and_div_two_pow.symm
  have haddr : requestAddr addrW w &&& requestAddr addrW m = requestAddr addrW (w &&& m) := by
    rw [requestAddr, requestAddr, requestAddr, Nat.and_div_two_pow, Nat.and_mod_two_pow]
  have hlen : requestLen w &&& requestLen m = requestLen (w &&& m) := BitVec.ofNat_and.symm
  rw [hkind, haddr, hlen]
  constructor
  · rintro rfl
    exact ⟨rfl, rfl, rfl⟩
  · rintro ⟨ekind, eaddr, elen⟩
    rw [← request_eq_sum_fields addrW (w &&& m), ekind, eaddr, elen, request_eq_sum_fields]

theorem request_selects_iff_and {r : OpcodeRow} {w : Nat} : r.selects w = true ↔ w &&& r.maskBits = r.pattern :=
  decide_eq_true_iff

/-- The kind of a 34-bit request that a row selects is that of its match. -/
theorem requestKind_of_selects {r : OpcodeRow} (hr : r ∈ requestRows) {w : Nat} (hw : w < 2 ^ 34) (h : r.selects w = true) :
    requestKind 16 w = requestKind 16 r.pattern := by
  have hmask : ∀ r ∈ requestRows, requestKind 16 r.maskBits = 2 ^ 2 - 1 := by decide
  have hlt : requestKind 16 w < 2 ^ 2 := Nat.div_lt_of_lt_mul hw
  obtain ⟨hkind, -⟩ := (request_and_eq_iff_fields 16).mp (request_selects_iff_and.mp h)
  rwa [hmask r hr, Nat.and_two_pow_sub_one_eq_mod, Nat.mod_eq_of_lt hlt] at hkind

/-- A 34-bit request that a row selects decodes to an instruction of the row. -/
theorem exists_decodeRequest_of_selects {r : OpcodeRow} (hr : r ∈ requestRows) {w : Nat} (hw : w < 2 ^ 34)
    (h : r.selects w = true) : ∃ i, decodeRequest 16 w = .ok i ∧ i.mnemonic = r.mnemonic := by
  have hkind := requestKind_of_selects hr hw h
  obtain ⟨-, -, hlen⟩ := (request_and_eq_iff_fields 16).mp (request_selects_iff_and.mp h)
  unfold decodeRequest
  simp only [requestRows, List.mem_cons, List.not_mem_nil, or_false] at hr
  rcases hr with rfl | rfl | rfl | rfl <;> rw [hkind]
  · exact ⟨.rdReg _, if_pos (eq_of_and_ones hlen (by decide)), rfl⟩
  · exact ⟨.wrReg _, if_pos (eq_of_and_ones hlen (by decide)), rfl⟩
  · exact ⟨.rdBlk _ _, rfl, rfl⟩
  · exact ⟨.wrBlk _ _, rfl, rfl⟩

/-- A request that decodes is selected by the row of its mnemonic. -/
theorem exists_selects_of_decodeRequest {w : Nat} {i : Instr} (h : decodeRequest 16 w = .ok i) :
    ∃ r ∈ requestRows, r.mnemonic = i.mnemonic ∧ r.selects w = true := by
  have row (k : Fin 4) (hm : requestRows[k].mnemonic = i.mnemonic)
      (hkind : requestKind 16 w &&& requestKind 16 requestRows[k].maskBits = requestKind 16 requestRows[k].pattern)
      (haddr : requestAddr 16 w &&& requestAddr 16 requestRows[k].maskBits = requestAddr 16 requestRows[k].pattern)
      (hlen : requestLen w &&& requestLen requestRows[k].maskBits = requestLen requestRows[k].pattern) :
      ∃ r ∈ requestRows, r.mnemonic = i.mnemonic ∧ r.selects w = true :=
    ⟨_, List.getElem_mem _, hm, request_selects_iff_and.mpr ((request_and_eq_iff_fields 16).mpr ⟨hkind, haddr, hlen⟩)⟩
  unfold decodeRequest at h
  split at h
  next hkind =>
    split at h <;> cases h
    next hlen => exact row 0 rfl (by rw [hkind]; decide) (Nat.and_zero _) (by rw [hlen]; decide)
  next hkind =>
    split at h <;> cases h
    next hlen => exact row 1 rfl (by rw [hkind]; decide) (Nat.and_zero _) (by rw [hlen]; decide)
  next hkind =>
    cases h
    exact row 2 rfl (by rw [hkind]; decide) (Nat.and_zero _) BitVec.and_zero
  next hkind =>
    cases h
    exact row 3 rfl (by rw [hkind]; decide) (Nat.and_zero _) BitVec.and_zero
  next => cases h

theorem requestRow_eq_of_mnemonic_eq : ∀ r ∈ requestRows, ∀ r' ∈ requestRows, r.mnemonic = r'.mnemonic → r = r' := by
  decide

/-- Settles O4: a row selects the 34-bit requests that decode to its mnemonic. -/
theorem requestDecoderFollowsTheOpcodeRows : Obligations.RequestDecoderFollowsTheOpcodeRows := by
  intro w hw r hr
  refine ⟨exists_decodeRequest_of_selects hr hw, ?_⟩
  rintro ⟨i, hi, hmnemonic⟩
  obtain ⟨r', hr', hm, hselects⟩ := exists_selects_of_decodeRequest hi
  rwa [requestRow_eq_of_mnemonic_eq r hr r' hr' (hmnemonic.symm.trans hm.symm)]

end Sys2Proof

/-! PROOFS. What the numbers and the bytes of 30_encoding.md stand for: the ten sample words, the status codes (R77), the wire frames of a
primitive (R80), and the command word that CBAT's turn accepts (R70, R74). -/

namespace Sys2Proof.Machine

/-! ## Sample words -/

/-- Settles O6: the ten words, computed. -/
theorem sampleWordsDecodeAsTheSpecSays : Obligations.SampleWordsDecodeAsTheSpecSays := by
  unfold Obligations.SampleWordsDecodeAsTheSpecSays
  decide

/-! ## Status codes -/

/-- The code of a status reads back as that status (R77). -/
theorem ofCode_code (st : Status) : Status.ofCode st.code = some st := by
  cases st with
  | ok => rfl
  | error k => cases k <;> rfl

/-- A code that reads as a status is the code of that status. -/
theorem code_of_ofCode {c : Byte} {st : Status} (h : Status.ofCode c = some st) : st.code = c := by
  unfold Status.ofCode at h
  split at h <;> cases h
  all_goals exact BitVec.eq_of_toNat_eq (Eq.symm ‹_›)

/-- No status has a reserved code. -/
theorem code_lt (st : Status) : st.code.toNat < 0x06 := by
  cases st with
  | ok => decide
  | error k => cases k <;> decide

/-- Settles O7: the codes are read back, and none is reserved. -/
theorem statusCodesAreTheTable : Obligations.StatusCodesAreTheTable := by
  refine ⟨rfl, rfl, rfl, rfl, rfl, rfl, fun c st => ⟨code_of_ofCode, ?_⟩, fun c hc st h => ?_⟩
  · rintro rfl
    exact ofCode_code st
  · exact absurd (h ▸ code_lt st) (Nat.not_lt.mpr hc)

/-! ## Wire frames -/

/-- The frames of variant `A` carry the bytes, each once and in ascending order. -/
theorem flatMap_addresses_framesA (addr n : Nat) : (framesA addr n).flatMap Frame.addresses = List.range' addr n := by
  induction n generalizing addr with
  | zero => rfl
  | succ n ih => simp [framesA, Frame.addresses, ih, List.range'_succ]

theorem length_framesA (addr n : Nat) : (framesA addr n).length = n := by
  induction n generalizing addr with
  | zero => rfl
  | succ n ih => simp [framesA, ih]

/-- A frame of variant `A` has a 3-byte header and one data byte. -/
theorem header_and_data_of_mem_framesA {addr n : Nat} {f : Frame} (h : f ∈ framesA addr n) :
    f.headerBytes = 3 ∧ f.dataBytes = 1 := by
  induction n generalizing addr with
  | zero => cases h
  | succ n ih =>
    rcases List.mem_cons.mp h with rfl | h
    · exact ⟨rfl, rfl⟩
    · exact ih h

/-- Settles O36: variant `A` by induction on the number of bytes, variant `B` by its one frame. -/
theorem wireFramesCarryTheBytesInOrder : Obligations.WireFramesCarryTheBytesInOrder := by
  refine ⟨fun f maxBlock addr n fs h => ?_, fun maxBlock addr n => ?_, fun maxBlock addr n h => if_pos h⟩
  · cases f with
    | A =>
      cases h
      exact flatMap_addresses_framesA addr n
    | B =>
      rw [wireFrames] at h
      split at h <;> cases h
      exact List.flatMap_singleton _ _
  · exact ⟨_, rfl, length_framesA addr n, fun f hf => header_and_data_of_mem_framesA hf⟩

/-! ## The step that accepts a command -/

/-- In `IDLE`, on CBAT's turn, the oldest command held off is accepted (R173; log entries 7, 11). -/
theorem step_eq_accept {s : State} {c : Presented} {rest : List Presented} {ts : List Turn} (hc : s.cfg.wellFormed = true)
    (hidle : s.ph = .idle) (hq : s.pending = c :: rest) (hin : s.inputs = .cbat :: ts ∨ (s.inputs = [] ∧ ts = [])) :
    step s = accept c { s with inputs := ts, pending := rest } := by
  rcases hin with hin | ⟨hin, rfl⟩
  · rw [step_of_inputs_cons hc hin]
    exact cbatTurn_of_idle (s := { s with inputs := ts }) hidle hq
  · rw [step_of_inputs_nil hc hin, cbatTurn_of_idle hidle hq, ← hin]

/-- Settles O50: the command is accepted, and its word decodes (R70). -/
theorem stepRunsTheDecodedCommand : Obligations.StepRunsTheDecodedCommand := by
  intro s c rest ts i hc hidle hq hdecode hin
  rw [step_eq_accept hc hidle hq hin, accept, hdecode]
  rfl

/-- Settles O53: the command is accepted, and in `IDLE` its error changes the response only (R166). -/
theorem illegalCommandWordIsIllegalCommandError : Obligations.IllegalCommandWordIsIllegalCommandError := by
  intro s c rest ts e hc hidle hq hdecode hin
  rw [step_eq_accept hc hidle hq hin, accept, hdecode]
  exact congrArg Host.Outcome.next (raise_idle _ .illegalCommandError hidle)

end Sys2Proof.Machine

/-! PROOFS. The framing variant and the bounded maximum are below the Transport port (30_encoding.md R81; 44_transport.md R149, R153): every
operation answers with them as it answers without, first the shared operations, then each agent's turn. -/

namespace Sys2Proof.Machine

variable {s : State} {f : Framing} {m : Nat}

/-! ## Shared operations -/

@[simp] theorem withFraming_addrW : (withFraming f m s).cfg.addrW = s.cfg.addrW := rfl
@[simp] theorem withFraming_ph : (withFraming f m s).ph = s.ph := rfl
@[simp] theorem withFraming_lat : (withFraming f m s).lat = s.lat := rfl
@[simp] theorem withFraming_port : (withFraming f m s).port = s.port := rfl
@[simp] theorem withFraming_cmdLen : (withFraming f m s).cmdLen = s.cmdLen := rfl

/-- A configuration stays well formed under another framing variant and a bounded maximum of at least 1 (R8, R10). -/
theorem withFraming_wellFormed (hm : 1 ≤ m) (hc : s.cfg.wellFormed = true) : (withFraming f m s).cfg.wellFormed = true := by
  rw [Config.wellFormed, Bool.and_eq_true] at hc ⊢
  obtain ⟨hrest, -⟩ := hc
  exact ⟨hrest, decide_eq_true hm⟩

/-- The same branch taken in both. -/
theorem ite_eq_mapNext {g : State → State} {P : Prop} [Decidable P] {a a' b b' : Result} (ha : a' = mapNext g a)
    (hb : b' = mapNext g b) : (if P then a' else b') = mapNext g (if P then a else b) := by
  rw [ha, hb, apply_ite (mapNext g)]

theorem quiesce_withFraming (s : State) : quiesce (withFraming f m s) = withFraming f m (quiesce s) := by
  by_cases h : s.ph = .idle
  · rw [quiesce_idle s h, quiesce_idle (withFraming f m s) h]
  · rw [quiesce_of_busy h, quiesce_of_busy (s := withFraming f m s) h]
    rfl

theorem finish_withFraming (r : Response) (s : State) : finish r (withFraming f m s) = withFraming f m (finish r s) := by
  rw [finish, finish, quiesce_withFraming]
  rfl

theorem raise_withFraming (k : ErrorKind) (s : State) : raise k (withFraming f m s) = withFraming f m (raise k s) :=
  finish_withFraming (Response.failed k) s

theorem orRaise_withFraming {α : Type} (x : Except ErrorKind α) {go go' : α → Result}
    (h : ∀ a, go' a = mapNext (withFraming f m) (go a)) :
    orRaise x (withFraming f m s) go' = mapNext (withFraming f m) (orRaise x s go) := by
  cases x with
  | ok a => exact h a
  | error k => exact congrArg Host.Outcome.next (raise_withFraming k s)

/-! ## The instructions -/

theorem busRead_withFraming (addr n : Nat) (s : State) :
    busRead addr n (withFraming f m s) = mapNext (withFraming f m) (busRead addr n s) := by
  refine ite_eq_mapNext rfl ?_
  rw [withFraming_port]
  cases s.port.verdict <;> rfl

theorem busWrite_withFraming (addr n : Nat) (s : State) :
    busWrite addr n (withFraming f m s) = mapNext (withFraming f m) (busWrite addr n s) := by
  refine ite_eq_mapNext rfl (ite_eq_mapNext rfl ?_)
  rw [withFraming_port]
  cases s.port.verdict <;> rfl

theorem beginTransfer_withFraming (d : Dir) (ch : Chan) (len : Half) (buf : List Byte) (s : State) :
    beginTransfer d ch len buf (withFraming f m s) = mapNext (withFraming f m) (beginTransfer d ch len buf s) := by
  refine orRaise_withFraming (getSlice d ch s) fun sl => ite_eq_mapNext rfl (ite_eq_mapNext ?_ (ite_eq_mapNext rfl rfl))
  exact congrArg Host.Outcome.next (raise_withFraming _ s)

/-- No instruction reads the framing variant or the bounded maximum. -/
theorem exec_withFraming (i : Instr) (s : State) :
    exec i (withFraming f m s) = mapNext (withFraming f m) (exec i s) := by
  cases i with
  | setSliceSize d ch size =>
    refine ite_eq_mapNext ?_ (ite_eq_mapNext ?_ ?_)
    · exact congrArg Host.Outcome.next (raise_withFraming _ s)
    · exact congrArg Host.Outcome.next (raise_withFraming _ s)
    · cases d <;> rfl
  | getSlice d ch => exact orRaise_withFraming (getSlice d ch s) fun _ => rfl
  | translate d ch p => exact orRaise_withFraming (getSlice d ch s) fun _ => rfl
  | plan d ch p len => exact orRaise_withFraming (getSlice d ch s) fun _ => orRaise_withFraming _ fun _ => rfl
  | receive ch len => exact beginTransfer_withFraming .rx ch len [] s
  | transmit ch len => exact beginTransfer_withFraming .tx ch len s.pay s
  | rdReg addr => exact busRead_withFraming addr 1 s
  | wrReg addr => exact busWrite_withFraming addr 1 s
  | rdBlk addr len => exact busRead_withFraming addr len.toNat s
  | wrBlk addr len => exact busWrite_withFraming addr len.toNat s

theorem exec_putOnPort_withFraming (i : Instr) (w : List Byte) (v : Verdict) (s : State) :
    exec i (putOnPort w v (withFraming f m s)) = mapNext (withFraming f m) (exec i (putOnPort w v s)) :=
  exec_withFraming i (putOnPort w v s)

/-! ## CBAT's side of a turn -/

/-- The primitive outstanding is the same (R135). -/
theorem requestOf_withFraming (s : State) : requestOf (withFraming f m s) = requestOf s := rfl

theorem advanceOk_withFraming (data : List Byte) (s : State) :
    advanceOk data (withFraming f m s) = withFraming f m (advanceOk data s) := by
  unfold advanceOk
  rw [withFraming_ph]
  cases s.ph with
  | rdLo =>
    simp only [withFraming_lat, withFraming_cmdLen]
    cases planSegments s.lat.slice (pointerOf s.lat.hi (data.headD 0)) s.cmdLen with
    | ok segs => rfl
    | error k => exact raise_withFraming k s
  | wrLo => exact finish_withFraming _ s
  | idle | rdHi | seg1 | seg2 | wrHi => rfl

theorem advance_withFraming (s : State) : advance (withFraming f m s) = withFraming f m (advance s) := by
  unfold advance
  rw [withFraming_port]
  cases s.port.reply with
  | ok data => exact advanceOk_withFraming data s
  | fail => exact raise_withFraming _ s

/-- Accepting a command, legal or not, answers alike. -/
theorem accept_withFraming (c : Presented) (s : State) :
    accept c (withFraming f m s) = mapNext (withFraming f m) (accept c s) := by
  unfold accept
  cases decodeCommand c.word with
  | ok i => exact exec_withFraming i (latchCommand c s)
  | error e => exact congrArg Host.Outcome.next (raise_withFraming _ (latchCommand c s))

/-! ## The turns -/

theorem cbatTurn_withFraming (s : State) : cbatTurn (withFraming f m s) = mapNext (withFraming f m) (cbatTurn s) := by
  by_cases hwait : s.ph ≠ .idle ∨ s.pending = []
  · rw [cbatTurn_of_waiting hwait, cbatTurn_of_waiting (s := withFraming f m s) hwait]
    rfl
  · obtain ⟨hidle, hq⟩ := not_or.mp hwait
    obtain ⟨held, rest, hq⟩ := List.exists_cons_of_ne_nil hq
    rw [cbatTurn_of_idle (not_not.mp hidle) hq, cbatTurn_of_idle (s := withFraming f m s) (not_not.mp hidle) hq]
    exact accept_withFraming held { s with pending := rest }

theorem transportTurn_withFraming (v : Verdict) (s : State) :
    transportTurn v (withFraming f m s) = mapNext (withFraming f m) (transportTurn v s) := by
  unfold transportTurn
  rw [requestOf_withFraming]
  cases requestOf s with
  | none => rfl
  | some request =>
    obtain ⟨i, w⟩ := request
    dsimp only
    rw [exec_putOnPort_withFraming]
    cases exec i (putOnPort w v s) with
    | next u => exact congrArg Host.Outcome.next (advance_withFraming u)
    | fault x => rfl
    | refused x => rfl

theorem masterTurn_withFraming (w : Nat) (wdata : List Byte) (v : Verdict) (s : State) :
    masterTurn w wdata v (withFraming f m s) = mapNext (withFraming f m) (masterTurn w wdata v s) := by
  unfold masterTurn
  rw [withFraming_addrW]
  cases decodeRequest s.cfg.addrW w with
  | ok i => exact exec_putOnPort_withFraming i wdata v s
  | error e => rfl

theorem resetTurn_withFraming (landed : List Bool) (s : State) :
    resetTurn landed (withFraming f m s) = mapNext (withFraming f m) (resetTurn landed s) := by
  unfold resetTurn
  rw [requestOf_withFraming]
  cases requestOf s with
  | none => rfl
  | some request =>
    obtain ⟨i, w⟩ := request
    dsimp only
    rw [exec_putOnPort_withFraming]
    cases exec i (putOnPort w (.fail landed) s) <;> rfl

/-- The turn of every agent answers alike. -/
theorem takeTurn_withFraming (tn : Turn) (s : State) :
    takeTurn tn (withFraming f m s) = mapNext (withFraming f m) (takeTurn tn s) := by
  cases tn with
  | cbat => exact cbatTurn_withFraming s
  | transport v => exact transportTurn_withFraming v s
  | present c => exact ite_eq_mapNext rfl rfl
  | master w wdata v => exact masterTurn_withFraming w wdata v s
  | peripheral ws => rfl
  | reset landed => exact resetTurn_withFraming landed s

/-- Settles O60: the configuration stays well formed, and the turn at the head of the schedule answers alike. -/
theorem framingVariantIsInvisible : Obligations.FramingVariantIsInvisible := by
  intro s f maxBlock hmax hc
  have hc' := withFraming_wellFormed (f := f) hmax hc
  cases hin : s.inputs with
  | nil =>
    rw [step_of_inputs_nil hc hin, step_of_inputs_nil hc' hin]
    exact cbatTurn_withFraming s
  | cons tn ts =>
    rw [step_of_inputs_cons hc hin, step_of_inputs_cons hc' hin]
    exact takeTurn_withFraming tn { s with inputs := ts }

end Sys2Proof.Machine

/-! PROOFS. The PartitionTable operations (40_partition_table.md): what `SET_SLICE_SIZE` makes of the table, entry by entry (R90, R91, R94), and
what `GET_SLICE` answers (R92). -/

namespace Sys2Proof.Machine

/-! ## The sums before an entry -/

/-- Laying out keeps the sizes, and so their sums. -/
@[simp] theorem sizesBefore_layout (acc : Nat) (es : List Slice) (k : Nat) :
    sizesBefore (layout acc es) k = sizesBefore es k := by
  have hsizes := congrArg (List.map BitVec.toNat) (map_size_layout acc es)
  rw [List.map_map, List.map_map] at hsizes
  rw [sizesBefore, sizesBefore, List.map_take, List.map_take]
  exact congrArg (fun sizes => (sizes.take k).sum) hsizes

/-- The sum before entry `j` does not see the size of entry `j` or of a later one. -/
theorem sizesBefore_resize_of_le {j k : Nat} (hjk : j ≤ k) (size : Half) (es : List Slice) :
    sizesBefore (resize k size es) j = sizesBefore es j := by
  have htake : (resize k size es).take j = es.take j := by
    rw [resize, List.take_modify, List.modify_eq_self (by simp only [List.length_take]; omega)]
  rw [sizesBefore, htake, sizesBefore]

/-- A new size of entry `k` moves the sum before a later entry by the difference of the sizes. -/
theorem sizesBefore_resize_of_lt {j k : Nat} (hkj : k < j) (size : Half) {es : List Slice} (hj : j ≤ es.length) :
    sizesBefore (resize k size es) j + es[k].size.toNat = sizesBefore es j + size.toNat := by
  induction j, hkj using Nat.le_induction with
  | base =>
    have hnew : ((resize k size es)[k]'(by simpa using hj)).size = size := by simp [resize]
    rw [sizesBefore_succ (by simpa using hj), sizesBefore_succ hj, sizesBefore_resize_of_le le_rfl, hnew]
    omega
  | succ j hkj ih =>
    have hkept : (resize k size es)[j]'(by simpa using hj) = es[j] := by
      simp [resize, Nat.ne_of_lt hkj]
    rw [sizesBefore_succ (by simpa using hj), sizesBefore_succ hj, hkept]
    have := ih (by omega)
    omega

/-! ## The table after `SET_SLICE_SIZE` -/

section

variable {pt : PartitionTable} {c : Config} {k : Nat} {size : Half}

@[simp] theorem entries_setSize {d : Dir} :
    (pt.setSize c d k size).entries d = layout (c.regionBase d) (resize k size (pt.entries d)) :=
  entries_withEntries _ _ _

theorem entries_setSize_of_ne {d d' : Dir} (h : d ≠ d') : (pt.setSize c d k size).entries d' = pt.entries d' :=
  entries_withEntries_of_ne _ _ h

/-- Entry `j` after entry `k` was given a size: the sizes of the others stay, and every base is the sum before it (R90, R91). -/
theorem entry_setSize {d : Dir} {j : Nat} (hj : j < (pt.entries d).length) :
    (pt.setSize c d k size).entry d j =
      ⟨if j = k then size else (pt.entry d j).size, c.regionBase d + sizesBefore (resize k size (pt.entries d)) j⟩ := by
  rw [PartitionTable.entry, entries_setSize, List.getD_eq_getElem?_getD, getElem?_layout, getElem?_resize,
    List.getElem?_eq_getElem hj, entry_eq_getElem pt d hj]
  by_cases h : k = j
  · simp [h]
  · simp [h, Ne.symm h]

end

/-! ## The two operations -/

variable {s : State}

theorem unknownChannel_eq_false {ch : Chan} (h : ch.toNat < s.cfg.n) : s.unknownChannel ch = false :=
  decide_eq_false (Nat.not_le.mpr h)

/-- A known channel and an allowed size pass both checks of R90. -/
theorem exec_setSliceSize_of_allowed {d : Dir} {ch : Chan} {size : Half} (hch : ch.toNat < s.cfg.n)
    (hsize : size.toNat ∈ s.cfg.allowed) :
    exec (.setSliceSize d ch size) s
      = .next (respond Response.done (setTable (s.pt.setSize s.cfg d ch.toNat size) s)) := by
  simp [exec, execSetSliceSize, unknownChannel_eq_false hch, hsize]

/-- Settles O16: both checks pass, and the new table is read entry by entry. -/
theorem setSliceSizeSetsTheSizeAndLaysTheDirectionOut :
    Obligations.SetSliceSizeSetsTheSizeAndLaysTheDirectionOut := by
  intro s d ch size hch hsize
  refine ⟨s.pt.setSize s.cfg d ch.toNat size, exec_setSliceSize_of_allowed hch hsize,
    fun d' hd => entries_setSize_of_ne hd.symm, by simp, fun k hk => ?_⟩
  rw [entry_setSize hk, entries_setSize, sizesBefore_layout]
  exact ⟨rfl, rfl⟩

/-- Settles O17: the sums before channels up to `ch` do not see its size, those above it see the difference. -/
theorem reconfigurationShiftsTheLaterBases : Obligations.ReconfigurationShiftsTheLaterBases := by
  rintro s d ch size ⟨_, htable, _⟩ hch hsize
  obtain ⟨hlength, _⟩ := tableSound_facts htable d
  have hbase {k : Nat} (hk : k < s.cfg.n) : (s.pt.entry d k).base = s.cfg.regionBase d + sizesBefore (s.pt.entries d) k :=
    (entry_facts htable d hk).2
  refine ⟨tableFormula_of_tableSound htable, _, exec_setSliceSize_of_allowed hch hsize,
    tableFormula_of_tableSound (tableSound_setSize htable d ch.toNat hsize), fun k hk hle => ?_, fun k hk hlt => ?_⟩
  · rw [respond_pt, setTable_pt, entry_setSize (hlength ▸ hk), hbase hk, sizesBefore_resize_of_le hle]
  · have hshift := sizesBefore_resize_of_lt hlt size (es := s.pt.entries d) (by omega)
    rw [← entry_eq_getElem s.pt d] at hshift
    rw [respond_pt, setTable_pt, entry_setSize (hlength ▸ hk), hbase hk]
    dsimp only
    omega

/-- Settles O20: the lookup of a known channel answers its entry. -/
theorem getSliceAnswersTheEntry : Obligations.GetSliceAnswersTheEntry := by
  intro s d ch hch
  rw [exec, execGetSlice, getSlice_of_known (unknownChannel_eq_false hch), orRaise_ok]
  rfl

end Sys2Proof.Machine

/-! PROOFS. The AddressTranslator (41_address_translator.md): what `TRANSLATE` answers (R100, R101), that a translated address lies in its slice
(R102), and the arithmetic laws (R103), whose key fact is that moving the pointer by `n` moves the offset by `n` modulo the size. -/

namespace Sys2Proof.Machine

/-! ## The offset of a moved pointer -/

section

variable {sl : Slice}

/-- A pointer moved by `n` modulo 65536 has its offset moved by `n` modulo the size, because the size divides 65536 (R9). -/
theorem toNat_offsetOf_add (h : isSliceSize sl.size.toNat = true) (p : Half) (n : Nat) :
    (offsetOf sl (p + BitVec.ofNat 16 n)).toNat = ((offsetOf sl p).toNat + n) % sl.size.toNat := by
  rw [toNat_offsetOf h, toNat_offsetOf h, BitVec.toNat_add, BitVec.toNat_ofNat, Nat.add_mod_mod,
    Nat.mod_mod_of_dvd _ (isSliceSize_dvd h), Nat.mod_add_mod]

/-- A pointer moved by the whole size has the same offset. -/
theorem offsetOf_add_size (h : isSliceSize sl.size.toNat = true) (p : Half) : offsetOf sl (p + sl.size) = offsetOf sl p := by
  have hmoved := toNat_offsetOf_add h p sl.size.toNat
  rw [BitVec.ofNat_toNat, BitVec.setWidth_eq, Nat.add_mod_right, Nat.mod_eq_of_lt (offsetOf_lt h p)] at hmoved
  exact BitVec.eq_of_toNat_eq hmoved

/-- Bytes of a transfer less than one size apart have different addresses. -/
theorem byteAddr_injOn (h : isSliceSize sl.size.toNat = true) (p : Half) {i j : Nat} (hi : i < sl.size.toNat)
    (hj : j < sl.size.toNat) (haddr : byteAddr sl p i = byteAddr sl p j) : i = j := by
  have hoffset := Nat.add_left_cancel haddr
  rw [toNat_offsetOf_add h, toNat_offsetOf_add h] at hoffset
  exact (Nat.ModEq.add_left_cancel' _ hoffset).eq_of_lt_of_lt hi hj

end

/-! ## The statements -/

/-- Settles O23: the offset is below the size. -/
theorem translatedAddressLiesInTheSlice : Obligations.TranslatedAddressLiesInTheSlice :=
  fun sl p h => ⟨Nat.le_add_right _ _, Nat.add_lt_add_left (offsetOf_lt h p) sl.base⟩

/-- Settles O24: the offset is the pointer modulo the size, so each law is one of arithmetic modulo the size. -/
theorem translatorArithmeticLaws : Obligations.TranslatorArithmeticLaws := by
  intro sl h
  refine ⟨toNat_offsetOf h, fun p => ?periodic, fun p n => ?compose, fun p i j hi hj => byteAddr_injOn h p hi hj⟩
  case periodic => rw [translateAddr, offsetOf_add_size h, translateAddr]
  case compose =>
    have hmoved : BitVec.ofNat 16 ((p.toNat + n) % 65536) = p + BitVec.ofNat 16 n := by
      apply BitVec.eq_of_toNat_eq
      simp
    rw [hmoved, toNat_offsetOf_add h]

/-- Settles O22: the lookup of a known channel answers its entry, whose translation is the address. -/
theorem translateAnswersBasePlusMaskedPointer : Obligations.TranslateAnswersBasePlusMaskedPointer := by
  intro s d ch p hch
  rw [exec, execTranslate, getSlice_of_known (unknownChannel_eq_false hch), orRaise_ok]
  rfl

end Sys2Proof.Machine

/-! PROOFS. The TransferPlanner (42_transfer_planner.md): what `PLAN` answers (R115), and the laws of the plan (R116), each read off the two forms a
plan that is not empty can have (R112). -/

namespace Sys2Proof.Machine

variable {s : State}

/-! ## The addresses of the bytes of a transfer -/

section

variable {sl : Slice}

/-- The end of a transfer that starts at `p` is the address of the byte after it. -/
theorem translateAddr_add (sl : Slice) (p len : Half) : translateAddr sl (p + len) = byteAddr sl p len.toNat := by
  rw [byteAddr, BitVec.ofNat_toNat, BitVec.setWidth_eq]

/-- Up to the end of the slice, the bytes of a transfer are consecutive. -/
theorem byteAddr_of_lt (h : isSliceSize sl.size.toNat = true) {p : Half} {i : Nat}
    (hi : (offsetOf sl p).toNat + i < sl.size.toNat) : byteAddr sl p i = sl.base + (offsetOf sl p).toNat + i := by
  rw [byteAddr, translateAddr, toNat_offsetOf_add h, Nat.mod_eq_of_lt hi, Nat.add_assoc]

/-- From the end of the slice on, the bytes of a transfer are consecutive from the base. -/
theorem byteAddr_of_wrapped (h : isSliceSize sl.size.toNat = true) {p : Half} {i j : Nat} (hj : j < sl.size.toNat)
    (hi : (offsetOf sl p).toNat + i = sl.size.toNat + j) : byteAddr sl p i = sl.base + j := by
  rw [byteAddr, translateAddr, toNat_offsetOf_add h, hi, Nat.add_mod_left, Nat.mod_eq_of_lt hj]

end

/-- A segment is a list of bytes in ascending order (R44). -/
theorem Segment.addresses_eq_map {sg : Segment} {f : Nat → Nat} (h : ∀ i < sg.len.toNat, f i = sg.addr + i) :
    sg.addresses = (List.range sg.len.toNat).map f := by
  rw [Segment.addresses, List.range'_eq_map_range]
  exact List.map_congr_left fun i hi => (h i (List.mem_range.mp hi)).symm

/-! ## The laws of a plan that is not empty -/

section

variable {sl : Slice} {p len : Half} {segs : List Segment}

/-- A plan that is not empty is one segment that ends in the slice, or the tail of the slice and then its head (R112). -/
theorem planSegments_cases (hsize : isSliceSize sl.size.toNat = true) (hpos : 1 ≤ len.toNat)
    (hplan : planSegments sl p len = .ok segs) :
    ((offsetOf sl p).toNat + len.toNat ≤ sl.size.toNat ∧ segs = [⟨sl.base + (offsetOf sl p).toNat, len⟩])
    ∨ (sl.size.toNat < (offsetOf sl p).toNat + len.toNat
      ∧ ∃ l1 l2 : Half, segs = [⟨sl.base + (offsetOf sl p).toNat, l1⟩, ⟨sl.base, l2⟩]
        ∧ (offsetOf sl p).toNat + l1.toNat = sl.size.toNat ∧ l1.toNat + l2.toNat = len.toNat) := by
  rcases planSegments_ok_iff.mp hplan with ⟨rfl, _⟩ | ⟨_, _, rfl⟩
  · exact absurd hpos (by decide)
  · have ho := offsetOf_lt hsize p
    rcases splitSegments_cases hsize p len with hone | ⟨hwrap, l1, l2, e, h1, h2⟩
    · exact .inl hone
    · exact .inr ⟨hwrap, l1, l2, e, by omega, by omega⟩

variable (hsize : isSliceSize sl.size.toNat = true) (hpos : 1 ≤ len.toNat) (hplan : planSegments sl p len = .ok segs)

include hsize hpos hplan

/-- The source's law: the lengths sum to `L`. -/
theorem sum_len_of_plan : (segs.map fun sg => sg.len.toNat).sum = len.toNat := by
  rcases planSegments_cases hsize hpos hplan with ⟨_, rfl⟩ | ⟨_, l1, l2, rfl, _, hsum⟩
  · simp
  · simpa using hsum

/-- The source's law: every range lies in the slice. -/
theorem segment_in_slice_of_plan (hle : len.toNat ≤ sl.size.toNat) :
    ∀ sg ∈ segs, sl.base ≤ sg.addr ∧ sg.addr + sg.len.toNat ≤ sl.base + sl.size.toNat := by
  rcases planSegments_cases hsize hpos hplan with ⟨hfit, rfl⟩ | ⟨hwrap, l1, l2, rfl, h1, h2⟩ <;> intro sg hsg
  · obtain rfl := List.mem_singleton.mp hsg
    dsimp only
    omega
  · rcases List.mem_pair.mp hsg with rfl | rfl <;> dsimp only <;> omega

/-- Law (a): no segment is empty. -/
theorem one_le_len_of_plan : ∀ sg ∈ segs, 1 ≤ sg.len.toNat := by
  have ho := offsetOf_lt hsize p
  rcases planSegments_cases hsize hpos hplan with ⟨_, rfl⟩ | ⟨hwrap, l1, l2, rfl, h1, h2⟩ <;> intro sg hsg
  · rwa [List.mem_singleton.mp hsg]
  · rcases List.mem_pair.mp hsg with rfl | rfl <;> dsimp only <;> omega

/-- Law (b): the first segment starts where the pointer is translated to. -/
theorem exists_head_of_plan : ∃ sg rest, segs = sg :: rest ∧ sg.addr = translateAddr sl p := by
  rcases planSegments_cases hsize hpos hplan with ⟨_, rfl⟩ | ⟨_, l1, l2, rfl, _, _⟩
  · exact ⟨_, _, rfl, rfl⟩
  · exact ⟨_, _, rfl, rfl⟩

/-- There are one or two segments. -/
theorem length_of_plan : segs.length = 1 ∨ segs.length = 2 := by
  rcases planSegments_cases hsize hpos hplan with ⟨_, rfl⟩ | ⟨_, l1, l2, rfl, _, _⟩
  · exact .inl rfl
  · exact .inr rfl

/-- Laws (c) and (d): of two segments the first ends with the slice, and the second starts at the base and ends at or before the first, which it touches
only when the transfer is the whole slice. -/
theorem two_segments_of_plan (hle : len.toNat ≤ sl.size.toNat) {s1 s2 : Segment} (hsegs : segs = [s1, s2]) :
    s1.addr + s1.len.toNat = sl.base + sl.size.toNat ∧ s2.addr = sl.base
    ∧ s2.len.toNat + sl.size.toNat = len.toNat + (offsetOf sl p).toNat
    ∧ s2.len.toNat ≤ (offsetOf sl p).toNat
    ∧ s2.addr + s2.len.toNat ≤ s1.addr
    ∧ (s2.addr + s2.len.toNat = s1.addr ↔ len.toNat = sl.size.toNat) := by
  rcases planSegments_cases hsize hpos hplan with ⟨_, hone⟩ | ⟨_, l1, l2, htwo, h1, h2⟩
  · exact absurd (hone.symm.trans hsegs) (by simp)
  · obtain ⟨rfl, rfl⟩ : (⟨sl.base + (offsetOf sl p).toNat, l1⟩ : Segment) = s1 ∧ ⟨sl.base, l2⟩ = s2 := by
      simpa using htwo.symm.trans hsegs
    dsimp only
    omega

/-- Law (e): the byte after the plan, wrapped at the end of the slice, is where the next transfer starts. -/
theorem exists_last_of_plan (hle : len.toNat ≤ sl.size.toNat) :
    ∃ before last, segs = before ++ [last] ∧
      translateAddr sl (p + len)
        = if last.addr + last.len.toNat = sl.base + sl.size.toNat then sl.base else last.addr + last.len.toNat := by
  have ho := offsetOf_lt hsize p
  rw [translateAddr_add]
  rcases planSegments_cases hsize hpos hplan with ⟨hfit, rfl⟩ | ⟨hwrap, l1, l2, rfl, h1, h2⟩
  · refine ⟨[], _, rfl, ?_⟩
    dsimp only
    split
    · exact byteAddr_of_wrapped (j := 0) hsize (by omega) (by omega)
    · exact byteAddr_of_lt hsize (by omega)
  · refine ⟨[_], _, rfl, ?_⟩
    rw [if_neg (by dsimp only; omega)]
    exact byteAddr_of_wrapped (j := l2.toNat) hsize (by omega) (by omega)

/-- Law (f): byte `i` of the plan is where the pointer moved by `i` is translated to. -/
theorem planAddresses_of_plan (hle : len.toNat ≤ sl.size.toNat) :
    planAddresses segs = (List.range len.toNat).map (byteAddr sl p) := by
  have ho := offsetOf_lt hsize p
  rcases planSegments_cases hsize hpos hplan with ⟨hfit, rfl⟩ | ⟨hwrap, l1, l2, rfl, h1, h2⟩
  · rw [planAddresses, List.flatMap_singleton]
    exact Segment.addresses_eq_map fun i (hi : i < len.toNat) => byteAddr_of_lt hsize (by omega)
  · have htail : Segment.addresses ⟨sl.base + (offsetOf sl p).toNat, l1⟩ = (List.range l1.toNat).map (byteAddr sl p) :=
      Segment.addresses_eq_map fun i (hi : i < l1.toNat) => byteAddr_of_lt hsize (by omega)
    have hhead : Segment.addresses ⟨sl.base, l2⟩ = (List.range l2.toNat).map fun i => byteAddr sl p (l1.toNat + i) :=
      Segment.addresses_eq_map fun i (hi : i < l2.toNat) => byteAddr_of_wrapped hsize (by omega) (by omega)
    rw [planAddresses_cons, planAddresses, List.flatMap_singleton, htail, hhead, ← h2, List.range_add, List.map_append,
      List.map_map]
    rfl

end

/-! ## The statements -/

/-- Settles O27: each law holds of both forms of the plan. -/
theorem planLaws : Obligations.PlanLaws := by
  intro sl p len segs hsize hpos hle hplan
  exact ⟨sum_len_of_plan hsize hpos hplan, segment_in_slice_of_plan hsize hpos hplan hle,
    one_le_len_of_plan hsize hpos hplan, exists_head_of_plan hsize hpos hplan, length_of_plan hsize hpos hplan,
    fun s1 s2 => two_segments_of_plan hsize hpos hplan hle, exists_last_of_plan hsize hpos hplan hle,
    planAddresses_of_plan hsize hpos hplan hle⟩

/-- `PLAN` of a known channel answers the segments of the plan, and nothing but the response changes (R115). -/
theorem exec_plan_of_ok {d : Dir} {ch : Chan} {p len : Half} {segs : List Segment} (hch : ch.toNat < s.cfg.n)
    (hplan : planSegments (s.pt.entry d ch.toNat) p len = .ok segs) :
    exec (.plan d ch p len) s = .next (respond (Response.ofSegments segs) s) := by
  rw [exec, execPlan, getSlice_of_known (unknownChannel_eq_false hch), orRaise_ok, hplan, orRaise_ok]

/-- Settles O25: a length up to the slice size has a plan, whose form is told by whether it is empty and whether it wraps. -/
theorem planAnswersNoneOneOrTwoSegments : Obligations.PlanAnswersNoneOneOrTwoSegments := by
  intro s d ch p len hi hch hle
  have hsize := entry_isSliceSize hi d hch
  obtain ⟨segs, hplan⟩ := exists_planSegments_ok hle p
  refine ⟨segs, exec_plan_of_ok hch hplan, fun h0 => ?empty, ?nonempty⟩
  case empty =>
    rcases planSegments_ok_iff.mp hplan with ⟨_, hnil⟩ | ⟨hne, _, _⟩
    · exact hnil
    · exact absurd (BitVec.eq_of_toNat_eq h0) hne
  case nonempty =>
    rw [← toNat_offsetOf hsize p]
    refine ⟨fun hpos hfits => ?fits, fun hpos hwraps => ?wraps⟩
    case fits =>
      rcases planSegments_cases hsize hpos hplan with ⟨_, hone⟩ | ⟨hwrap, _⟩
      · exact hone
      · exact absurd hfits (Nat.not_le.mpr hwrap)
    case wraps =>
      rcases planSegments_cases hsize hpos hplan with ⟨hfit, _⟩ | ⟨_, l1, l2, htwo, h1, h2⟩
      · exact absurd hwraps (Nat.not_lt.mpr hfit)
      · exact ⟨l1, l2, htwo, by omega, by omega⟩

end Sys2Proof.Machine

/-! PROOFS. The start of a transfer (43_pointer_sync.md R126, R134), the Transport's turn (R135), and waiting for its reply (R136). -/

namespace Sys2Proof.Machine

variable {s t : State}

/-! ## The checks of a transfer -/

section

variable {d : Dir} {ch : Chan} {len : Half} {buf : List Byte}

/-- A zero length is answered OK with no byte of data, whether or not the slice fits (R126 step 2). -/
theorem beginTransfer_zero (hch : ch.toNat < s.cfg.n) :
    beginTransfer d ch 0 buf s = .next (respond (Response.ofData []) s) := by
  rw [beginTransfer, getSlice_of_known (unknownChannel_eq_false hch), orRaise_ok]
  rfl

/-- A transfer that passes the checks starts the sequence (R135). -/
theorem beginTransfer_of_passesChecks (h : PassesChecks d ch len s) :
    beginTransfer d ch len buf s = .next (startTransfer (s.pt.entry d ch.toNat) buf s) := by
  obtain ⟨hknown, hnonzero, hwithin, hfits⟩ := h
  rw [beginTransfer, getSlice_of_known hknown, orRaise_ok, if_neg hnonzero, if_neg (Nat.not_lt.mpr hwithin),
    if_neg (by simp [hfits])]

/-- The checks refuse a legal length on a slice that does not fit, and nothing else (R126 step 4). -/
theorem beginTransfer_refused_iff :
    beginTransfer d ch len buf s = .refused .sliceDoesNotFit ↔
      s.unknownChannel ch = false ∧ len ≠ 0#16 ∧ len.toNat ≤ (s.pt.entry d ch.toNat).size.toNat
        ∧ sliceFits s.cfg d (s.pt.entry d ch.toNat) = false := by
  rcases beginTransfer_cases d ch len buf s with
    ⟨hc, e⟩ | ⟨hc, h0, e⟩ | ⟨hc, h0, hl, e⟩ | ⟨hc, h0, hl, hf, e⟩ | ⟨hc, h0, hl, hf, e⟩ <;> rw [e]
  · simp [hc]
  · simp [h0]
  · simp [Nat.not_le.mpr hl]
  · simp [hc, h0, hl, hf]
  · simp [hf]

/-- A transfer command runs the checks of its direction (R125, R131). -/
theorem exec_transferInstr (d : Dir) (ch : Chan) (len : Half) (s : State) :
    exec (transferInstr d ch len) s = beginTransfer d ch len (startBuffer d s.pay) s := by
  cases d <;> rfl

end

theorem unknownChannel_eq_false_iff {ch : Chan} : s.unknownChannel ch = false ↔ ch.toNat < s.cfg.n := by
  simp [State.unknownChannel]

/-- Settles O37: both cases of `RECEIVE` are cases of the checks. -/
theorem receiveStartsTheSequenceOrAnswersZeroLength : Obligations.ReceiveStartsTheSequenceOrAnswersZeroLength := by
  refine fun s ch len hch => ⟨?zero, fun hnonzero hwithin hfits => ?start⟩
  case zero => rintro rfl; exact beginTransfer_zero hch
  case start =>
    exact beginTransfer_of_passesChecks ⟨unknownChannel_eq_false hch, hnonzero, hwithin, sliceFits_iff.mpr hfits⟩

/-- Settles O38: both cases of `TRANSMIT` are cases of the checks. -/
theorem transmitStartsTheSequenceOrAnswersZeroLength : Obligations.TransmitStartsTheSequenceOrAnswersZeroLength := by
  refine fun s ch len hch => ⟨?zero, fun hnonzero hwithin hfits => ?start⟩
  case zero => rintro rfl; exact beginTransfer_zero hch
  case start =>
    exact beginTransfer_of_passesChecks ⟨unknownChannel_eq_false hch, hnonzero, hwithin, sliceFits_iff.mpr hfits⟩

/-- Settles O39: of the five answers of the checks one is the refusal. -/
theorem transferIsRefusedExactlyWhenTheSliceDoesNotFit :
    Obligations.TransferIsRefusedExactlyWhenTheSliceDoesNotFit := by
  intro s d ch len
  rw [exec_transferInstr, beginTransfer_refused_iff, unknownChannel_eq_false_iff, sliceFits_eq_false_iff]
  rfl

/-! ## The Transport's turn -/

/-- With a primitive outstanding, the Transport performs it and CBAT takes the reply. -/
theorem transportTurn_of_request {i : Instr} {w : List Byte} (hr : requestOf s = some (i, w)) (v : Verdict) :
    transportTurn v s = mapNext advance (exec i (putOnPort w v s)) := by
  rw [transportTurn, hr]
  dsimp only
  cases exec i (putOnPort w v s) <;> rfl

/-- Settles O52: the step is the Transport's turn, whose primitive the schedule does not change. -/
theorem stepRunsTheOutstandingPrimitive : Obligations.StepRunsTheOutstandingPrimitive := by
  intro s v ts i w hc hin hr
  rw [step_of_inputs_cons hc hin]
  exact transportTurn_of_request (s := { s with inputs := ts }) hr v

/-! ## Waiting -/

/-- In a busy phase a turn without a reply or a reset touches `PMem`, the port and the commands held off only (R136). -/
theorem takeTurn_frame_of_givesNoReply {tn : Turn} (hbusy : s.ph ≠ .idle) (hturn : tn.givesNoReply = true)
    (h : takeTurn tn s = .next t) : t = { s with mem := t.mem, port := t.port, pending := t.pending } := by
  cases tn with
  | cbat =>
    rw [takeTurn, cbatTurn_of_waiting (.inl hbusy)] at h
    cases h
    rfl
  | transport v => cases hturn
  | present c =>
    obtain ⟨_, rfl⟩ := presentTurn_next h
    rfl
  | master w wdata v => rw [masterTurn_frame h]
  | peripheral ws =>
    cases h
    rfl
  | reset landed => cases hturn

/-- A step of such a turn also takes it out of the schedule. -/
theorem step_frame_of_givesNoReply (hbusy : s.ph ≠ .idle) (hturn : ∀ tn ∈ s.inputs.take 1, tn.givesNoReply = true)
    (h : step s = .next t) :
    t = { s with inputs := s.inputs.drop 1, mem := t.mem, port := t.port, pending := t.pending } := by
  have hc := wellFormed_of_step_next h
  cases hin : s.inputs with
  | nil =>
    rw [step_of_inputs_nil hc hin, cbatTurn_of_waiting (.inl hbusy)] at h
    cases h
    rw [List.drop_nil, ← hin]
  | cons tn ts =>
    rw [step_of_inputs_cons hc hin] at h
    exact takeTurn_frame_of_givesNoReply (s := { s with inputs := ts }) hbusy (hturn tn (by simp [hin])) h

/-- A run that answers a next state has a first step, and runs on from it. -/
theorem exists_step_of_runSteps_succ {k : Nat} (h : runSteps (k + 1) s = .next t) :
    ∃ u, step s = .next u ∧ runSteps k u = .next t := by
  cases hs : step s with
  | next u => exact ⟨u, rfl, (runSteps_succ_of_next hs).symm.trans h⟩
  | fault x =>
    have hstep : Sys2Proof.core.step s = .fault x := hs
    simp [runSteps, Host.Core.run, hstep] at h
  | refused x =>
    have hstep : Sys2Proof.core.step s = .refused x := hs
    simp [runSteps, Host.Core.run, hstep] at h

/-- Any number of steps without a reply or a reset touches `PMem`, the port, the commands held off and the schedule only (R136). -/
theorem runSteps_frame_of_givesNoReply {k : Nat} (hbusy : s.ph ≠ .idle)
    (hturns : ∀ tn ∈ s.inputs.take k, tn.givesNoReply = true) (h : runSteps k s = .next t) :
    t = { s with inputs := t.inputs, mem := t.mem, port := t.port, pending := t.pending } := by
  induction k generalizing s with
  | zero => cases h; rfl
  | succ k ih =>
    obtain ⟨u, hstep, hrun⟩ := exists_step_of_runSteps_succ h
    have hfirst : ∀ tn ∈ s.inputs.take 1, tn.givesNoReply = true :=
      fun tn htn => hturns tn (List.take_subset_take_left _ (by omega) htn)
    have hu := step_frame_of_givesNoReply hbusy hfirst hstep
    have hrest : ∀ tn ∈ u.inputs.take k, tn.givesNoReply = true := by
      intro tn htn
      rw [hu, List.take_drop, Nat.add_comm] at htn
      exact hturns tn (List.mem_of_mem_drop htn)
    rw [ih (by rw [hu]; exact hbusy) hrest hrun, hu]

/-- With no turn listed CBAT waits for any number of steps, and nothing changes. -/
theorem runSteps_of_waiting (hc : s.cfg.wellFormed = true) (hbusy : s.ph ≠ .idle) (hin : s.inputs = []) (k : Nat) :
    runSteps k s = .next s := by
  have hstep : step s = .next s := (step_of_inputs_nil hc hin).trans (cbatTurn_of_waiting (.inl hbusy))
  induction k with
  | zero => rfl
  | succ k ih => rw [runSteps_succ_of_next hstep, ih]

/-- Settles O49: neither the phase nor what the outstanding primitive depends on is among what such a run touches. -/
theorem withoutAReplyCbatStaysInItsPhase : Obligations.WithoutAReplyCbatStaysInItsPhase := by
  refine ⟨fun s t k hbusy hturns h => ?_, fun s k hc hbusy hin => runSteps_of_waiting hc hbusy hin k⟩
  rw [runSteps_frame_of_givesNoReply hbusy hturns h]
  exact ⟨rfl, rfl, rfl, rfl, rfl, rfl, rfl⟩

/-! ## Successive plans -/

/-- The bytes of a plan, empty or not, in their order: byte `i` is where the pointer moved by `i` is translated to. -/
theorem planAddresses_eq_map {sl : Slice} {p len : Half} {segs : List Segment} (hsize : isSliceSize sl.size.toNat = true)
    (hplan : planSegments sl p len = .ok segs) : planAddresses segs = (List.range len.toNat).map (byteAddr sl p) := by
  rcases planSegments_ok_iff.mp hplan with ⟨rfl, rfl⟩ | ⟨hnonzero, hle, _⟩
  · rfl
  · have hpos : len.toNat ≠ 0 := fun h0 => hnonzero (BitVec.eq_of_toNat_eq h0)
    exact planAddresses_of_plan hsize (Nat.one_le_iff_ne_zero.mpr hpos) hplan hle

/-- Byte `i` at the advanced pointer is byte `l + i` at the old one. -/
theorem byteAddr_advancePointer (sl : Slice) (p l : Half) (i : Nat) :
    byteAddr sl (advancePointer p l) i = byteAddr sl p (l.toNat + i) := by
  rw [byteAddr, byteAddr, advancePointer, BitVec.ofNat_add, BitVec.ofNat_toNat, BitVec.setWidth_eq, BitVec.add_assoc]

/-- Settles O28: the bytes of the second plan go on where those of the first end. -/
theorem twoTransfersTouchTheBytesOfOne : Obligations.TwoTransfersTouchTheBytesOfOne := by
  intro sl p l1 l2 segs1 segs2 segs hsize hle hplan1 hplan2 hplan
  have hbound := isSliceSize_le hsize
  have hsum : (l1 + l2).toNat = l1.toNat + l2.toNat := by
    rw [BitVec.toNat_add]
    exact Nat.mod_eq_of_lt (by omega)
  have hsecond : byteAddr sl (advancePointer p l1) = fun i => byteAddr sl p (l1.toNat + i) :=
    funext (byteAddr_advancePointer sl p l1)
  rw [planAddresses_eq_map hsize hplan1, planAddresses_eq_map hsize hplan2, planAddresses_eq_map hsize hplan, hsum,
    List.range_add, List.map_append, List.map_map, hsecond]
  rfl

end Sys2Proof.Machine

/-! PROOFS. The primitives of a transfer (43_pointer_sync.md R127 to R135): which one each phase has outstanding and what it may address, what a
primitive leaves in `PMem` whatever its verdict (44_transport.md R150), and from these what a failed transfer leaves (R132, R133). -/

namespace Sys2Proof.Machine

variable {s t : State}

/-! ## Two parts of the invariant -/

theorem wf_mem_of_inv (hi : s.Inv) : Memory.wf s.mem = true := by
  obtain ⟨_, _, hmem, _⟩ := hi
  exact (Bool.and_eq_true_iff.mp hmem).1

theorem flightSound_of_inv (hi : s.Inv) : flightSound s = true := by
  obtain ⟨_, _, _, hflight, _⟩ := hi
  exact hflight

/-! ## The primitive of each phase -/

theorem requestOf_of_rdHi (h : s.ph = .rdHi) : requestOf s = some (.rdReg (s.cfg.ptrReg s.cmdDir s.cmdCh), []) := by
  rw [requestOf, h]

theorem requestOf_of_rdLo (h : s.ph = .rdLo) :
    requestOf s = some (.rdReg (s.cfg.ptrReg s.cmdDir s.cmdCh + 1), []) := by
  rw [requestOf, h]

theorem requestOf_of_seg1 (h : s.ph = .seg1) {sg : Segment} {rest : List Segment} (hsegs : s.lat.segs = sg :: rest) :
    requestOf s = some (segmentRequest s.cmdDir s.lat.buf 0 sg) := by
  simp only [requestOf, h, hsegs]

theorem requestOf_of_seg2 (h : s.ph = .seg2) {sg sg' : Segment} {rest : List Segment}
    (hsegs : s.lat.segs = sg :: sg' :: rest) :
    requestOf s = some (segmentRequest s.cmdDir s.lat.buf sg.len.toNat sg') := by
  simp only [requestOf, h, hsegs]

theorem requestOf_of_wrHi (h : s.ph = .wrHi) :
    requestOf s = some (.wrReg (s.cfg.ptrReg s.cmdDir s.cmdCh), [hiByte (s.lat.p + s.cmdLen)]) := by
  rw [requestOf, h]
  rfl

theorem requestOf_of_wrLo (h : s.ph = .wrLo) :
    requestOf s = some (.wrReg (s.cfg.ptrReg s.cmdDir s.cmdCh + 1), [loByte (s.lat.p + s.cmdLen)]) := by
  rw [requestOf, h]
  rfl

/-! ## What a segment may address -/

/-- The segment lies in the latched slice, and a `TRANSMIT` has its bytes in the buffer from `pos` on. -/
structure SegmentReady (s : State) (pos : Nat) (sg : Segment) : Prop where
  above  : s.lat.slice.base ≤ sg.addr
  below  : sg.addr + sg.len.toNat ≤ s.lat.slice.base + s.lat.slice.size.toNat
  filled : s.cmdDir = .tx → (bufRange s.lat.buf pos sg.len.toNat).length = sg.len.toNat

theorem SegmentReady.inSlice {pos : Nat} {sg : Segment} (h : SegmentReady s pos sg) {x : Nat}
    (hx : inBlock sg.addr sg.len.toNat x) : inSlice s.lat.slice x :=
  ⟨h.above.trans hx.1, hx.2.trans_le h.below⟩

/-- The latched slice has a legal size (R9, R25). -/
theorem isSliceSize_latched (hi : s.Inv) (ht : transferSound s = true) : isSliceSize s.lat.slice.size.toNat = true := by
  obtain ⟨_, hch, hslice, _⟩ := transferSound_facts ht
  exact hslice ▸ entry_isSliceSize hi _ hch

/-- The latched slice lies in `PMem` (R126 step 4). -/
theorem latched_slice_inside (hi : s.Inv) (ht : transferSound s = true) :
    s.lat.slice.base + s.lat.slice.size.toNat ≤ s.cfg.pmemSize := by
  obtain ⟨_, hch, hslice, _, _, hfits⟩ := transferSound_facts ht
  rw [hslice] at hfits ⊢
  exact (fits_facts hi _ hch hfits).2.2

/-- A segment of the plan whose end in the buffer is at most the transfer length is ready. -/
theorem segmentReady_of_mem (hi : s.Inv) (ht : transferSound s = true) (hp : planSound s = true) {got pos : Nat}
    (hbuf : bufSound s got = true) {sg : Segment} (hmem : sg ∈ s.lat.segs) (hend : pos + sg.len.toNat ≤ s.cmdLen.toNat) :
    SegmentReady s pos sg := by
  obtain ⟨_, _, _, hnonzero, hwithin, _⟩ := transferSound_facts ht
  have hpos : s.cmdLen.toNat ≠ 0 := fun h0 => hnonzero (BitVec.eq_of_toNat_eq h0)
  obtain ⟨habove, hbelow⟩ := segment_in_slice_of_plan (isSliceSize_latched hi ht) (Nat.one_le_iff_ne_zero.mpr hpos)
    (planSound_iff.mp hp) hwithin sg hmem
  refine ⟨habove, hbelow, fun hdir => ?_⟩
  simp only [bufSound, hdir, Bool.and_eq_true, beq_iff_eq] at hbuf
  rw [bufRange, List.length_take, List.length_drop, hbuf.1, hbuf.2]
  omega

/-- In `SEG1` the plan has one segment of the whole length, or two; the first is ready. -/
theorem exists_segment_of_seg1 (hi : s.Inv) (hph : s.ph = .seg1) :
    ∃ sg rest, s.lat.segs = sg :: rest ∧ rest.length ≤ 1 ∧ SegmentReady s 0 sg := by
  have hflight := flightSound_of_inv hi
  simp only [flightSound, hph, Bool.and_eq_true] at hflight
  obtain ⟨⟨ht, hp⟩, hbuf⟩ := hflight
  have hready {sg} := segmentReady_of_mem hi ht hp hbuf (pos := 0) (sg := sg)
  rcases segs_of_planSound hi ht hp with ⟨sg, hsegs, hlen⟩ | ⟨sg, sg', hsegs, hsum⟩
  · exact ⟨sg, [], hsegs, by simp, hready (by simp [hsegs]) (by omega)⟩
  · exact ⟨sg, [sg'], hsegs, by simp, hready (by simp [hsegs]) (by omega)⟩

/-- In `SEG2` the plan has two segments; the second is ready. -/
theorem exists_segments_of_seg2 (hi : s.Inv) (hph : s.ph = .seg2) :
    ∃ sg sg', s.lat.segs = [sg, sg'] ∧ SegmentReady s sg.len.toNat sg' := by
  have hflight := flightSound_of_inv hi
  simp only [flightSound, hph, Bool.and_eq_true, beq_iff_eq] at hflight
  obtain ⟨⟨⟨ht, hp⟩, htwo⟩, hbuf⟩ := hflight
  rcases segs_of_planSound hi ht hp with ⟨sg, hsegs, _⟩ | ⟨sg, sg', hsegs, hsum⟩
  · simp [hsegs] at htwo
  · exact ⟨sg, sg', hsegs, segmentReady_of_mem hi ht hp hbuf (by simp [hsegs]) hsum.le⟩

/-! ## What a primitive of a transfer may address -/

/-- The primitives a transfer can have outstanding: a register of its pair, or a block of its slice in its direction. -/
inductive TransferRequest (s : State) : Instr → List Byte → Prop where
  | rdReg {a : Nat} (ha : inPair s.cfg s.cmdDir s.cmdCh a) : TransferRequest s (.rdReg a) []
  | wrReg {a : Nat} (b : Byte) (ha : inPair s.cfg s.cmdDir s.cmdCh a) : TransferRequest s (.wrReg a) [b]
  | rdBlk {pos : Nat} {sg : Segment} (hd : s.cmdDir = .rx) (hsg : SegmentReady s pos sg) :
      TransferRequest s (.rdBlk sg.addr sg.len) []
  | wrBlk {pos : Nat} {sg : Segment} (hd : s.cmdDir = .tx) (hsg : SegmentReady s pos sg) :
      TransferRequest s (.wrBlk sg.addr sg.len) (bufRange s.lat.buf pos sg.len.toNat)

/-- The block primitive of a segment that is ready is one of them. -/
theorem transferRequest_of_segment {pos : Nat} {sg : Segment} (hsg : SegmentReady s pos sg) {i : Instr} {w : List Byte}
    (h : segmentRequest s.cmdDir s.lat.buf pos sg = (i, w)) : TransferRequest s i w := by
  cases hd : s.cmdDir with
  | rx => rw [hd] at h; cases h; exact .rdBlk hd hsg
  | tx => rw [hd] at h; cases h; exact .wrBlk hd hsg

/-- In every busy phase a sound transfer has one of them outstanding. -/
theorem exists_transferRequest (hi : s.Inv) (hbusy : s.ph ≠ .idle) :
    ∃ i w, requestOf s = some (i, w) ∧ TransferRequest s i w := by
  cases hph : s.ph with
  | idle => exact absurd hph hbusy
  | rdHi => exact ⟨_, _, requestOf_of_rdHi hph, .rdReg (.inl rfl)⟩
  | rdLo => exact ⟨_, _, requestOf_of_rdLo hph, .rdReg (.inr rfl)⟩
  | seg1 =>
    obtain ⟨sg, rest, hsegs, _, hready⟩ := exists_segment_of_seg1 hi hph
    exact ⟨_, _, requestOf_of_seg1 hph hsegs, transferRequest_of_segment hready rfl⟩
  | seg2 =>
    obtain ⟨sg, sg', hsegs, hready⟩ := exists_segments_of_seg2 hi hph
    exact ⟨_, _, requestOf_of_seg2 hph hsegs, transferRequest_of_segment hready rfl⟩
  | wrHi => exact ⟨_, _, requestOf_of_wrHi hph, .wrReg _ (.inl rfl)⟩
  | wrLo => exact ⟨_, _, requestOf_of_wrLo hph, .wrReg _ (.inr rfl)⟩

/-- A byte of the pair of the command in progress lies in `PMem`. -/
theorem lt_pmemSize_of_inPair (hi : s.Inv) (ht : transferSound s = true) {a : Nat}
    (ha : inPair s.cfg s.cmdDir s.cmdCh a) : a < s.cfg.pmemSize := by
  obtain ⟨_, hch, _⟩ := transferSound_facts ht
  have hpair := (pair_facts hi.1 s.cmdDir hch).1
  rcases ha with rfl | rfl <;> omega

/-! ## Primitives whatever the verdict -/

/-- A read inside `PMem` answers a next state. -/
theorem exists_busRead_next {a n : Nat} (ha : a + n ≤ s.cfg.pmemSize) : ∃ t, busRead a n s = .next t := by
  rcases busRead_cases a n s with ⟨hout, _⟩ | ⟨_, _, e⟩ | ⟨_, _, e⟩
  · exact absurd ha (Nat.not_le.mpr hout)
  · exact ⟨_, e⟩
  · exact ⟨_, e⟩

/-- A write of the right length inside `PMem` answers a next state. -/
theorem exists_busWrite_next {a n : Nat} (hl : s.port.wdata.length = n) (ha : a + n ≤ s.cfg.pmemSize) :
    ∃ t, busWrite a n s = .next t := by
  rcases busWrite_cases a n s with ⟨hne, _⟩ | ⟨_, hout, _⟩ | ⟨_, _, _, e⟩ | ⟨_, _, _, _, e⟩
  · exact absurd hl hne
  · exact absurd ha (Nat.not_le.mpr hout)
  · exact ⟨_, e⟩
  · exact ⟨_, e⟩

/-- No primitive of a sound transfer stops (R126). -/
theorem TransferRequest.exists_exec_next {i : Instr} {w : List Byte} (h : TransferRequest s i w) (hi : s.Inv)
    (ht : transferSound s = true) (v : Verdict) : ∃ t, exec i (putOnPort w v s) = .next t := by
  have hslice := latched_slice_inside hi ht
  cases h with
  | rdReg ha => exact exists_busRead_next (s := putOnPort [] v s) (lt_pmemSize_of_inPair hi ht ha)
  | wrReg b ha => exact exists_busWrite_next (s := putOnPort [b] v s) rfl (lt_pmemSize_of_inPair hi ht ha)
  | rdBlk hd hsg => exact exists_busRead_next (s := putOnPort [] v s) (hsg.below.trans hslice)
  | wrBlk hd hsg => exact exists_busWrite_next (s := putOnPort _ v s) (hsg.filled hd) (hsg.below.trans hslice)

/-- Settles O47: in `IDLE` none is outstanding, and in a busy phase it is a primitive of a sound transfer. -/
theorem noPrimitiveOfATransferStops : Obligations.NoPrimitiveOfATransferStops := by
  intro s v ts hi hin
  rw [step_of_inputs_cons hi.1 hin]
  by_cases hidle : s.ph = .idle
  · exact ⟨{ s with inputs := ts }, by simp [takeTurn, transportTurn, requestOf, hidle]⟩
  · obtain ⟨i, w, hr, hrequest⟩ := exists_transferRequest (s := { s with inputs := ts }) hi hidle
    obtain ⟨u, hu⟩ := hrequest.exists_exec_next hi (transferSound_of_busy hi hidle) v
    exact ⟨advance u, by rw [takeTurn, transportTurn_of_request hr, hu]; rfl⟩

/-- A write stores, of each byte, the old value or that of its write data. -/
theorem read_of_busWrite {a n x : Nat} (hm : Memory.wf s.mem = true) (h : busWrite a n s = .next t) :
    Memory.read t.mem x = Memory.read s.mem x ∨ a ≤ x ∧ s.port.wdata[x - a]? = some (Memory.read t.mem x) := by
  have hdata (hlow : a ≤ x) (hhigh : x < a + s.port.wdata.length) :
      s.port.wdata[x - a]? = some (s.port.wdata.getD (x - a) 0) := by
    have hlt : x - a < s.port.wdata.length := by omega
    rw [List.getElem?_eq_getElem hlt, List.getD_eq_getElem _ _ hlt]
  rcases busWrite_cases a n s with ⟨_, e⟩ | ⟨_, _, e⟩ | ⟨_, _, _, e⟩ | ⟨_, _, landed, _, e⟩ <;> rw [e] at h <;> cases h <;>
    simp only [reply_mem, setMem_mem]
  · rw [Memory.read_writeBlock hm]
    split
    next hin => exact .inr ⟨hin.1, hdata hin.1 hin.2⟩
    next => exact .inl rfl
  · rw [Memory.read_writeLanded hm]
    split
    next hin => exact .inr ⟨hin.1, hdata hin.1 hin.2.1⟩
    next => exact .inl rfl

/-- A primitive leaves each byte of `PMem` old or as its write data has it, whatever the verdict (R150, U9). -/
theorem read_old_or_stored {i : Instr} {w : List Byte} {v : Verdict} (hp : isTransportPrimitive i)
    (hm : Memory.wf s.mem = true) (h : exec i (putOnPort w v s) = .next t) (x : Nat) :
    Memory.read t.mem x = Memory.read s.mem x ∨ storedByte (some (i, w)) x = some (Memory.read t.mem x) := by
  have hread : ∀ a n, busRead a n (putOnPort w v s) = .next t → Memory.read t.mem x = Memory.read s.mem x := by
    intro a n h
    rcases busRead_cases a n (putOnPort w v s) with ⟨_, e⟩ | ⟨_, _, e⟩ | ⟨_, _, e⟩ <;> rw [e] at h <;> cases h <;> rfl
  have hwrite : ∀ a n, busWrite a n (putOnPort w v s) = .next t →
      Memory.read t.mem x = Memory.read s.mem x ∨ (if a ≤ x then w[x - a]? else none) = some (Memory.read t.mem x) :=
    fun a n h => (read_of_busWrite (s := putOnPort w v s) hm h).imp id fun ⟨hlow, e⟩ => by rw [if_pos hlow]; exact e
  cases i with
  | rdReg a => exact .inl (hread _ _ h)
  | rdBlk a n => exact .inl (hread _ _ h)
  | wrReg a => exact hwrite _ _ h
  | wrBlk a n => exact hwrite _ _ h
  | _ => exact absurd hp id

/-- After the Transport's turn each byte of `PMem` is old or as the outstanding primitive writes it. -/
theorem read_of_step_transport {v : Verdict} {ts : List Turn} (hi : s.Inv) (hin : s.inputs = .transport v :: ts)
    (h : step s = .next t) (x : Nat) :
    Memory.read t.mem x = Memory.read s.mem x ∨ storedByte (requestOf s) x = some (Memory.read t.mem x) := by
  have hwf := wf_mem_of_inv hi
  rw [step_of_inputs_cons hi.1 hin] at h
  rcases transportTurn_cases h with ⟨_, rfl⟩ | ⟨i, w, u, hr, hu, rfl⟩
  · exact .inl rfl
  · rw [advance_mem, show requestOf s = some (i, w) from hr]
    exact read_old_or_stored (s := { s with inputs := ts }) (isPrimitive_of_requestOf hr) hwf hu x

/-- A byte the outstanding primitive does not write is as it was. -/
theorem read_of_storedByte_eq_none {v : Verdict} {ts : List Turn} (hi : s.Inv) (hin : s.inputs = .transport v :: ts)
    (h : step s = .next t) {x : Nat} (hx : storedByte (requestOf s) x = none) :
    Memory.read t.mem x = Memory.read s.mem x := by
  rcases read_of_step_transport hi hin h x with e | e
  · exact e
  · rw [hx] at e; cases e

/-! ## Which bytes a primitive writes -/

theorem storedByte_wrReg_self (a : Nat) (b : Byte) : storedByte (some (.wrReg a, [b])) a = some b := by
  simp [storedByte]

theorem storedByte_wrReg_of_ne {a x : Nat} (h : x ≠ a) (b : Byte) : storedByte (some (.wrReg a, [b])) x = none := by
  simp only [storedByte]
  split
  next hle => exact List.getElem?_eq_none (by simp only [List.length_singleton]; omega)
  next => rfl

theorem storedByte_wrBlk_of_outside {a n x : Nat} {len : Half} {w : List Byte} (hl : w.length = n)
    (h : ¬ inBlock a n x) : storedByte (some (.wrBlk a len, w)) x = none := by
  simp only [storedByte]
  split
  next hle => exact List.getElem?_eq_none (by omega)
  next => rfl

/-- A transfer writes no byte outside its pair and, of a `TRANSMIT`, its slice. -/
theorem TransferRequest.storedByte_eq_none {i : Instr} {w : List Byte} (h : TransferRequest s i w) {x : Nat}
    (hpair : ¬ inPair s.cfg s.cmdDir s.cmdCh x) (hslice : ¬ (s.cmdDir = .tx ∧ inSlice s.lat.slice x)) :
    storedByte (some (i, w)) x = none := by
  cases h with
  | rdReg => rfl
  | rdBlk => rfl
  | wrReg b ha => exact storedByte_wrReg_of_ne (by rintro rfl; exact hpair ha) b
  | wrBlk hd hsg => exact storedByte_wrBlk_of_outside (hsg.filled hd) fun hin => hslice ⟨hd, hsg.inSlice hin⟩

/-- Settles O46: both parts hold of each primitive a transfer can have outstanding. -/
theorem transferTouchesOnlyItsPairAndItsSlice : Obligations.TransferTouchesOnlyItsPairAndItsSlice := by
  intro s v ts hi hbusy hin
  obtain ⟨i, w, hr, hrequest⟩ := exists_transferRequest hi hbusy
  refine ⟨⟨i, w, hr, ?_⟩, fun t h a hpair hslice => ?_⟩
  · cases hrequest with
    | rdReg ha => exact ha
    | wrReg b ha => exact ha
    | rdBlk hd hsg => exact ⟨hd, fun x => hsg.inSlice⟩
    | wrBlk hd hsg => exact ⟨hd, fun x => hsg.inSlice⟩
  · exact read_of_storedByte_eq_none hi hin h (hr ▸ hrequest.storedByte_eq_none hpair hslice)

/-! ## What a failure leaves -/

/-- A pointer whose two bytes are as they were is as it was. -/
theorem pointer_eq_of_read_eq (hc : t.cfg = s.cfg) {d : Dir} {k : Nat}
    (h : ∀ a, inPair s.cfg d k a → Memory.read t.mem a = Memory.read s.mem a) : t.pointer d k = s.pointer d k := by
  rw [State.pointer, State.pointer, hc, h _ (.inl rfl), h _ (.inr rfl)]

/-- The block primitive of a segment writes no pointer register (R27 (c)). -/
theorem storedByte_segment_of_inPair (hi : s.Inv) (ht : transferSound s = true) {pos : Nat} {sg : Segment}
    (hsg : SegmentReady s pos sg) {d : Dir} {k a : Nat} (hk : k < s.cfg.n) (ha : inPair s.cfg d k a) :
    storedByte (some (segmentRequest s.cmdDir s.lat.buf pos sg)) a = none := by
  obtain ⟨_, hch, hslice, _, _, hfits⟩ := transferSound_facts ht
  have hout : ¬ inSlice s.lat.slice a := hslice ▸ not_inSlice_of_inPair hi _ hch (hslice ▸ hfits) hk ha
  cases hd : s.cmdDir with
  | rx => rfl
  | tx => exact storedByte_wrBlk_of_outside (hsg.filled hd) fun hin => hout (hsg.inSlice hin)

/-- Before the write-back the outstanding primitive writes no pointer register. -/
theorem storedByte_before_writeBack (hi : s.Inv) (hph : s.ph = .rdHi ∨ s.ph = .rdLo ∨ s.ph = .seg1 ∨ s.ph = .seg2)
    {d : Dir} {k a : Nat} (hk : k < s.cfg.n) (ha : inPair s.cfg d k a) : storedByte (requestOf s) a = none := by
  rcases hph with hph | hph | hph | hph
  · rw [requestOf_of_rdHi hph]; rfl
  · rw [requestOf_of_rdLo hph]; rfl
  · obtain ⟨sg, rest, hsegs, _, hready⟩ := exists_segment_of_seg1 hi hph
    rw [requestOf_of_seg1 hph hsegs]
    exact storedByte_segment_of_inPair hi (transferSound_of_busy hi (by simp [hph])) hready hk ha
  · obtain ⟨sg, sg', hsegs, hready⟩ := exists_segments_of_seg2 hi hph
    rw [requestOf_of_seg2 hph hsegs]
    exact storedByte_segment_of_inPair hi (transferSound_of_busy hi (by simp [hph])) hready hk ha

/-- A read leaves `PMem` as it was (R51). -/
theorem mem_of_exec_rdReg {a : Nat} (h : exec (.rdReg a) s = .next t) : t.mem = s.mem := by
  rcases busRead_cases a 1 s with ⟨_, e⟩ | ⟨_, _, e⟩ | ⟨_, _, e⟩ <;> cases e.symm.trans h <;> rfl

theorem mem_of_step_rdReg {v : Verdict} {ts : List Turn} {a : Nat} {w : List Byte} (hc : s.cfg.wellFormed = true)
    (hin : s.inputs = .transport v :: ts) (hr : requestOf s = some (.rdReg a, w)) (h : step s = .next t) :
    t.mem = s.mem := by
  rw [step_of_inputs_cons hc hin] at h
  rcases transportTurn_cases h with ⟨_, rfl⟩ | ⟨i, w', u, hr', hu, rfl⟩
  · rfl
  · cases hr.symm.trans hr'
    rw [advance_mem, mem_of_exec_rdReg hu]
    rfl

/-- Settles O44: no primitive before the write-back writes a pointer register, and a register read writes nothing. -/
theorem failureBeforeWriteBackLeavesEveryPointer : Obligations.FailureBeforeWriteBackLeavesEveryPointer := by
  intro s t landed ts hi hin h hph
  refine ⟨fun d k hk => ?_, fun hread => ?_⟩
  · refine pointer_eq_of_read_eq (noStepChangesTheConfiguration s t h) fun a ha => ?_
    exact read_of_storedByte_eq_none hi hin h (storedByte_before_writeBack hi hph hk ha)
  · rcases hread with hph | hph
    · exact mem_of_step_rdReg hi.1 hin (requestOf_of_rdHi hph) h
    · exact mem_of_step_rdReg hi.1 hin (requestOf_of_rdLo hph) h

theorem hiByte_pointerOf (hi lo : Byte) : hiByte (pointerOf hi lo) = hi := by
  apply BitVec.eq_of_toNat_eq
  rw [toNat_hiByte, toNat_pointerOf]
  omega

theorem loByte_pointerOf (hi lo : Byte) : loByte (pointerOf hi lo) = lo := by
  apply BitVec.eq_of_toNat_eq
  rw [toNat_loByte, toNat_pointerOf]
  omega

/-- A register write leaves its byte old or new, and every other byte as it was, whatever the verdict. -/
theorem read_of_step_wrReg {v : Verdict} {ts : List Turn} {a : Nat} {b : Byte} (hi : s.Inv)
    (hin : s.inputs = .transport v :: ts) (hr : requestOf s = some (.wrReg a, [b])) (h : step s = .next t) :
    (Memory.read t.mem a = Memory.read s.mem a ∨ Memory.read t.mem a = b)
    ∧ ∀ x, x ≠ a → Memory.read t.mem x = Memory.read s.mem x := by
  refine ⟨(read_of_step_transport hi hin h a).imp id fun e => ?_, fun x hx => ?_⟩
  · rw [hr, storedByte_wrReg_self] at e
    exact (Option.some.inj e).symm
  · exact read_of_storedByte_eq_none hi hin h (hr ▸ storedByte_wrReg_of_ne hx b)

/-- Settles O45: the register write leaves its byte old or new and all else, so each half of the pair is old or new. -/
theorem failedWriteBackLeavesOldOrNewPointerBytes : Obligations.FailedWriteBackLeavesOldOrNewPointerBytes := by
  intro s t landed ts hi hin h
  have hcfg := noStepChangesTheConfiguration s t h
  simp only [State.pointer, hcfg, hiByte_pointerOf, loByte_pointerOf]
  refine ⟨fun hph => ?_, fun hph => ?_, fun hph a ha => ?_⟩
  · obtain ⟨hbyte, hrest⟩ := read_of_step_wrReg hi hin (requestOf_of_wrHi hph) h
    rw [hrest _ (Nat.succ_ne_self _)]
    exact hbyte.imp (fun e => by rw [e]) fun e => by rw [e]
  · obtain ⟨hbyte, hrest⟩ := read_of_step_wrReg hi hin (requestOf_of_wrLo hph) h
    rw [hrest _ (Nat.succ_ne_self _).symm]
    exact hbyte.imp (fun e => by rw [e]) fun e => by rw [e]
  · obtain ⟨hhi, hlo⟩ := not_or.mp ha
    rcases hph with hph | hph
    · exact (read_of_step_wrReg hi hin (requestOf_of_wrHi hph) h).2 a hhi
    · exact (read_of_step_wrReg hi hin (requestOf_of_wrLo hph) h).2 a hlo

end Sys2Proof.Machine

/-! PROOFS. A transfer whose primitives succeed: the next state of each busy phase (43_pointer_sync.md R127 to R130, R135), and from it the whole
sequence, the two reads of the pointer, the segments, and the two writes (R125, R131, R137). -/

namespace Sys2Proof.Machine

variable {s t : State}

/-- A state of the sequence that started in `s`: what the Transport's turns change while CBAT is busy (R135). -/
def inSequence (ph : Phase) (lat : Latches) (mem : Memory) (port : Port) (ts : List Turn) (s : State) : State :=
  { s with ph := ph, lat := lat, mem := mem, port := port, inputs := ts }

/-! ## One primitive answered ok -/

section

variable {ts : List Turn} (hc : s.cfg.wellFormed = true) (hin : s.inputs = .transport .ok :: ts)

include hc hin

/-- CBAT's outstanding `RD_REG` answered ok: it takes the byte. -/
theorem exists_step_ok_rdReg {a : Nat} (hr : requestOf s = some (.rdReg a, [])) (ha : a < s.cfg.pmemSize) :
    ∃ port, step s = .next (advanceOk [Memory.read s.mem a] (inSequence s.ph s.lat s.mem port ts s)) := by
  rw [step_of_inputs_cons hc hin]
  exact exists_transportTurn_ok_rdReg (s := { s with inputs := ts }) hr ha

/-- CBAT's outstanding `WR_REG` answered ok: the byte is stored. -/
theorem exists_step_ok_wrReg {a : Nat} {b : Byte} (hr : requestOf s = some (.wrReg a, [b])) (ha : a < s.cfg.pmemSize) :
    ∃ port, step s = .next (advanceOk [] (inSequence s.ph s.lat (Memory.write s.mem a b) port ts s)) := by
  have hwrite := busWrite_of_ok (s := putOnPort [b] .ok { s with inputs := ts }) (n := 1) rfl ha rfl
  refine ⟨_, (stepRunsTheOutstandingPrimitive s _ ts _ _ hc hin hr).trans (congrArg (mapNext advance) hwrite)⟩

end

/-- `PMem` after the block primitive of a segment: a `TRANSMIT` has stored the bytes of the buffer at `pos` (R128). -/
def storeSegment (d : Dir) (buf : List Byte) (pos : Nat) (sg : Segment) (m : Memory) : Memory :=
  match d with
  | .rx => m
  | .tx => Memory.writeBlock m sg.addr (bufRange buf pos sg.len.toNat)

/-- The bytes the block primitive of a segment replies (R79): those of the block read for `RECEIVE`. -/
def segmentReply (d : Dir) (sg : Segment) (m : Memory) : List Byte :=
  match d with
  | .rx => Memory.readBlock m sg.addr sg.len.toNat
  | .tx => []

section

variable {d : Dir} {buf : List Byte} {pos : Nat} {sg : Segment} {m : Memory}

theorem storeSegment_of_rx (hd : d = .rx) : storeSegment d buf pos sg m = m := by
  rw [hd]
  rfl

theorem storeSegment_of_tx (hd : d = .tx) :
    storeSegment d buf pos sg m = Memory.writeBlock m sg.addr (bufRange buf pos sg.len.toNat) := by
  rw [hd]
  rfl

theorem bufAfter_of_rx (hd : d = .rx) :
    bufAfter d buf (segmentReply d sg m) = buf ++ Memory.readBlock m sg.addr sg.len.toNat := by
  rw [hd]
  rfl

theorem bufAfter_of_tx (hd : d = .tx) (data : List Byte) : bufAfter d buf data = buf := by
  rw [hd]
  rfl

end

/-- CBAT's outstanding block primitive answered ok: it takes the bytes read, or the bytes are stored. -/
theorem exists_step_ok_segment {ts : List Turn} {pos : Nat} {sg : Segment} (hi : s.Inv) (hbusy : s.ph ≠ .idle)
    (hin : s.inputs = .transport .ok :: ts) (hr : requestOf s = some (segmentRequest s.cmdDir s.lat.buf pos sg))
    (hsg : SegmentReady s pos sg) :
    ∃ port, step s = .next (advanceOk (segmentReply s.cmdDir sg s.mem)
      (inSequence s.ph s.lat (storeSegment s.cmdDir s.lat.buf pos sg s.mem) port ts s)) := by
  have ha := hsg.below.trans (latched_slice_inside hi (transferSound_of_busy hi hbusy))
  cases hd : s.cmdDir with
  | rx =>
    have hread := busRead_of_ok (s := putOnPort [] .ok { s with inputs := ts }) ha rfl
    rw [hd] at hr
    exact ⟨_, (stepRunsTheOutstandingPrimitive s _ ts _ _ hi.1 hin hr).trans (congrArg (mapNext advance) hread)⟩
  | tx =>
    have hwrite := busWrite_of_ok (s := putOnPort (bufRange s.lat.buf pos sg.len.toNat) .ok { s with inputs := ts })
      (hsg.filled hd) ha rfl
    rw [hd] at hr
    exact ⟨_, (stepRunsTheOutstandingPrimitive s _ ts _ _ hi.1 hin hr).trans (congrArg (mapNext advance) hwrite)⟩

/-! ## The next state of each phase -/

/-- The pointer that the byte read in `RD_LO` completes (R127). -/
def State.completedPointer (s : State) : Half :=
  pointerOf s.lat.hi (Memory.read s.mem (s.cfg.ptrReg s.cmdDir s.cmdCh + 1))

/-- The buffer is empty while a `RECEIVE` reads its first segment (R25). -/
theorem buf_eq_nil_of_seg1 (hi : s.Inv) (hph : s.ph = .seg1) (hd : s.cmdDir = .rx) : s.lat.buf = [] := by
  have hflight := flightSound_of_inv hi
  simp only [flightSound, hph, bufSound, hd, Bool.and_eq_true, beq_iff_eq] at hflight
  exact List.length_eq_zero_iff.mp hflight.2

/-- The pair of the command in progress lies in `PMem`. -/
theorem ptrReg_inside_of_busy (hi : s.Inv) (hbusy : s.ph ≠ .idle) :
    s.cfg.ptrReg s.cmdDir s.cmdCh + 1 < s.cfg.pmemSize :=
  lt_pmemSize_of_inPair hi (transferSound_of_busy hi hbusy) (.inr rfl)

section

variable {ts : List Turn} (hi : s.Inv) (hin : s.inputs = .transport .ok :: ts)

include hi hin

/-- `RD_HI` answered ok: the high byte is latched (R127). -/
theorem exists_step_ok_of_rdHi (hph : s.ph = .rdHi) :
    ∃ port, step s = .next (inSequence .rdLo
      { s.lat with hi := Memory.read s.mem (s.cfg.ptrReg s.cmdDir s.cmdCh) } s.mem port ts s) := by
  obtain ⟨port, h⟩ := exists_step_ok_rdReg hi.1 hin (requestOf_of_rdHi hph)
    (Nat.lt_of_succ_lt (ptrReg_inside_of_busy hi (by simp [hph])))
  refine ⟨port, ?_⟩
  rw [h, hph]
  rfl

/-- `RD_LO` answered ok: the pointer is complete and the transfer planned (R127). -/
theorem exists_step_ok_of_rdLo (hph : s.ph = .rdLo) :
    ∃ port, step s = .next (inSequence .seg1
      { s.lat with p := s.completedPointer,
                   segs := splitSegments s.lat.slice (offsetOf s.lat.slice s.completedPointer) s.cmdLen }
      s.mem port ts s) := by
  have hbusy : s.ph ≠ .idle := by simp [hph]
  obtain ⟨_, _, _, hnonzero, hwithin, _⟩ := transferSound_facts (transferSound_of_busy hi hbusy)
  have hplan : planSegments s.lat.slice s.completedPointer s.cmdLen
      = .ok (splitSegments s.lat.slice (offsetOf s.lat.slice s.completedPointer) s.cmdLen) :=
    planSegments_ok_iff.mpr (.inr ⟨hnonzero, hwithin, rfl⟩)
  obtain ⟨port, h⟩ := exists_step_ok_rdReg hi.1 hin (requestOf_of_rdLo hph) (ptrReg_inside_of_busy hi hbusy)
  refine ⟨port, ?_⟩
  simp only [h, hph, advanceOk, inSequence, List.headD_cons, State.completedPointer, State.cmdLen] at hplan ⊢
  rw [hplan]
  rfl

/-- `SEG1` answered ok: the second segment follows, or the write-back (R128). -/
theorem exists_step_ok_of_seg1 (hph : s.ph = .seg1) {sg : Segment} {rest : List Segment}
    (hsegs : s.lat.segs = sg :: rest) :
    ∃ port, step s = .next (inSequence (if rest = [] then .wrHi else .seg2)
      { s.lat with buf := bufAfter s.cmdDir s.lat.buf (segmentReply s.cmdDir sg s.mem) }
      (storeSegment s.cmdDir s.lat.buf 0 sg s.mem) port ts s) := by
  obtain ⟨sg₁, rest₁, hsegs₁, hone, hready⟩ := exists_segment_of_seg1 hi hph
  obtain ⟨rfl, rfl⟩ := List.cons.inj (hsegs₁.symm.trans hsegs)
  obtain ⟨port, h⟩ := exists_step_ok_segment hi (by simp [hph]) hin (requestOf_of_seg1 hph hsegs) hready
  have hnext : (if s.lat.segs.length = 2 then Phase.seg2 else .wrHi) = if rest₁ = [] then .wrHi else .seg2 := by
    rw [hsegs]
    match rest₁, hone with
    | [], _ => rfl
    | [_], _ => rfl
  refine ⟨port, ?_⟩
  rw [h, hph, ← hnext]
  rfl

/-- `SEG2` answered ok: the write-back follows (R128). -/
theorem exists_step_ok_of_seg2 (hph : s.ph = .seg2) {sg sg' : Segment} (hsegs : s.lat.segs = [sg, sg']) :
    ∃ port, step s = .next (inSequence .wrHi
      { s.lat with buf := bufAfter s.cmdDir s.lat.buf (segmentReply s.cmdDir sg' s.mem) }
      (storeSegment s.cmdDir s.lat.buf sg.len.toNat sg' s.mem) port ts s) := by
  obtain ⟨sg₁, sg₂, hsegs₁, hready⟩ := exists_segments_of_seg2 hi hph
  cases hsegs₁.symm.trans hsegs
  obtain ⟨port, h⟩ := exists_step_ok_segment hi (by simp [hph]) hin (requestOf_of_seg2 hph hsegs) hready
  refine ⟨port, ?_⟩
  rw [h, hph]
  rfl

/-- `WR_HI` answered ok: the new high byte is stored (R130). -/
theorem exists_step_ok_of_wrHi (hph : s.ph = .wrHi) :
    ∃ port, step s = .next (inSequence .wrLo s.lat
      (Memory.write s.mem (s.cfg.ptrReg s.cmdDir s.cmdCh) (hiByte (s.lat.p + s.cmdLen))) port ts s) := by
  obtain ⟨port, h⟩ := exists_step_ok_wrReg hi.1 hin (requestOf_of_wrHi hph)
    (Nat.lt_of_succ_lt (ptrReg_inside_of_busy hi (by simp [hph])))
  refine ⟨port, ?_⟩
  rw [h, hph]
  rfl

/-- `WR_LO` answered ok: the new low byte is stored and the operation ends (R130, R135). -/
theorem exists_step_ok_of_wrLo (hph : s.ph = .wrLo) :
    ∃ port, step s = .next (finish (doneResponse s.cmdDir s.lat.buf) (inSequence .wrLo s.lat
      (Memory.write s.mem (s.cfg.ptrReg s.cmdDir s.cmdCh + 1) (loByte (s.lat.p + s.cmdLen))) port ts s)) := by
  obtain ⟨port, h⟩ := exists_step_ok_wrReg hi.1 hin (requestOf_of_wrLo hph) (ptrReg_inside_of_busy hi (by simp [hph]))
  refine ⟨port, ?_⟩
  rw [h, hph]
  rfl

end

theorem doneResponse_eq_ite (d : Dir) (buf : List Byte) :
    doneResponse d buf = if d = .rx then Response.ofData buf else Response.done := by
  cases d <;> rfl

/-- Settles O40: each row of the table is the next state of its phase. -/
theorem sequencerFollowsTheTransitionTable : Obligations.SequencerFollowsTheTransitionTable := by
  intro s ts hi hin
  refine ⟨fun hph => ?rdHi, fun hph => ?rdLo, fun hph => ?seg1, fun hph => ?seg2, fun hph => ?wrHi, fun hph => ?wrLo⟩
  case rdHi =>
    obtain ⟨port, h⟩ := exists_step_ok_of_rdHi hi hin hph
    exact ⟨requestOf_of_rdHi hph, _, h, rfl, rfl, rfl⟩
  case rdLo =>
    obtain ⟨port, h⟩ := exists_step_ok_of_rdLo hi hin hph
    exact ⟨requestOf_of_rdLo hph, _, h, rfl, rfl, rfl, rfl, rfl, rfl⟩
  case seg1 =>
    obtain ⟨sg, rest, hsegs, _, _⟩ := exists_segment_of_seg1 hi hph
    obtain ⟨port, h⟩ := exists_step_ok_of_seg1 hi hin hph hsegs
    refine ⟨sg, rest, hsegs, requestOf_of_seg1 hph hsegs, _, h, rfl, rfl, fun hd => ⟨storeSegment_of_rx hd, ?_⟩,
      fun hd => ⟨storeSegment_of_tx hd, bufAfter_of_tx hd _⟩⟩
    exact (bufAfter_of_rx hd).trans (congrArg (· ++ _) (buf_eq_nil_of_seg1 hi hph hd))
  case seg2 =>
    obtain ⟨sg, sg', hsegs, _⟩ := exists_segments_of_seg2 hi hph
    obtain ⟨port, h⟩ := exists_step_ok_of_seg2 hi hin hph hsegs
    exact ⟨sg, sg', hsegs, requestOf_of_seg2 hph hsegs, _, h, rfl, rfl,
      fun hd => ⟨storeSegment_of_rx hd, bufAfter_of_rx hd⟩, fun hd => ⟨storeSegment_of_tx hd, bufAfter_of_tx hd _⟩⟩
  case wrHi =>
    obtain ⟨port, h⟩ := exists_step_ok_of_wrHi hi hin hph
    exact ⟨requestOf_of_wrHi hph, _, h, rfl, rfl, rfl⟩
  case wrLo =>
    obtain ⟨port, h⟩ := exists_step_ok_of_wrLo hi hin hph
    exact ⟨requestOf_of_wrLo hph, _, h, finish_ph _ _, finish_mem _ _, doneResponse_eq_ite _ _⟩

end Sys2Proof.Machine

/-! PROOFS. A whole transfer on an undisturbed bus (43_pointer_sync.md R125, R131, R137): runs and the primitives they perform, the three parts of the
sequence, and what they leave in `PMem` and in the response. -/

namespace Sys2Proof.Machine

variable {s t u : State}

/-! ## Runs and their primitives -/

/-- A run of `k` steps answers `t`, and CBAT's primitives performed in it are `requests`. -/
structure RunsTo (k : Nat) (s : State) (requests : List (Instr × List Byte)) (t : State) : Prop where
  run        : runSteps k s = .next t
  primitives : primitivesOf k s = requests

theorem primitivesOf_succ_of_next {k : Nat} (h : step s = .next t) :
    primitivesOf (k + 1) s = primitivesOf 1 s ++ primitivesOf k t := by
  simp [primitivesOf, h]

/-- A run and a run from where it ends are one run. -/
theorem RunsTo.trans {j k : Nat} {rs rs' : List (Instr × List Byte)} (h : RunsTo j s rs u) (h' : RunsTo k u rs' t) :
    RunsTo (j + k) s (rs ++ rs') t := by
  obtain ⟨hrun, rfl⟩ := h
  induction j generalizing s with
  | zero =>
    cases hrun
    rwa [Nat.zero_add]
  | succ j ih =>
    obtain ⟨v, hstep, hrun⟩ := exists_step_of_runSteps_succ hrun
    obtain ⟨hwhole, hprimitives⟩ := ih hrun
    rw [Nat.succ_add]
    refine ⟨(runSteps_succ_of_next hstep).trans hwhole, ?_⟩
    rw [primitivesOf_succ_of_next hstep, hprimitives, primitivesOf_succ_of_next (k := j) hstep, List.append_assoc]

/-- A run from a sound state ends in one. -/
theorem RunsTo.inv {k : Nat} {rs : List (Instr × List Byte)} (h : RunsTo k s rs t) (hi : s.Inv) : t.Inv := by
  obtain ⟨hrun, -⟩ := h
  induction k generalizing s with
  | zero =>
    cases hrun
    exact hi
  | succ k ih =>
    obtain ⟨u, hstep, hrun⟩ := exists_step_of_runSteps_succ hrun
    exact ih (everyStepKeepsTheInvariant s u hi hstep) hrun

/-- CBAT's turn performs no primitive. -/
theorem runsTo_of_cbat {ts : List Turn} (hin : s.inputs = .cbat :: ts) (h : step s = .next t) : RunsTo 1 s [] t :=
  ⟨runSteps_succ_of_next h, by simp [primitivesOf, hin, h]⟩

/-- The Transport's turn performs the primitive outstanding. -/
theorem runsTo_of_transport {v : Verdict} {r : Instr × List Byte} {ts : List Turn} (hin : s.inputs = .transport v :: ts)
    (hr : requestOf s = some r) (h : step s = .next t) : RunsTo 1 s [r] t :=
  ⟨runSteps_succ_of_next h, by simp [primitivesOf, hin, h, hr]⟩

/-! ## The pointer pair -/

/-- The two reads of the pointer (R127). -/
def pointerReads (a : Nat) : List (Instr × List Byte) := [(.rdReg a, []), (.rdReg (a + 1), [])]

/-- The write-back of the pointer, high byte first (R130). -/
def pointerWrites (a : Nat) (v : Half) : List (Instr × List Byte) :=
  [(.wrReg a, [hiByte v]), (.wrReg (a + 1), [loByte v])]

/-- `PMem` after the write-back. -/
def Memory.writePointer (m : Memory) (a : Nat) (v : Half) : Memory :=
  Memory.write (Memory.write m a (hiByte v)) (a + 1) (loByte v)

theorem Memory.read_writePointer_of_ne {m : Memory} (hm : Memory.wf m = true) {a x : Nat} (hhi : x ≠ a)
    (hlo : x ≠ a + 1) (v : Half) : Memory.read (Memory.writePointer m a v) x = Memory.read m x := by
  rw [Memory.writePointer, Memory.read_write (Memory.wf_write hm _ _), if_neg hlo.symm, Memory.read_write hm,
    if_neg hhi.symm]

/-- The pair reads back as the pointer written. -/
theorem pointerOf_writePointer {m : Memory} (hm : Memory.wf m = true) (a : Nat) (v : Half) :
    pointerOf (Memory.read (Memory.writePointer m a v) a) (Memory.read (Memory.writePointer m a v) (a + 1)) = v := by
  rw [Memory.writePointer, Memory.read_write (Memory.wf_write hm _ _), Memory.read_write (Memory.wf_write hm _ _),
    if_neg (Nat.succ_ne_self a), if_pos rfl, Memory.read_write hm, if_pos rfl, pointerOf_hiByte_loByte]

/-- From `RD_HI`, two reads complete the pointer, and the transfer is planned with it (R127). -/
theorem exists_runsTo_reads {ts : List Turn} (hi : s.Inv) (hph : s.ph = .rdHi) (hin : s.inputs = okTurns 2 ++ ts)
    {p : Half} (hp : s.pointer s.cmdDir s.cmdCh = p) :
    ∃ high port, RunsTo 2 s (pointerReads (s.cfg.ptrReg s.cmdDir s.cmdCh)) (inSequence .seg1
      { s.lat with hi := high, p := p, segs := splitSegments s.lat.slice (offsetOf s.lat.slice p) s.cmdLen }
      s.mem port ts s) := by
  subst hp
  obtain ⟨port₁, h₁⟩ := exists_step_ok_of_rdHi hi hin hph
  obtain ⟨port₂, h₂⟩ := exists_step_ok_of_rdLo (everyStepKeepsTheInvariant _ _ hi h₁) rfl rfl
  exact ⟨_, port₂,
    (runsTo_of_transport hin (requestOf_of_rdHi hph) h₁).trans (runsTo_of_transport rfl (requestOf_of_rdLo rfl) h₂)⟩

/-- From `WR_HI`, two writes store the advanced pointer, and the operation ends (R130, R135). -/
theorem exists_runsTo_writes {ts : List Turn} (hi : s.Inv) (hph : s.ph = .wrHi) (hin : s.inputs = okTurns 2 ++ ts) :
    ∃ port, RunsTo 2 s (pointerWrites (s.cfg.ptrReg s.cmdDir s.cmdCh) (s.lat.p + s.cmdLen))
      (finish (doneResponse s.cmdDir s.lat.buf) (inSequence .wrLo s.lat
        (Memory.writePointer s.mem (s.cfg.ptrReg s.cmdDir s.cmdCh) (s.lat.p + s.cmdLen)) port ts s)) := by
  obtain ⟨port₁, h₁⟩ := exists_step_ok_of_wrHi hi hin hph
  obtain ⟨port₂, h₂⟩ := exists_step_ok_of_wrLo (everyStepKeepsTheInvariant _ _ hi h₁) rfl rfl
  exact ⟨port₂,
    (runsTo_of_transport hin (requestOf_of_wrHi hph) h₁).trans (runsTo_of_transport rfl (requestOf_of_wrLo rfl) h₂)⟩

/-! ## The segments -/

/-- `PMem` after the block primitives of a plan, in its order (R128). -/
def storePlan (d : Dir) (buf : List Byte) (pos : Nat) : List Segment → Memory → Memory
  | [], m => m
  | sg :: segs, m => storePlan d buf (pos + sg.len.toNat) segs (storeSegment d buf pos sg m)

theorem storePlan_rx (buf : List Byte) (pos : Nat) (segs : List Segment) (m : Memory) :
    storePlan .rx buf pos segs m = m := by
  induction segs generalizing pos with
  | nil => rfl
  | cons sg segs ih => exact ih _

theorem wf_storePlan {m : Memory} (hm : Memory.wf m = true) (d : Dir) (buf : List Byte) (pos : Nat)
    (segs : List Segment) : Memory.wf (storePlan d buf pos segs m) = true := by
  induction segs generalizing pos m with
  | nil => exact hm
  | cons sg segs ih =>
    cases d with
    | rx => exact ih hm _
    | tx => exact ih (Memory.wf_writeBlock hm _ _) _

/-- The block writes of a plan leave `PMem` so. -/
theorem exists_performAll_storePlan {segs : List Segment} {buf : List Byte} {pos : Nat} (hin : segmentsInside s.cfg segs)
    (hbuf : buf.length = pos + (planAddresses segs).length) :
    ∃ t, performAll (blockRequests .tx buf pos segs) s = .next (t, []) ∧ t.mem = storePlan .tx buf pos segs s.mem := by
  induction segs generalizing s pos with
  | nil => exact ⟨s, rfl, rfl⟩
  | cons sg segs ih =>
    obtain ⟨hsg, hsegs⟩ := segmentsInside_cons.mp hin
    rw [planAddresses_cons, List.length_append, Segment.length_addresses] at hbuf
    have hlen : (bufRange buf pos sg.len.toNat).length = sg.len.toNat := by
      rw [bufRange, List.length_take, List.length_drop]
      omega
    obtain ⟨u, hwrite, hcfg, hmem, hreply⟩ := exists_wrBlk_ok hlen hsg
    obtain ⟨t, hrun, hstored⟩ := ih (s := u) (pos := pos + sg.len.toNat) (hcfg ▸ hsegs) (by omega)
    exact ⟨t, performAll_cons hwrite hreply hrun, hstored.trans (by rw [hmem]; rfl)⟩

/-- A `TRANSMIT` leaves its buffer in the bytes of the plan, in its order, and every other byte as it was. -/
theorem storePlan_tx {segs : List Segment} {buf : List Byte} (hm : Memory.wf s.mem = true)
    (hin : segmentsInside s.cfg segs) (hnodup : (planAddresses segs).Nodup)
    (hbuf : buf.length = (planAddresses segs).length) :
    (planAddresses segs).map (Memory.read (storePlan .tx buf 0 segs s.mem)) = buf
    ∧ ∀ a ∉ planAddresses segs, Memory.read (storePlan .tx buf 0 segs s.mem) a = Memory.read s.mem a := by
  have hbuf' : buf.length = 0 + (planAddresses segs).length := by rw [hbuf, Nat.zero_add]
  obtain ⟨t, hrun, hmem⟩ := exists_performAll_storePlan hin hbuf'
  obtain ⟨t', hrun', hplan, hframe⟩ := exists_performAll_writes hm hin hnodup hbuf'
  cases hrun.symm.trans hrun'
  exact hmem ▸ ⟨hplan, hframe⟩

/-- The block reads of a plan. -/
theorem blockRequests_rx (buf : List Byte) (pos : Nat) (segs : List Segment) :
    blockRequests .rx buf pos segs = segs.map fun sg => (Instr.rdBlk sg.addr sg.len, []) := by
  induction segs generalizing pos with
  | nil => rfl
  | cons sg segs ih => exact congrArg _ (ih _)

section

variable (d : Dir) (buf : List Byte)

/-- A `RECEIVE` takes the bytes of its one segment (R128). -/
theorem bufAfter_plan_one (sg : Segment) (m : Memory) :
    bufAfter d buf (segmentReply d sg m) = bufAfter d buf ((planAddresses [sg]).map (Memory.read m)) := by
  rw [planAddresses, List.flatMap_singleton, Segment.addresses, ← Memory.readBlock_eq_map]
  cases d <;> rfl

/-- A `RECEIVE` takes the bytes of its two segments, in segment order (R128). -/
theorem bufAfter_plan_two (pos : Nat) (sg sg' : Segment) (m : Memory) :
    bufAfter d (bufAfter d buf (segmentReply d sg m)) (segmentReply d sg' (storeSegment d buf pos sg m))
      = bufAfter d buf ((planAddresses [sg, sg']).map (Memory.read m)) := by
  rw [planAddresses_cons, List.map_append, Segment.addresses, ← Memory.readBlock_eq_map, planAddresses,
    List.flatMap_singleton, Segment.addresses, ← Memory.readBlock_eq_map]
  cases d with
  | rx => exact List.append_assoc _ _ _
  | tx => rfl

/-- The second block primitive is that of the plan: a `TRANSMIT` has its whole buffer from the start, and a `RECEIVE` reads
without it. -/
theorem blockRequests_two (data : List Byte) (sg sg' : Segment) :
    blockRequests d buf 0 [sg, sg']
      = [segmentRequest d buf 0 sg, segmentRequest d (bufAfter d buf data) sg.len.toNat sg'] := by
  rw [blockRequests, blockRequests, blockRequests, Nat.zero_add]
  cases d <;> rfl

theorem storePlan_two (data : List Byte) (sg sg' : Segment) (m : Memory) :
    storePlan d buf 0 [sg, sg'] m
      = storeSegment d (bufAfter d buf data) sg.len.toNat sg' (storeSegment d buf 0 sg m) := by
  rw [storePlan, storePlan, storePlan, Nat.zero_add]
  cases d <;> rfl

end

/-- From `SEG1`, the block primitives of the plan move its bytes, in its order (R128). -/
theorem exists_runsTo_segments {ts : List Turn} {segs : List Segment} (hi : s.Inv) (hph : s.ph = .seg1)
    (hsegs : s.lat.segs = segs) (hin : s.inputs = okTurns segs.length ++ ts) :
    ∃ port, RunsTo segs.length s (blockRequests s.cmdDir s.lat.buf 0 segs) (inSequence .wrHi
      { s.lat with buf := bufAfter s.cmdDir s.lat.buf ((planAddresses segs).map (Memory.read s.mem)) }
      (storePlan s.cmdDir s.lat.buf 0 segs s.mem) port ts s) := by
  obtain ⟨sg, rest, hrest, hone, _⟩ := exists_segment_of_seg1 hi hph
  obtain rfl := hsegs.symm.trans hrest
  have hfirst := requestOf_of_seg1 hph hsegs
  match rest, hone with
  | [], _ =>
    obtain ⟨port, h⟩ := exists_step_ok_of_seg1 hi hin hph hsegs
    rw [if_pos rfl, bufAfter_plan_one] at h
    exact ⟨port, runsTo_of_transport hin hfirst h⟩
  | [sg'], _ =>
    obtain ⟨port₁, h₁⟩ := exists_step_ok_of_seg1 hi hin hph hsegs
    rw [if_neg (by simp)] at h₁
    obtain ⟨port₂, h₂⟩ := exists_step_ok_of_seg2 (everyStepKeepsTheInvariant _ _ hi h₁) rfl rfl hsegs
    refine ⟨port₂, ?_⟩
    rw [← bufAfter_plan_two (pos := 0), blockRequests_two _ _ (segmentReply s.cmdDir sg s.mem),
      storePlan_two _ _ (segmentReply s.cmdDir sg s.mem)]
    exact (runsTo_of_transport hin hfirst h₁).trans (runsTo_of_transport rfl (requestOf_of_seg2 rfl hsegs) h₂)

/-! ## The whole sequence -/

/-- From `RD_HI`, `4 + nseg` primitives answered ok move the bytes of the plan, advance the pointer and end the operation. -/
theorem exists_runsTo_sequence {ts : List Turn} {p : Half} {segs : List Segment} (hi : s.Inv) (hph : s.ph = .rdHi)
    (hp : s.pointer s.cmdDir s.cmdCh = p)
    (hsegs : splitSegments s.lat.slice (offsetOf s.lat.slice p) s.cmdLen = segs)
    (hin : s.inputs = okTurns (4 + segs.length) ++ ts) :
    ∃ lat port, RunsTo (4 + segs.length) s
      (pointerReads (s.cfg.ptrReg s.cmdDir s.cmdCh) ++ blockRequests s.cmdDir s.lat.buf 0 segs
        ++ pointerWrites (s.cfg.ptrReg s.cmdDir s.cmdCh) (p + s.cmdLen))
      (finish (doneResponse s.cmdDir (bufAfter s.cmdDir s.lat.buf ((planAddresses segs).map (Memory.read s.mem))))
        (inSequence .wrLo lat
          (Memory.writePointer (storePlan s.cmdDir s.lat.buf 0 segs s.mem) (s.cfg.ptrReg s.cmdDir s.cmdCh) (p + s.cmdLen))
          port ts s)) := by
  have hcount : 4 + segs.length = 2 + segs.length + 2 := by omega
  have hturns : s.inputs = okTurns 2 ++ (okTurns segs.length ++ (okTurns 2 ++ ts)) := by
    rw [hin, hcount, okTurns, ← List.replicate_append_replicate, ← List.replicate_append_replicate, List.append_assoc,
      List.append_assoc]
    rfl
  obtain ⟨high, port₁, hreads⟩ := exists_runsTo_reads hi hph hturns hp
  obtain ⟨port₂, hmoves⟩ := exists_runsTo_segments (hreads.inv hi) rfl hsegs rfl
  obtain ⟨port₃, hwrites⟩ := exists_runsTo_writes ((hreads.trans hmoves).inv hi) rfl rfl
  rw [hcount]
  exact ⟨_, port₃, (hreads.trans hmoves).trans hwrites⟩

/-- The state that CBAT's turn leaves in `IDLE` for a transfer that passes the checks (R126, R135). -/
def started (d : Dir) (ch : Chan) (c : Presented) (rest : List Presented) (ts : List Turn) (s : State) : State :=
  startTransfer (s.pt.entry d ch.toNat) (startBuffer d c.pay)
    (latchCommand c { s with pending := rest, inputs := ts })

theorem step_eq_started {d : Dir} {ch : Chan} {len : Half} {c : Presented} {rest : List Presented} {ts : List Turn}
    (hc : s.cfg.wellFormed = true) (hidle : s.ph = .idle) (hq : s.pending = c :: rest)
    (hd : decodeCommand c.word = .ok (transferInstr d ch len)) (hp : PassesChecks d ch len s)
    (hin : s.inputs = .cbat :: ts) : step s = .next (started d ch c rest ts s) := by
  rw [step_eq_accept hc hidle hq (.inl hin), accept, hd]
  dsimp only
  rw [exec_transferInstr]
  exact beginTransfer_of_passesChecks ⟨hp.known, hp.nonzero, hp.within, hp.fits⟩

/-- A whole transfer, from the oldest command held off to the response, on an undisturbed bus. -/
theorem exists_runsTo_transfer {d : Dir} {ch : Chan} {len : Half} {c : Presented} {rest : List Presented}
    {ts : List Turn} {segs : List Segment} (hi : s.Inv) (hidle : s.ph = .idle) (hq : s.pending = c :: rest)
    (hd : decodeCommand c.word = .ok (transferInstr d ch len)) (hp : PassesChecks d ch len s)
    (hsegs : splitSegments (s.pt.entry d ch.toNat) (offsetOf (s.pt.entry d ch.toNat) (s.pointer d ch.toNat)) len = segs)
    (hin : s.inputs = .cbat :: (okTurns (4 + segs.length) ++ ts)) :
    ∃ lat port, RunsTo (1 + (4 + segs.length)) s
      (pointerReads (s.cfg.ptrReg d ch.toNat) ++ blockRequests d (startBuffer d c.pay) 0 segs
        ++ pointerWrites (s.cfg.ptrReg d ch.toNat) (s.pointer d ch.toNat + len))
      (finish (doneResponse d (bufAfter d (startBuffer d c.pay) ((planAddresses segs).map (Memory.read s.mem))))
        (inSequence .wrLo lat
          (Memory.writePointer (storePlan d (startBuffer d c.pay) 0 segs s.mem) (s.cfg.ptrReg d ch.toNat)
            (s.pointer d ch.toNat + len))
          port ts (started d ch c rest ts s))) := by
  have hstart := step_eq_started hi.1 hidle hq hd hp hin
  obtain ⟨rfl, rfl, rfl⟩ := fields_of_decode_transfer hd
  obtain ⟨lat, port, hrun⟩ := exists_runsTo_sequence (everyStepKeepsTheInvariant _ _ hi hstart) rfl rfl hsegs rfl
  exact ⟨lat, port, (runsTo_of_cbat hin hstart).trans hrun⟩

/-! ## The statements -/

/-- The pointer after the write-back is the one written. -/
theorem pointer_of_writePointer {m : Memory} {d : Dir} {k : Nat} {v : Half} (hm : Memory.wf m = true) (hcfg : t.cfg = s.cfg)
    (hmem : t.mem = Memory.writePointer m (s.cfg.ptrReg d k) v) : t.pointer d k = v := by
  rw [State.pointer, hmem, hcfg]
  exact pointerOf_writePointer hm _ v

/-- Settles O41: a `RECEIVE` stores nothing but the pointer, and its reply is the bytes of the plan. -/
theorem wholeReceiveMovesTheBytesAndAdvancesThePointer : Obligations.WholeReceiveMovesTheBytesAndAdvancesThePointer := by
  intro s w ch len pay rest ts n hi hidle hq hd hch hnonzero hwithin hfits hn hin
  subst hn
  have hwf := wf_mem_of_inv hi
  have hdata := planAddresses_eq_map (entry_isSliceSize hi .rx hch)
    (planSegments_ok_iff.mpr (.inr ⟨hnonzero, hwithin, rfl⟩) : planSegments _ (s.pointer .rx ch.toNat) len = .ok _)
  obtain ⟨lat, port, hrun, hprimitives⟩ := exists_runsTo_transfer (d := .rx) hi hidle hq hd
    ⟨unknownChannel_eq_false hch, hnonzero, hwithin, hfits⟩ rfl hin
  rw [storePlan_rx] at hrun
  rw [blockRequests_rx] at hprimitives
  refine ⟨_, hrun, finish_ph _ _, finish_pending _ _, finish_inputs _ _, finish_pt _ _, finish_cfg _ _, ?response,
    pointer_of_writePointer hwf (finish_cfg _ _) (finish_mem _ _), fun a ha => ?frame, hprimitives⟩
  case response =>
    rw [finish_rsp, hdata, List.map_map]
    rfl
  case frame =>
    obtain ⟨hhi, hlo⟩ := not_or.mp ha
    rw [finish_mem]
    exact Memory.read_writePointer_of_ne hwf hhi hlo _

/-- A byte of a transfer on a slice that fits is no byte of a pointer pair (R27 (c)). -/
theorem not_inPair_byteAddr (hi : s.Inv) {d : Dir} {k : Nat} (hk : k < s.cfg.n)
    (hf : sliceFits s.cfg d (s.pt.entry d k) = true) (p : Half) (i : Nat) :
    ¬ inPair s.cfg d k (byteAddr (s.pt.entry d k) p i) := fun ha =>
  not_inSlice_of_inPair hi d hk hf hk ha (translatedAddressLiesInTheSlice _ _ (entry_isSliceSize hi d hk))

/-- The payload held off with a `TRANSMIT` has the length of its word (R75, D28). -/
theorem pay_length_of_pending (hi : s.Inv) {w : Command} {pay : List Byte} {rest : List Presented} {ch : Chan} {len : Half}
    (hq : s.pending = ⟨w, pay⟩ :: rest) (hd : decodeCommand w = .ok (.transmit ch len)) : pay.length = len.toNat := by
  obtain ⟨_, _, _, _, hheld⟩ := hi
  rw [hq, List.all_cons, Bool.and_eq_true] at hheld
  have hlength : pay.length = Command.payloadLength w := beq_iff_eq.mp hheld.1
  rw [hlength, Command.payloadLength, hd]
  rfl

/-- Settles O42: a `TRANSMIT` stores its payload in the bytes of the plan, which the write-back of the pointer does not touch. -/
theorem wholeTransmitMovesTheBytesAndAdvancesThePointer :
    Obligations.WholeTransmitMovesTheBytesAndAdvancesThePointer := by
  intro s w ch len pay rest ts n hi hidle hq hd hch hnonzero hwithin hfits hn hin
  subst hn
  have hwf := wf_mem_of_inv hi
  have hsize := entry_isSliceSize hi .tx hch
  have hplan : planSegments _ (s.pointer .tx ch.toNat) len = .ok _ := planSegments_ok_iff.mpr (.inr ⟨hnonzero, hwithin, rfl⟩)
  have hdata := planAddresses_eq_map hsize hplan
  obtain ⟨hslice, hnodup, hlength⟩ := planSegments_addresses hsize hplan
  obtain ⟨hstored, hkept⟩ := storePlan_tx (buf := pay) hwf
    (fun sg hsg => (hslice sg hsg).trans (fits_facts hi .tx hch hfits).2.2) hnodup
    ((pay_length_of_pending hi hq hd).trans hlength.symm)
  obtain ⟨lat, port, hrun, hprimitives⟩ := exists_runsTo_transfer (d := .tx) hi hidle hq hd
    ⟨unknownChannel_eq_false hch, hnonzero, hwithin, hfits⟩ rfl hin
  refine ⟨_, hrun, finish_ph _ _, finish_pending _ _, finish_inputs _ _, finish_pt _ _, finish_cfg _ _, finish_rsp _ _,
    fun i hlt => ?bytes, pointer_of_writePointer (wf_storePlan hwf _ _ _ _) (finish_cfg _ _) (finish_mem _ _), fun a ha hout => ?frame,
    hprimitives⟩
  case bytes =>
    obtain ⟨hhi, hlo⟩ := not_or.mp (not_inPair_byteAddr hi hch hfits (s.pointer .tx ch.toNat) i)
    rw [finish_mem]
    refine (congrArg some (Memory.read_writePointer_of_ne (wf_storePlan hwf _ _ _ _) hhi hlo _)).trans ?_
    have hbyte := congrArg (·[i]?) hstored
    simp only [hdata, List.getElem?_map, List.getElem?_range hlt, Option.map_some] at hbyte
    exact hbyte
  case frame =>
    obtain ⟨hhi, hlo⟩ := not_or.mp ha
    rw [finish_mem]
    refine (Memory.read_writePointer_of_ne (wf_storePlan hwf _ _ _ _) hhi hlo _).trans (hkept a fun hmem => ?_)
    rw [hdata] at hmem
    obtain ⟨i, hi', rfl⟩ := List.mem_map.mp hmem
    exact hout i (List.mem_range.mp hi') rfl

end Sys2Proof.Machine

/-! PROOFS. The four Transport primitives (44_transport.md R145 to R150) and another master's turn (R152). First the bytes of a block read, of a block
write and of a failed one by their index in the block, then one bus transaction per verdict; a register primitive is a transaction of one byte. -/

namespace Sys2Proof.Machine

variable {s : State} {m : Memory}

/-! ## Blocks by index -/

/-- A block read is a read at `a + i` for each index `i`, ascending (R44, R147). -/
theorem Memory.readBlock_eq_map_range (m : Memory) (a n : Nat) :
    Memory.readBlock m a n = (List.range n).map fun i => Memory.read m (a + i) := by
  rw [Memory.readBlock_eq_map, List.range'_eq_map_range, List.map_map]
  rfl

/-- The block of one byte is its address. -/
theorem inBlock_one {addr a : Nat} : inBlock addr 1 a ↔ a = addr := by
  simp only [inBlock]
  omega

/-- Byte `i` of a block written stands at `a + i`. -/
theorem Memory.read_writeBlock_index (hm : Memory.wf m = true) (a : Nat) {bs : List Byte} {i : Nat} (hi : i < bs.length) :
    some (Memory.read (Memory.writeBlock m a bs) (a + i)) = bs[i]? := by
  rw [Memory.read_writeBlock hm, if_pos ⟨Nat.le_add_right a i, Nat.add_lt_add_left hi a⟩, Nat.add_sub_cancel_left,
    List.getElem?_eq_getElem hi, List.getD_eq_getElem _ _ hi]

/-- A block write keeps every byte outside the block. -/
theorem Memory.read_writeBlock_of_not_inBlock (hm : Memory.wf m = true) {a x : Nat} {bs : List Byte}
    (hx : ¬ inBlock a bs.length x) : Memory.read (Memory.writeBlock m a bs) x = Memory.read m x := by
  rw [Memory.read_writeBlock hm, if_neg hx]

/-- Byte `i` of a failed block write is new when it landed, and otherwise old (R150). -/
theorem Memory.read_writeLanded_index (hm : Memory.wf m = true) (a : Nat) {bs : List Byte} (landed : List Bool) {i : Nat}
    (hi : i < bs.length) : some (Memory.read (Memory.writeLanded m a bs landed) (a + i))
      = if landed.getD i false then bs[i]? else some (Memory.read m (a + i)) := by
  rw [Memory.read_writeLanded hm, Nat.add_sub_cancel_left]
  by_cases hlanded : landed.getD i false = true
  · rw [if_pos ⟨Nat.le_add_right a i, Nat.add_lt_add_left hi a, hlanded⟩, if_pos hlanded, List.getElem?_eq_getElem hi,
      List.getD_eq_getElem _ _ hi]
  · rw [if_neg fun h => hlanded h.2.2, if_neg hlanded]

/-- A failed block write keeps every byte outside the block, whatever landed (R150). -/
theorem Memory.read_writeLanded_of_not_inBlock (hm : Memory.wf m = true) {a x : Nat} {bs : List Byte} (landed : List Bool)
    (hx : ¬ inBlock a bs.length x) : Memory.read (Memory.writeLanded m a bs landed) x = Memory.read m x := by
  rw [Memory.read_writeLanded hm, if_neg fun ⟨hlow, hhigh, _⟩ => hx ⟨hlow, hhigh⟩]

/-! ## Bus transactions by verdict -/

/-- A failed read inside `PMem` replies no data and changes nothing else (R150). -/
theorem busRead_of_fail {addr n : Nat} {landed : List Bool} (ha : addr + n ≤ s.cfg.pmemSize)
    (hv : s.port.verdict = .fail landed) : busRead addr n s = .next (reply .fail s) := by
  rw [busRead, if_neg (Nat.not_lt.mpr ha), hv]

/-- A failed write of the right length inside `PMem` stores the bytes that landed (R150). -/
theorem busWrite_of_fail {addr n : Nat} {landed : List Bool} (hl : s.port.wdata.length = n)
    (ha : addr + n ≤ s.cfg.pmemSize) (hv : s.port.verdict = .fail landed) :
    busWrite addr n s = .next (reply .fail (setMem (Memory.writeLanded s.mem addr s.port.wdata landed) s)) := by
  rw [busWrite, if_neg (not_not.mpr hl), if_neg (Nat.not_lt.mpr ha), hv]

/-- A successful write leaves byte `i` of its data at `addr + i`, and every byte outside the block as it was. -/
theorem exists_mem_of_busWrite_ok {addr n : Nat} (hm : Memory.wf s.mem = true) (hl : s.port.wdata.length = n)
    (ha : addr + n ≤ s.cfg.pmemSize) (hv : s.port.verdict = .ok) :
    ∃ mem, busWrite addr n s = .next { s with mem := mem, port := { s.port with reply := .ok [] } }
      ∧ (∀ i < n, some (Memory.read mem (addr + i)) = s.port.wdata[i]?)
      ∧ ∀ a, ¬ inBlock addr n a → Memory.read mem a = Memory.read s.mem a := by
  refine ⟨_, busWrite_of_ok hl ha hv, ?_⟩
  subst hl
  exact ⟨fun _ hi => Memory.read_writeBlock_index hm addr hi, fun _ hout => Memory.read_writeBlock_of_not_inBlock hm hout⟩

/-- A failed write leaves byte `i` of its data at `addr + i` where it landed, and every other byte as it was (R150). -/
theorem exists_mem_of_busWrite_fail {addr n : Nat} {landed : List Bool} (hm : Memory.wf s.mem = true)
    (hl : s.port.wdata.length = n) (ha : addr + n ≤ s.cfg.pmemSize) (hv : s.port.verdict = .fail landed) :
    ∃ mem, busWrite addr n s = .next { s with mem := mem, port := { s.port with reply := .fail } }
      ∧ (∀ i < n, some (Memory.read mem (addr + i))
          = if landed.getD i false then s.port.wdata[i]? else some (Memory.read s.mem (addr + i)))
      ∧ ∀ a, ¬ inBlock addr n a → Memory.read mem a = Memory.read s.mem a := by
  refine ⟨_, busWrite_of_fail hl ha hv, ?_⟩
  subst hl
  exact ⟨fun _ hi => Memory.read_writeLanded_index hm addr landed hi,
    fun _ hout => Memory.read_writeLanded_of_not_inBlock hm landed hout⟩

/-! ## The primitives -/

/-- Settles O31: the write of one byte, at index 0. -/
theorem wrRegStoresTheByte : Obligations.WrRegStoresTheByte := by
  intro s addr b hm ha hv hdata
  obtain ⟨mem, hrun, hbytes, hframe⟩ := exists_mem_of_busWrite_ok (n := 1) hm (by rw [hdata]; rfl) ha hv
  have hbyte := hbytes 0 Nat.one_pos
  rw [hdata] at hbyte
  exact ⟨mem, hrun, Option.some.inj hbyte, fun a hne => hframe a (mt inBlock_one.mp hne)⟩

/-- Settles O32: the block read, its bytes listed by index. -/
theorem rdBlkRepliesTheBytes : Obligations.RdBlkRepliesTheBytes := by
  intro s addr len ha hv
  rw [← Memory.readBlock_eq_map_range]
  exact busRead_of_ok ha hv

/-- Settles O33: the successful write of `len` bytes. -/
theorem wrBlkStoresTheBytes : Obligations.WrBlkStoresTheBytes :=
  fun _ _ _ hm ha hv hl => exists_mem_of_busWrite_ok hm hl ha hv

/-- Settles O34: the reads by their reply, the writes by the bytes that landed; `WR_REG` is the write of one byte, at index 0. -/
theorem failedPrimitiveLeavesOldOrNewBytes : Obligations.FailedPrimitiveLeavesOldOrNewBytes := by
  intro s landed addr hv hm
  refine ⟨fun ha => busRead_of_fail (n := 1) ha hv, fun _ ha => busRead_of_fail ha hv, fun b ha hdata => ?wrReg,
    fun _ ha hl => exists_mem_of_busWrite_fail hm hl ha hv⟩
  obtain ⟨mem, hrun, hbytes, hframe⟩ := exists_mem_of_busWrite_fail (n := 1) hm (by rw [hdata]; rfl) ha hv
  have hbyte := hbytes 0 Nat.one_pos
  rw [hdata, Nat.add_zero, List.getElem?_cons_zero, ← apply_ite some] at hbyte
  exact ⟨mem, hrun, Option.some.inj hbyte, fun a hne => hframe a (mt inBlock_one.mp hne)⟩

/-- Settles O30: the read of one byte. -/
theorem rdRegRepliesTheByte : Obligations.RdRegRepliesTheByte :=
  fun _ _ ha hv => busRead_of_ok (n := 1) ha hv

/-! ## Another master's turn -/

/-- Another master's request that decodes is performed with its write data and its verdict (R78, R152). -/
theorem masterTurn_of_decodeRequest {w : Nat} {i : Instr} (hd : decodeRequest s.cfg.addrW w = .ok i) (wdata : List Byte)
    (v : Verdict) : masterTurn w wdata v s = exec i (putOnPort wdata v s) := by
  rw [masterTurn, hd]

/-- Settles O51: the step is the master's turn on the state with the rest of the schedule. -/
theorem stepRunsTheDecodedRequest : Obligations.StepRunsTheDecodedRequest := by
  intro s w wdata v ts i hc hin hd
  rw [step_of_inputs_cons hc hin]
  exact masterTurn_of_decodeRequest (s := { s with inputs := ts }) hd wdata v

end Sys2Proof.Machine

/-! PROOFS. The exceptions of 60_exceptions.md: the errors of the checks, in their order (R161, R162, R164, R167), the error of a failed primitive
(R163), what a command run in `IDLE` may change (R166), and the commands held off (R173). -/

namespace Sys2Proof.Machine

variable {s t : State}

/-! ## The channel check -/

theorem unknownChannel_eq_true {ch : Chan} (h : s.cfg.n ≤ ch.toNat) : s.unknownChannel ch = true := decide_eq_true h

/-- An operation that looks its channel up first takes the error, whatever it would go on to do (R92, R167). -/
theorem orRaise_getSlice_of_unknown {ch : Chan} (h : s.unknownChannel ch = true) (d : Dir) (go : Slice → Result) :
    orRaise (getSlice d ch s) s go = .next (raise .unknownChannelError s) := by
  rw [getSlice_of_unknown h, orRaise_error]

/-- Settles O19: five operations look the channel up first, and `SET_SLICE_SIZE` checks it first itself. -/
theorem channelOutOfRangeIsUnknownChannelError : Obligations.ChannelOutOfRangeIsUnknownChannelError := by
  intro s d ch a b hidle hch
  have hunknown := unknownChannel_eq_true hch
  rw [← respond, ← raise_idle s _ hidle]
  simp only [List.forall_mem_cons, List.not_mem_nil, false_implies, implies_true, and_true]
  exact ⟨if_pos hunknown, orRaise_getSlice_of_unknown hunknown d _, orRaise_getSlice_of_unknown hunknown d _,
    orRaise_getSlice_of_unknown hunknown d _, orRaise_getSlice_of_unknown hunknown .rx _,
    orRaise_getSlice_of_unknown hunknown .tx _⟩

/-! ## The size check and the length check -/

/-- A known channel and a size that is not allowed fail the second check of R90. -/
theorem exec_setSliceSize_of_not_allowed {d : Dir} {ch : Chan} {size : Half} (hch : ch.toNat < s.cfg.n)
    (hsize : size.toNat ∉ s.cfg.allowed) : exec (.setSliceSize d ch size) s = .next (raise .invalidSizeError s) := by
  simp [exec, execSetSliceSize, unknownChannel_eq_false hch, hsize]

/-- Settles O18: the channel check passes, and the size check fails in `IDLE`. -/
theorem sizeNotAllowedIsInvalidSizeError : Obligations.SizeNotAllowedIsInvalidSizeError := by
  intro s d ch size hidle hch hsize
  rw [exec_setSliceSize_of_not_allowed hch hsize, raise_idle s _ hidle]
  rfl

theorem ne_zero_of_lt_toNat {n : Nat} {len : Half} (h : n < len.toNat) : len ≠ 0#16 := by
  rintro rfl
  exact Nat.not_lt_zero n h

/-- A length above the slice size has no plan (R114). -/
theorem planSegments_of_size_lt {sl : Slice} {len : Half} (h : sl.size.toNat < len.toNat) (p : Half) :
    planSegments sl p len = .error .lengthError := by
  rw [planSegments, if_neg (ne_zero_of_lt_toNat h), if_pos h]

/-- A transfer of a length above the slice size ends in the third check of R126. -/
theorem beginTransfer_of_size_lt {d : Dir} {ch : Chan} {len : Half} {buf : List Byte} (hch : ch.toNat < s.cfg.n)
    (h : (s.pt.entry d ch.toNat).size.toNat < len.toNat) :
    beginTransfer d ch len buf s = .next (raise .lengthError s) := by
  rw [beginTransfer, getSlice_of_known (unknownChannel_eq_false hch), orRaise_ok, if_neg (ne_zero_of_lt_toNat h), if_pos h]

/-- Settles O26: `PLAN` by the length check of the plan, the transfers by that of R126. -/
theorem lengthAboveTheSliceIsLengthError : Obligations.LengthAboveTheSliceIsLengthError := by
  intro s d ch p len hidle hch
  rw [← respond, ← raise_idle s _ hidle]
  refine ⟨fun h => ?plan, beginTransfer_of_size_lt hch, beginTransfer_of_size_lt hch⟩
  case plan =>
    rw [exec, execPlan, getSlice_of_known (unknownChannel_eq_false hch), orRaise_ok, planSegments_of_size_lt h, orRaise_error]

/-! ## A failed primitive -/

/-- In `IDLE` no primitive is outstanding. -/
theorem requestOf_of_idle (h : s.ph = .idle) : requestOf s = none := by
  rw [requestOf, h]

/-- The reply to a primitive that fails is `fail` (R150). -/
theorem reply_of_exec_fail {i : Instr} (hi : isTransportPrimitive i) {landed : List Bool} (hv : s.port.verdict = .fail landed)
    (h : exec i s = .next t) : t.port.reply = .fail := by
  have hread : ∀ a n, busRead a n s = .next t → t.port.reply = .fail := by
    intro a n h
    rcases busRead_cases a n s with ⟨_, e⟩ | ⟨_, hok, _⟩ | ⟨_, _, e⟩
    · rw [e] at h; cases h
    · rw [hv] at hok; cases hok
    · rw [e] at h; cases h; rfl
  have hwrite : ∀ a n, busWrite a n s = .next t → t.port.reply = .fail := by
    intro a n h
    rcases busWrite_cases a n s with ⟨_, e⟩ | ⟨_, _, e⟩ | ⟨_, _, hok, _⟩ | ⟨_, _, _, _, e⟩
    · rw [e] at h; cases h
    · rw [e] at h; cases h
    · rw [hv] at hok; cases hok
    · rw [e] at h; cases h; rfl
  cases i with
  | rdReg a => exact hread _ _ h
  | rdBlk a n => exact hread _ _ h
  | wrReg a => exact hwrite _ _ h
  | wrBlk a n => exact hwrite _ _ h
  | _ => exact absurd hi id

/-- A `fail` reply ends the operation, in every phase (R132, R133). -/
theorem advance_of_fail (h : s.port.reply = .fail) : advance s = raise .transportError s := by
  rw [advance, h]

/-- When the primitive outstanding fails, CBAT takes the error, after a change of `PMem` and the port at most (R163). -/
theorem exists_transportTurn_fail (hi : s.Inv) (hbusy : s.ph ≠ .idle) (landed : List Bool) :
    ∃ m p, transportTurn (.fail landed) s = .next (raise .transportError { s with mem := m, port := p }) := by
  obtain ⟨i, w, hr, hrequest⟩ := exists_transferRequest hi hbusy
  obtain ⟨u, hu⟩ := hrequest.exists_exec_next hi (transferSound_of_busy hi hbusy) (.fail landed)
  have hreply := reply_of_exec_fail (isPrimitive_of_requestOf hr) rfl hu
  obtain ⟨m, p, rfl⟩ := exec_request_frame hr hu
  refine ⟨m, p, ?_⟩
  rw [transportTurn_of_request hr, hu, mapNext, advance_of_fail hreply]

/-- Settles O43: the step is the Transport's turn, and taking the error leaves the table, the configuration and the commands held off. -/
theorem failedPrimitiveEndsTheOperationWithTransportError :
    Obligations.FailedPrimitiveEndsTheOperationWithTransportError := by
  intro s landed ts hi hbusy hin
  obtain ⟨m, p, hturn⟩ := exists_transportTurn_fail (s := { s with inputs := ts }) hi hbusy landed
  exact ⟨_, (step_of_inputs_cons hi.1 hin).trans hturn, raise_ph .., raise_rsp .., raise_pt .., raise_cfg .., raise_pending ..,
    raise_inputs .., requestOf_of_idle (raise_ph ..)⟩

/-! ## What a command run in `IDLE` may change -/

/-- What a command can answer before any primitive: OK, or an error that is no `TransportError` (R166, R167). -/
def Response.answersCommand (r : Response) : Prop :=
  r.status = .ok ∨ ∃ k, k ≠ .transportError ∧ r = Response.failed k

theorem answersCommand_of_ok {r : Response} (h : r.status = .ok) : r.answersCommand := .inl h

theorem answersCommand_failed {k : ErrorKind} (h : k ≠ .transportError) : (Response.failed k).answersCommand := .inr ⟨k, h, rfl⟩

theorem getSlice_ne_transportError (d : Dir) (ch : Chan) (s : State) : getSlice d ch s ≠ .error .transportError := by
  unfold getSlice
  split <;> simp

theorem planSegments_ne_transportError (sl : Slice) (p len : Half) : planSegments sl p len ≠ .error .transportError := by
  unfold planSegments
  split
  · simp
  · split <;> simp

/-- Where a check raises no `TransportError` and going on answers a command, so does going on or taking the error. -/
theorem answersCommand_of_orRaise {α : Type} {x : Except ErrorKind α} {go : α → Result} (hx : x ≠ .error .transportError)
    (hgo : ∀ a, go a = .next t → t.rsp.answersCommand) (h : orRaise x s go = .next t) : t.rsp.answersCommand := by
  cases x with
  | ok a => exact hgo a h
  | error k =>
    cases h
    exact answersCommand_failed fun e => hx (congrArg Except.error e)

theorem answersCommand_of_execSetSliceSize {d : Dir} {ch : Chan} {size : Half} (h : execSetSliceSize d ch size s = .next t) :
    t.rsp.answersCommand := by
  unfold execSetSliceSize at h
  split at h
  · cases h; exact answersCommand_failed (by decide)
  · split at h
    · cases h; exact answersCommand_failed (by decide)
    · cases h; exact answersCommand_of_ok rfl

/-- A transfer command that leaves CBAT in `IDLE` has taken the error of a check or answered the zero length (R126). -/
theorem answersCommand_of_beginTransfer {d : Dir} {ch : Chan} {len : Half} {buf : List Byte}
    (h : beginTransfer d ch len buf s = .next t) (hidle : t.ph = .idle) : t.rsp.answersCommand := by
  rcases beginTransfer_cases d ch len buf s with
    ⟨_, e⟩ | ⟨_, _, e⟩ | ⟨_, _, _, e⟩ | ⟨_, _, _, _, e⟩ | ⟨_, _, _, _, e⟩ <;> rw [e] at h <;> cases h
  · exact answersCommand_failed (by decide)
  · exact answersCommand_of_ok rfl
  · exact answersCommand_failed (by decide)
  · cases hidle

/-- A command that leaves CBAT in `IDLE` has answered. -/
theorem answersCommand_of_exec {i : Instr} (hi : ¬ isTransportPrimitive i) (h : exec i s = .next t) (hidle : t.ph = .idle) :
    t.rsp.answersCommand := by
  have hrespond {r : Response} (hok : r.status = .ok) (e : Host.Outcome.next (respond r s) = (.next t : Result)) :
      t.rsp.answersCommand := by
    cases e
    exact answersCommand_of_ok hok
  cases i with
  | setSliceSize d ch size => exact answersCommand_of_execSetSliceSize h
  | getSlice d ch => exact answersCommand_of_orRaise (getSlice_ne_transportError d ch s) (fun _ => hrespond rfl) h
  | translate d ch p => exact answersCommand_of_orRaise (getSlice_ne_transportError d ch s) (fun _ => hrespond rfl) h
  | plan d ch p len =>
    exact answersCommand_of_orRaise (getSlice_ne_transportError d ch s) (fun sl =>
      answersCommand_of_orRaise (planSegments_ne_transportError sl p len) fun _ => hrespond rfl) h
  | receive ch len => exact answersCommand_of_beginTransfer h hidle
  | transmit ch len => exact answersCommand_of_beginTransfer h hidle
  | rdReg | wrReg | rdBlk | wrBlk => exact absurd trivial hi

/-- Settles O57: each effect a command can have, with what it can answer. -/
theorem commandInIdleChangesOnlyWhatItsKindMay : Obligations.CommandInIdleChangesOnlyWhatItsKindMay := by
  intro i s t hidle hi h
  have hanswer := answersCommand_of_exec hi h
  cases commandEffect_of_exec hi h with
  | error k =>
    rcases hanswer (raise_ph s k) with hok | ⟨k', hk, e⟩
    · cases hok
    · cases e
      exact .inl ⟨k, hk, raise_idle s k hidle⟩
  | answer r =>
    rcases hanswer hidle with hok | ⟨k, hk, e⟩
    · exact .inr (.inl ⟨rfl, hok⟩)
    · cases e
      exact .inl ⟨k, hk, rfl⟩
  | setSize d ch size hset _ => exact .inr (.inr (.inl ⟨⟨d, ch, size, hset⟩, rfl⟩))
  | start d ch len htransfer _ => exact .inr (.inr (.inr ⟨⟨d, ch, len, htransfer⟩, rfl⟩))

/-! ## Commands held off -/

/-- Settles O54: the host's turn, and CBAT's turn while it waits. -/
theorem commandIsHeldOffWhileBusy : Obligations.CommandIsHeldOffWhileBusy := by
  refine fun s c ts hc => ⟨fun hin hformed => ?presented, fun hbusy hin => ?waiting⟩ <;> rw [step_of_inputs_cons hc hin]
  case presented => exact if_pos hformed
  case waiting => exact cbatTurn_of_waiting (.inl hbusy)

end Sys2Proof.Machine

/-! PROOFS. The reset input (70_reset_and_hazards.md R185; 93_implementation_defined.md U26): the table it restores, that it never stops, and what
the primitive outstanding leaves in `PMem`. -/

namespace Sys2Proof.Machine

variable {s t : State}

/-! ## The table of reset -/

/-- `DEFAULT_SIZE` is a legal slice size, so it fits the size field (R9, R10). -/
theorem toNat_defaultSize {c : Config} (hc : c.wellFormed = true) :
    (BitVec.ofNat 16 c.defaultSize).toNat = c.defaultSize := by
  obtain ⟨_, hallowed, hdefault, _⟩ := wellFormed_facts hc
  have hle := isSliceSize_le (hallowed _ hdefault)
  rw [BitVec.toNat_ofNat, Nat.mod_eq_of_lt (by omega)]

/-- Before entry `k` of equal entries stand `k` times the one size. -/
theorem sizesBefore_replicate {n k : Nat} (hk : k ≤ n) (e : Slice) :
    sizesBefore (List.replicate n e) k = k * e.size.toNat := by
  simp [sizesBefore, List.take_replicate, Nat.min_eq_left hk]

@[simp] theorem length_resetEntries (c : Config) (d : Dir) : (resetEntries c d).length = c.n := by
  simp [resetEntries]

/-- Entry `k` of the table of reset: the default size, laid out (R34). -/
theorem entry_reset {c : Config} (hc : c.wellFormed = true) (d : Dir) {k : Nat} (hk : k < c.n) :
    (PartitionTable.reset c).entry d k = ⟨BitVec.ofNat 16 c.defaultSize, c.regionBase d + k * c.defaultSize⟩ := by
  rw [PartitionTable.entry, entries_reset, resetEntries, List.getD_eq_getElem?_getD, getElem?_layout,
    sizesBefore_replicate hk.le, toNat_defaultSize hc, List.getElem?_replicate_of_lt hk]
  rfl

/-! ## The turn of the reset input -/

/-- With nothing outstanding the reset input only resets CBAT. -/
theorem resetTurn_of_idle (h : s.ph = .idle) (landed : List Bool) : resetTurn landed s = .next (resetCbat s) := by
  rw [resetTurn, requestOf_of_idle h]

/-- With a primitive outstanding, CBAT is reset after the part of it that completes (U26). -/
theorem resetTurn_of_request {i : Instr} {w : List Byte} {landed : List Bool} {u : State} (hr : requestOf s = some (i, w))
    (hu : exec i (putOnPort w (.fail landed) s) = .next u) : resetTurn landed s = .next (resetCbat u) := by
  simp only [resetTurn, hr, hu]

/-- From a sound state the reset input never stops: CBAT is reset, after a change of `PMem` and the port at most (R185). -/
theorem exists_resetTurn_next (hi : s.Inv) (landed : List Bool) :
    ∃ m p, resetTurn landed s = .next (resetCbat { s with mem := m, port := p }) := by
  by_cases hidle : s.ph = .idle
  · exact ⟨s.mem, s.port, resetTurn_of_idle hidle landed⟩
  · obtain ⟨i, w, hr, hrequest⟩ := exists_transferRequest hi hidle
    obtain ⟨u, hu⟩ := hrequest.exists_exec_next hi (transferSound_of_busy hi hidle) (.fail landed)
    obtain ⟨m, p, rfl⟩ := exec_request_frame hr hu
    exact ⟨m, p, resetTurn_of_request hr hu⟩

/-! ## What it leaves in `PMem` -/

/-- The reset input leaves each byte of `PMem` old or as the primitive outstanding writes it (U26). -/
theorem read_of_resetTurn {landed : List Bool} (hi : s.Inv) (h : resetTurn landed s = .next t) (x : Nat) :
    Memory.read t.mem x = Memory.read s.mem x ∨ storedByte (requestOf s) x = some (Memory.read t.mem x) := by
  obtain ⟨u, rfl, rfl | ⟨i, w, hr, hu⟩⟩ := resetTurn_next_cases h
  · exact .inl rfl
  · rw [resetCbat_mem, hr]
    exact read_old_or_stored (isPrimitive_of_requestOf hr) (wf_mem_of_inv hi) hu x

/-- In `IDLE`, and while the pointer is being read, the reset input leaves `PMem` as it was. -/
theorem mem_of_resetTurn {landed : List Bool} (hph : s.ph = .idle ∨ s.ph = .rdHi ∨ s.ph = .rdLo)
    (h : resetTurn landed s = .next t) : t.mem = s.mem := by
  obtain ⟨u, rfl, rfl | ⟨i, w, hr, hu⟩⟩ := resetTurn_next_cases h
  · rfl
  · have hread : ∃ a, i = .rdReg a := by
      rcases hph with hph | hph | hph
      · cases (requestOf_of_idle hph).symm.trans hr
      · cases (requestOf_of_rdHi hph).symm.trans hr
        exact ⟨_, rfl⟩
      · cases (requestOf_of_rdLo hph).symm.trans hr
        exact ⟨_, rfl⟩
    obtain ⟨a, rfl⟩ := hread
    rw [resetCbat_mem]
    exact mem_of_exec_rdReg (s := putOnPort w (.fail landed) s) hu

/-- Settles O15: the step is the turn of the reset input; the table is read off `resetCbat`, `PMem` off the primitive outstanding. -/
theorem resetInputRestoresTheDefaultTable : Obligations.ResetInputRestoresTheDefaultTable := by
  intro s landed ts hi hin
  obtain ⟨m, p, hturn⟩ := exists_resetTurn_next (s := { s with inputs := ts }) hi landed
  refine ⟨_, (step_of_inputs_cons hi.1 hin).trans hturn, rfl, rfl, rfl, rfl, fun d => ⟨?length, fun k hk => ?entry⟩,
    fun hph => mem_of_resetTurn (s := { s with inputs := ts }) hph hturn,
    fun a => (read_of_resetTurn (s := { s with inputs := ts }) hi hturn a).imp id Eq.symm⟩
  case length => rw [resetCbat_pt, entries_reset, length_resetEntries]
  case entry =>
    rw [resetCbat_pt, entry_reset hi.1 d hk]
    exact ⟨toNat_defaultSize hi.1, rfl⟩

end Sys2Proof.Machine
